-- ==== Sys2Proof/Word.lean ====
section
/-!
DEFINITION. The widths of the engine's words (00_scope.md R5, R6): every register and table entry is an
unsigned number of its stated width, so it is a bit vector of that width.
-/

namespace Sys2Proof

/-- A byte: a command word, a byte of the stream buffer, an entry of `HIST`, the prefix, an observation count. -/
abbrev Byte := BitVec 8

/-- A 32-bit word: an interval bound, the needle, the cursor, a cell of `PT`, a host register. -/
abbrev Word := BitVec 32

/-- A 16-bit half: a context or a probability. -/
abbrev Half := BitVec 16

/-- The 24-bit probability estimate of a cell. -/
abbrev Estimate := BitVec 24

/-- An entry of the reciprocal table `DT`: 13 bits, so it lies in `[0, 8191]` (10_state.md R28). -/
abbrev Rate := BitVec 13

end Sys2Proof
end

