-- ==== Sys2Proof/Config.lean ====
section
/-!
DEFINITION. What an implementation fixes: the open parameters of 00_scope.md R5 (92_eei_decisions.md D5 to D8), and
the free values of the spec's `any value` cases (93_implementation_defined.md U1).
-/

namespace Sys2Proof

/-- The open parameters. `SEED` and `DT` are functions of an index; each is held as plain data, as the list of
the entries that differ from the spec's default formula, so that every function of the index can be written down
(Machine/Tables.lean reads them). The constraint of R5 is part of the type: a configuration with
`SEED_COUNT > ADAPT_LIMIT` cannot be built (U14), and `Rate` has 13 bits, so no entry of `DT` exceeds 8191. -/
structure Config where
  /-- `ADAPT_LIMIT`, the predictor's adaptation limit (D5). -/
  adaptLimit : Byte
  /-- `SEED_COUNT`, the count field of every seed (D7). -/
  seedCount : Byte
  /-- `HIST_INIT`, the initial bit-history entry (D8). -/
  histInit : Byte
  /-- The entries of `DT` that differ from R81's formula (D6). -/
  dtChanges : List (Nat × Rate)
  /-- The estimates of `SEED` that differ from R83's formula (D7). -/
  seedChanges : List (Nat × Estimate)
  /-- R5: `SEED_COUNT <= ADAPT_LIMIT`; `ADAPT_LIMIT <= 255` holds by its width. -/
  seedCount_le : seedCount ≤ adaptLimit
deriving DecidableEq, Repr

/-- The defaults of R5: `ADAPT_LIMIT = 127`, `SEED_COUNT = 6`, `HIST_INIT = 0x66`, `DT` and `SEED` by formula.
PRESUMED by the spec itself (its general knowledge of `fpaq0f2`, G3, G4, G6, G7): log 4. -/
def Config.default : Config where
  adaptLimit := 127
  seedCount := 6
  histInit := 0x66
  dtChanges := []
  seedChanges := []
  seedCount_le := by decide

/-- A configuration from its parts; one that breaks R5's constraint is refused (U14: "the model should `refuse` to
construct such a configuration"). -/
def Config.make (adaptLimit seedCount histInit : Byte) (dtChanges : List (Nat × Rate))
    (seedChanges : List (Nat × Estimate)) : Option Config :=
  if h : seedCount ≤ adaptLimit then
    some ⟨adaptLimit, seedCount, histInit, dtChanges, seedChanges, h⟩
  else none

/-- The `n`-th free value of U1: what a read of a working-register view returns while `MODE = IDLE`. No body: nothing
can be proved of its value (log 3). -/
opaque Config.freeWord : Nat → Word

end Sys2Proof
end

