-- ==== Sys2Proof/Syntax.lean ====
section
/-!
DEFINITION. The five commands of the engine (30_encoding.md R62, spec/opcode_table.json).
-/

namespace Sys2Proof

/-- The commands a host issues by writing `CMD` (00_scope.md R2). The only operand is the bit of `ENCODE_BIT`
(30_encoding.md R61). -/
inductive Instr where
  /-- `INIT_ENC`: start a compress pass (42_coder.md R130). -/
  | initEnc
  /-- `INIT_DEC`: start a decompress pass (42_coder.md R131). -/
  | initDec
  /-- `ENCODE_BIT b`: code one bit (42_coder.md R132). -/
  | encodeBit (b : Bool)
  /-- `DECODE_BIT`: decode one bit (42_coder.md R133). -/
  | decodeBit
  /-- `FLUSH`: end a compress pass (42_coder.md R134). -/
  | flush
deriving DecidableEq, Repr

end Sys2Proof
end

