-- ==== Sys2Proof/WellFormed.lean ====
section
/-!
DEFINITION. Well-formedness of the model's inputs. A command has one operand, one bit, and its type admits no other
value ("`bit` outside {0, 1} cannot be expressed: `B` is one bit", 60_exceptions.md R189): every command is well
formed. The checks that can fail are the ones on the data a table of the configuration is written with.
-/

namespace Sys2Proof

/-- Every command is well formed: its operand's type leaves nothing to check (60_exceptions.md R189). -/
def Instr.wellFormed : Instr → Bool
  | .initEnc => true
  | .initDec => true
  | .encodeBit _ => true
  | .decodeBit => true
  | .flush => true

/-- Keys strictly rise from `lo` and stay below `bound`. -/
def keysRise {α : Type} (bound : Nat) : Nat → List (Nat × α) → Bool
  | _, [] => true
  | lo, (k, _) :: rest => decide (lo ≤ k) && decide (k < bound) && keysRise bound (k + 1) rest

/-- The changed entries of a configuration are listed by rising index, inside the tables: 256 entries of `DT`, 65536
seeds (00_scope.md R5). -/
def Config.wellFormed (c : Config) : Bool :=
  keysRise 256 0 c.dtChanges && keysRise 65536 0 c.seedChanges

end Sys2Proof
end

