-- ==== Sys2Proof/Decode.lean ====
section
/-!
DEFINITION. The command word (30_encoding.md R60 to R65): `OPC` in bits [7:4], `Z` in bits [3:1], `B` in bit 0.
Decoding is total; an illegal word is rejected with the reason R64 gives. The encoder follows the same table.
-/

namespace Sys2Proof

/-- Why a command word is illegal (30_encoding.md R64). -/
inductive DecodeError where
  /-- `OPC` is not one of 1 to 5. -/
  | unknownOpcode
  /-- `Z` is not `000`. -/
  | reservedBitsSet
  /-- `B = 1` on a command other than `ENCODE_BIT`. -/
  | operandBitSet
deriving DecidableEq, Repr

/-- `OPC`, bits [7:4] of a command word (R60). -/
def wordOpc (w : Byte) : BitVec 4 := w.extractLsb' 4 4

/-- `Z`, bits [3:1] of a command word (R60). -/
def wordZ (w : Byte) : BitVec 3 := w.extractLsb' 1 3

/-- `B`, bit 0 of a command word (R60, R61). -/
def wordB (w : Byte) : Bool := w.getLsbD 0

/-- A command that carries no operand: `B` must be 0 (R60). -/
def noOperand (w : Byte) (i : Instr) : Except DecodeError Instr :=
  if wordB w then .error .operandBitSet else .ok i

/-- The opcode map of R62, for a word whose `Z` is `000`. -/
def decodeOpc (w : Byte) : Except DecodeError Instr :=
  match (wordOpc w).toNat with
  | 1 => noOperand w .initEnc
  | 2 => noOperand w .initDec
  | 3 => .ok (.encodeBit (wordB w))
  | 4 => noOperand w .decodeBit
  | 5 => noOperand w .flush
  | _ => .error .unknownOpcode

/-- Decode one command word (R62, R64). -/
def decode (w : Byte) : Except DecodeError Instr :=
  if wordZ w = 0 then decodeOpc w else .error .reservedBitsSet

/-- A command word from its three fields (R60). -/
def packWord (opc : BitVec 4) (b : Bool) : Byte := opc ++ (0#3 ++ BitVec.ofBool b)

/-- The command word of a command (R62). -/
def encode : Instr → Byte
  | .initEnc => packWord 1 false
  | .initDec => packWord 2 false
  | .encodeBit b => packWord 3 b
  | .decodeBit => packWord 4 false
  | .flush => packWord 5 false

/-- The command a 32-bit value written to `CMD` names: only bits [7:0] count (R64, 10_state.md R20). -/
def commandOf (v : Word) : Except DecodeError Instr := decode (v.setWidth 8)

/-- The value the host writes to `CMD` to issue a command; bits [31:8] are ignored, and 0 here. -/
def commandWord (i : Instr) : Word := (encode i).setWidth 32

/-- The value written to `CMD` for an instruction whose bits are `w`, `nbits` of them given. -/
def tableWord (nbits w : Nat) : Word := BitVec.ofNat 32 (w % 2 ^ nbits)

/-- What this decoder reads from an instruction whose bits are `w`, numbered as spec/opcode_table.json does. -/
def decodeTableWord (nbits w : Nat) : Option Instr :=
  match commandOf (tableWord nbits w) with
  | .ok i => some i
  | .error _ => none

end Sys2Proof
end

