-- ==== Sys2Proof/Machine/State.lean ====
section
/-!
DEFINITION. The state of the engine and of the two things the host puts beside it (the stream buffer and the register
accesses still to arrive), the reasons a step could stop, and the state after power-on reset (10_state.md R10 to R33).
-/

namespace Sys2Proof.Machine

/-- `MODE` (10_state.md R17). -/
inductive Mode where
  /-- 0: no pass started since power-on reset. -/
  | idle
  /-- 1: compress mode. -/
  | enc
  /-- 2: decompress mode. -/
  | dec
  /-- 3: a compress pass ended by a successful `FLUSH`. -/
  | done
deriving DecidableEq, Repr

/-- The status code of a response (60_exceptions.md R180); values 4 to 15 are never produced (30_encoding.md R63). -/
inductive Code where
  /-- 0: the command completed. -/
  | ok
  /-- 1: capacity exhausted, or refused because `OVF = 1`. -/
  | eOverflow
  /-- 2: illegal command word. -/
  | eIllegal
  /-- 3: not admitted in the current `MODE`. -/
  | eMode
deriving DecidableEq, Repr

/-- A response: what `RESP` holds (10_state.md R22). -/
structure Resp where
  /-- `RESP[3:0]`. -/
  code : Code
  /-- `RESP[4]`. -/
  bit : Bool
deriving DecidableEq, Repr

/-- One action of the host on the engine or on the stream buffer it owns. Inputs land between commands only
(00_scope.md R7). -/
inductive HostAccess where
  /-- Write a whole 32-bit register of the block of 10_state.md R20. -/
  | write (offset : Nat) (value : Word)
  /-- Read a whole 32-bit register of that block. -/
  | read (offset : Nat)
  /-- Store a byte in the host's stream buffer (70_reset_and_hazards.md R212 step 1). -/
  | store (index : Word) (value : Byte)
  /-- Read a byte of the host's stream buffer (43_host_sequences.md R166). -/
  | load (index : Word)
  /-- Power-on reset of the engine (10_state.md R32). -/
  | powerOn
deriving DecidableEq, Repr

/-- Why a step stops with a fault. The spec gives the engine no event that stops it: "Three outcomes only, no
exceptions/retries" (60_exceptions.md), and every failure is a response code, a next state. So there is no case, and
nothing raises one: safe. -/
inductive Fault where
deriving DecidableEq, Repr

/-- Why a step is refused. No command is: `exec` always answers a next state. -/
inductive Refusal where
  /-- Raised by `exec` for an instruction that has no meaning in the model yet: safe (a stop where the hardware goes
  on). No arm of `exec` uses it. -/
  | notModelled (mnemonic : String)
  /-- Raised by a step whose access is a store of the host into bytes of `BUF` that the pass in progress relies on:
  "Assumed never to happen in a model: no move for it" (70_reset_and_hazards.md R215, 93_implementation_defined.md U12).
  Safe: a stop where the hardware goes on (log 6). No command raises it. -/
  | bufferInPass
deriving DecidableEq, Repr

/-- Everything the spec gives the machine. `pt`, `hist` and `buf` list, by rising index, the entries that differ from
what an unlisted entry reads as (`SEED(i)`, `HIST_INIT`, 0: Machine/Ops.lean, log 2 and log 7). -/
structure State where
  /-- `X1`, lower bound of the interval (R11). -/
  x1 : Word
  /-- `X2`, upper bound of the interval, inclusive (R11). -/
  x2 : Word
  /-- `X`, the decoder's needle (R12). -/
  x : Word
  /-- `PREFIX`, the partial-byte prefix (R13). -/
  pfx : Byte
  /-- `LASTCTX`, the context of the most recent `EST.PREDICT` (R14). -/
  lastctx : Half
  /-- `LASTP`, the probability that `EST.PREDICT` returned (R14). -/
  lastp : Half
  /-- `POS`, the byte cursor (R15). -/
  pos : Word
  /-- `LIMIT`, the capacity or length latched by `INIT_*` (R15). -/
  limit : Word
  /-- `MODE` (R17). -/
  mode : Mode
  /-- `OVF`, the sticky overflow flag (R18). -/
  ovf : Bool
  /-- `RESP`, the response of the most recent command (R22). -/
  resp : Resp
  /-- `LEN`, written by the host, latched by `INIT_*` (R24). -/
  len : Word
  /-- `PT[0..65535]`, the probability table (R26). -/
  pt : List (Nat × Word)
  /-- `HIST[0..255]`, the bit-history bank (R27). -/
  hist : List (Nat × Byte)
  /-- `BUF`, the stream buffer (R29). -/
  buf : List Host.Cell
  /-- The parameters, fixed for the machine (R31, 00_scope.md R5, log 4). -/
  cfg : Config
  /-- The model's own: the host's accesses still to arrive, in order (log 5). -/
  pending : List HostAccess
  /-- The model's own: the word the host's most recent read returned (log 12). -/
  rdata : Word
  /-- The model's own: how many free values have been drawn (log 3). -/
  draws : Nat
deriving DecidableEq, Repr

/-- The machine right after power-on reset (R32): `MODE`, `OVF`, `RESP` and `LEN` as the spec says; every other value is
unspecified there and named in log 1, log 2, log 3, log 5, log 7 and log 12. -/
def State.reset : State where
  x1 := 0
  x2 := 0
  x := 0
  pfx := 0
  lastctx := 0
  lastp := 0
  pos := 0
  limit := 0
  mode := .idle
  ovf := false
  resp := ⟨.ok, false⟩
  len := 0
  pt := []
  hist := []
  buf := []
  cfg := Config.default
  pending := []
  rdata := 0
  draws := 0

end Sys2Proof.Machine
end

