-- ==== Sys2Proof/Machine/Tables.lean ====
section
/-!
DEFINITION. The cell format (40_estimator.md R80), the constant table `DT` (R81, R82) and the seeds (R83), and the
plain-data form in which tables and the stream buffer are held: the entries that differ from a default, by rising index.
-/

namespace Sys2Proof.Machine

/-! ### Sparse data by index -/

/-- The entry at index `k`: the listed one, else what an unlisted entry reads as. -/
def cellsGet {w : Nat} (dflt : Nat → BitVec w) : List (Nat × BitVec w) → Nat → BitVec w
  | [], k => dflt k
  | (j, v) :: rest, k => if k = j then v else cellsGet dflt rest k

/-- The list with the entry at `k` set to `v`. The canonical form is kept: indices rise, and an entry equal to what an
unlisted one reads as is not listed. -/
def cellsSet {w : Nat} (dflt : Nat → BitVec w) : List (Nat × BitVec w) → Nat → BitVec w → List (Nat × BitVec w)
  | [], k, v => if v = dflt k then [] else [(k, v)]
  | (j, u) :: rest, k, v =>
    if k < j then
      if v = dflt k then (j, u) :: rest else (k, v) :: (j, u) :: rest
    else if k = j then
      if v = dflt k then rest else (k, v) :: rest
    else (j, u) :: cellsSet dflt rest k v

/-- The canonical form: indices rise strictly from `lo`, stay below `bound`, and no entry equals what an unlisted one
reads as. -/
def cellsWf {w : Nat} (dflt : Nat → BitVec w) (bound : Nat) : Nat → List (Nat × BitVec w) → Bool
  | _, [] => true
  | lo, (k, v) :: rest => decide (lo ≤ k) && decide (k < bound) && (v != dflt k) && cellsWf dflt bound (k + 1) rest

/-! ### The cell format, R80 -/

/-- `PROB24`, bits [31:8] of a cell. -/
def cellEstimate (c : Word) : Estimate := c.extractLsb' 8 24

/-- `COUNT`, bits [7:0] of a cell. -/
def cellCount (c : Word) : Byte := c.extractLsb' 0 8

/-- The 16 bits a predict returns: the top 16 of `PROB24`, bits [31:16] of the cell (R84). -/
def cellProb (c : Word) : Half := c.extractLsb' 16 16

/-- The 18-bit slice an update works on: bits [31:14] of the cell (R85). -/
def cellSlice (c : Word) : BitVec 18 := c.extractLsb' 14 18

/-- A cell from its two fields. -/
def packCell (estimate : Estimate) (count : Byte) : Word := estimate.setWidth 32 <<< 8 ||| count.setWidth 32

/-! ### `DT`, R81 and R82 -/

/-- The default entry of the reciprocal table, `floor(16384 / (2*n + 3))`. -/
def dtDefault (n : Nat) : Rate := BitVec.ofNat 13 (16384 / (2 * n + 3))

/-- `DT[n]` of a configuration, a ROM (R82, D6). -/
def dtEntry (c : Config) (n : Byte) : Rate := cellsGet dtDefault c.dtChanges n.toNat

/-! ### `SEED`, R83 -/

/-- The weight `w` of a bit history: its two most recent bits count double; an integer in `[3, 13]`. -/
def seedWeight (h : Byte) : Nat :=
  2 * (h.getLsbD 0).toNat + 2 * (h.getLsbD 1).toNat + (h.getLsbD 2).toNat + (h.getLsbD 3).toNat
    + (h.getLsbD 4).toNat + (h.getLsbD 5).toNat + (h.getLsbD 6).toNat + (h.getLsbD 7).toNat + 3

/-- The default seed estimate of context `i`: `w * 2^20` for the history part `i[7:0]`. -/
def seedEstimateDefault (i : Nat) : Estimate := BitVec.ofNat 24 (seedWeight (BitVec.ofNat 8 i) * 2 ^ 20)

/-- `SEED(i)` of a configuration (R83, D7); its count field is `SEED_COUNT` for every `i`. -/
def seedCell (c : Config) (i : Nat) : Word := packCell (cellsGet seedEstimateDefault c.seedChanges i) c.seedCount

/-- What an unlisted entry of `HIST` reads as: `HIST_INIT` (41_predictor.md R100, D8). -/
def histDefault (c : Config) (_ : Nat) : Byte := c.histInit

/-- What an unlisted byte of `BUF` reads as. The spec gives the buffer no contents before the host fills it; DESIGN
CHOICE 0, unsafe (log 7). -/
def bufDefault (_ : Nat) : Byte := 0

end Sys2Proof.Machine
end

