-- ==== Sys2Proof/Machine/Ops.lean ====
section
/-!
DEFINITION. The named operations on the state: the tables, the stream buffer, the registers a phase writes, and how a
command ends, with a failure (60_exceptions.md R183, R187) or without.
-/

namespace Sys2Proof.Machine

/-! ### The tables and the buffer -/

/-- `NCTX`, the number of cells of `PT` (00_scope.md R5). -/
def nctx : Nat := 65536

/-- `NPREFIX`, the number of entries of `HIST` (00_scope.md R5). -/
def nprefix : Nat := 256

/-- The number of byte indices a 32-bit cursor can name (00_scope.md R5, `CURW`). -/
def bufSpan : Nat := 4294967296

/-- `PT[ctx]` (10_state.md R26). -/
def State.ptGet (s : State) (ctx : Half) : Word := cellsGet (seedCell s.cfg) s.pt ctx.toNat

/-- `PT[ctx] <- c`. -/
def State.ptSet (s : State) (ctx : Half) (c : Word) : State :=
  { s with pt := cellsSet (seedCell s.cfg) s.pt ctx.toNat c }

/-- `HIST[k]` (10_state.md R27). -/
def State.histGet (s : State) (k : Byte) : Byte := cellsGet (histDefault s.cfg) s.hist k.toNat

/-- `HIST[k] <- h`. -/
def State.histSet (s : State) (k : Byte) (h : Byte) : State :=
  { s with hist := cellsSet (histDefault s.cfg) s.hist k.toNat h }

/-- `MemRead(BUF, a, 1)` (00_scope.md R6, 10_state.md R29). -/
def State.bufGet (s : State) (a : Word) : Byte := cellsGet bufDefault s.buf a.toNat

/-- `MemWrite(BUF, a, 1, v)`. -/
def State.bufSet (s : State) (a : Word) (v : Byte) : State :=
  { s with buf := cellsSet bufDefault s.buf a.toNat v }

/-- The canonical form of the stream buffer: indices rise, fit 32 bits, and no listed byte is 0. -/
def Memory.wf (m : List Host.Cell) : Bool := cellsWf bufDefault bufSpan 0 m

/-- The canonical form of `PT`: indices rise below 65536, and no listed cell is its seed. -/
def ptWf (c : Config) (t : List (Nat × Word)) : Bool := cellsWf (seedCell c) nctx 0 t

/-- The canonical form of `HIST`: indices rise below 256, and no listed entry is `HIST_INIT`. -/
def histWf (c : Config) (t : List (Nat × Byte)) : Bool := cellsWf (histDefault c) nprefix 0 t

/-! ### Registers -/

/-- What `EST.PREDICT` records: the queried context and the probability it returned (40_estimator.md R84). -/
def State.noteQuery (s : State) (ctx p : Half) : State := { s with lastctx := ctx, lastp := p }

/-- `PREFIX <- k`. -/
def State.setPfx (s : State) (k : Byte) : State := { s with pfx := k }

/-- `X1 <- v`. -/
def State.setX1 (s : State) (v : Word) : State := { s with x1 := v }

/-- `X2 <- v`. -/
def State.setX2 (s : State) (v : Word) : State := { s with x2 := v }

/-- `X <- v`. -/
def State.setX (s : State) (v : Word) : State := { s with x := v }

/-- `POS <- POS + 1`; only ever done when `POS < LIMIT`, so it does not wrap (00_scope.md R8 (j)). -/
def State.advance (s : State) : State := { s with pos := s.pos + 1 }

/-- `MODE <- m`. -/
def State.setMode (s : State) (m : Mode) : State := { s with mode := m }

/-- What `INIT_ENC` and `INIT_DEC` do alike (42_coder.md R130, R131): latch `LEN`, rewind the cursor, open the full
interval, and give every register, table entry and flag its initial value. -/
def State.startPass (s : State) (m : Mode) : State :=
  { s with
    limit := s.len, pos := 0
    x1 := 0x00000000, x2 := 0xFFFFFFFF, x := 0
    pfx := 0, lastctx := 0, lastp := 0
    hist := [], pt := []
    ovf := false, mode := m }

/-! ### How a command ends -/

/-- `return (code, bit)`: the response of the command, stored in `RESP` (10_state.md R21, R22). -/
def State.respond (s : State) (c : Code) (b : Bool) : State := { s with resp := ⟨c, b⟩ }

/-- `raise Overflow()`, the engine's one abnormal exit (60_exceptions.md R183): `OVF <- 1` and the response
`(E_OVERFLOW, 0)`; every change made before it is kept, and nothing else changes: no mode switch, nothing saved, no
transfer of control (R187). There is no return from it (R188). -/
def State.raiseOverflow (s : State) : State := { s with ovf := true, resp := ⟨.eOverflow, false⟩ }

/-- How a phase that may emit ends: normally, or by `raise Overflow()` with the state that leaves. -/
inductive Emission where
  /-- The phase completed. -/
  | completed (s : State)
  /-- `raise Overflow()` ended the command. -/
  | overflowed (s : State)
deriving DecidableEq, Repr

/-- Power-on reset arriving at the engine (10_state.md R32): every register, flag and table as in `State.reset`. The
stream buffer is the host's and the parameters are the machine's: both stay, as do the model's own fields (log 10). -/
def State.powerOn (s : State) : State :=
  { State.reset with buf := s.buf, cfg := s.cfg, pending := s.pending, rdata := s.rdata, draws := s.draws }

end Sys2Proof.Machine
end

