-- ==== Sys2Proof/Machine/Operands.lean ====
section
/-!
DEFINITION. Where operands come from: the slices and shifts of the interval words (00_scope.md R6, R8), and the
context, the one effective address of the engine (41_predictor.md R101).
-/

namespace Sys2Proof.Machine

/-- `v[31:24]`, the top byte of a word. -/
def topByte (v : Word) : Byte := v.extractLsb' 24 8

/-- `u32(v << 8)`: the top byte is discarded, the low byte is 0 (00_scope.md R8 (d)). -/
def shiftZero (v : Word) : Word := v <<< 8

/-- `u32(v << 8) OR b`: the top byte is discarded, `b` enters at the bottom (00_scope.md R8 (d), 20_memory.md R40). -/
def shiftByte (v : Word) (b : Byte) : Word := v <<< 8 ||| b.setWidth 32

/-- `PREFIX || HIST[PREFIX]`: the prefix is the high byte (R101). -/
def contextOf (k h : Byte) : Half := k.setWidth 16 <<< 8 ||| h.setWidth 16

/-- The context of the current state (R101). -/
def State.context (s : State) : Half := contextOf s.pfx (s.histGet s.pfx)

end Sys2Proof.Machine
end

