-- ==== Sys2Proof/Machine/Flags.lean ====
section
/-!
DEFINITION. The flags and what reads them: `STATUS` and `RESP` as words (10_state.md R22, R23), and the admission
checks, which are the only readers of `MODE` and `OVF` (60_exceptions.md R182, R184, R186).
-/

namespace Sys2Proof.Machine

/-- The 2-bit value of `MODE` (10_state.md R17). -/
def modeBits : Mode → BitVec 2
  | .idle => 0
  | .enc => 1
  | .dec => 2
  | .done => 3

/-- The 4-bit value of a status code (60_exceptions.md R180). -/
def codeBits : Code → BitVec 4
  | .ok => 0
  | .eOverflow => 1
  | .eIllegal => 2
  | .eMode => 3

/-- `RESP` as the host reads it: `CODE` in [3:0], `BIT` in [4], the rest 0 (30_encoding.md R63). -/
def respWord (r : Resp) : Word := (BitVec.ofBool r.bit ++ codeBits r.code).setWidth 32

/-- `STATUS` as the host reads it: `MODE` in [1:0], `OVF` in [2], the rest 0 (10_state.md R23). -/
def statusWord (m : Mode) (ovf : Bool) : Word := (BitVec.ofBool ovf ++ modeBits m).setWidth 32

/-- Admission of `ENCODE_BIT` and `FLUSH`: the code of the refusal, `none` where the command executes. `MODE` is tested
before `OVF` (60_exceptions.md R186). -/
def State.encodeRefusal (s : State) : Option Code :=
  if s.mode ≠ .enc then some .eMode else if s.ovf then some .eOverflow else none

/-- Admission of `DECODE_BIT` (60_exceptions.md R182). -/
def State.decodeRefusal (s : State) : Option Code :=
  if s.mode ≠ .dec then some .eMode else none

end Sys2Proof.Machine
end

