-- ==== Sys2Proof/Machine/Estimator.lean ====
section
/-!
DEFINITION. The Probability Estimator (40_estimator.md): `EST.PREDICT` and `EST.UPDATE`.
-/

namespace Sys2Proof.Machine

/-- `EST.PREDICT(ctx) -> p` (R84). -/
def State.estPredict (s : State) (ctx : Half) : Half × State :=
  let p := cellProb (s.ptGet ctx)
  (p, s.noteQuery ctx p)

/-- `delta` of R85: the signed product of the distance to the target and the rate, an exact integer. -/
def updateDelta (bit : Bool) (slice : BitVec 18) (rate : Rate) : Int :=
  ((bit.toNat : Int) * 2 ^ 18 - (slice.toNat : Int)) * (rate.toNat : Int)

/-- `step` of R85: `u32(delta) AND 0xFFFFFF00`. -/
def updateStep (delta : Int) : Word := BitVec.ofInt 32 delta &&& 0xFFFFFF00

/-- `c1` of R85: the cell with its count incremented while it is below the limit. -/
def countUp (limit : Byte) (c : Word) : Word := if cellCount c < limit then c + 1 else c

/-- The cell that `EST.UPDATE(bit, limit)` writes for the cell `c` (R85): rate and slice are taken from the cell as it
was before the count increment. -/
def updateCell (cfg : Config) (bit : Bool) (limit : Byte) (c : Word) : Word :=
  countUp limit c + updateStep (updateDelta bit (cellSlice c) (dtEntry cfg (cellCount c)))

/-- `EST.UPDATE(bit, limit)` (R85): it acts on the last-queried context. -/
def State.estUpdate (s : State) (bit : Bool) (limit : Byte) : State :=
  s.ptSet s.lastctx (updateCell s.cfg bit limit (s.ptGet s.lastctx))

end Sys2Proof.Machine
end

