-- ==== Sys2Proof/Machine/Predictor.lean ====
section
/-!
DEFINITION. The Bit Predictor (41_predictor.md): `PRED.PREDICT` and `PRED.UPDATE`.
-/

namespace Sys2Proof.Machine

/-- The bit-history rotate rule (R104): `(2 * h + bit) mod 256`. -/
def historyNext (h : Byte) (bit : Bool) : Byte := BitVec.ofNat 8 (2 * h.toNat + bit.toNat)

/-- The prefix advance rule (R105): `2 * prefix + bit`, wrapped to 0 once it would reach 256. -/
def prefixNext (k : Byte) (bit : Bool) : Byte :=
  if 256 ≤ 2 * k.toNat + bit.toNat then 0 else BitVec.ofNat 8 (2 * k.toNat + bit.toNat)

/-- `PRED.PREDICT() -> p` (R102). -/
def State.predPredict (s : State) : Half × State := s.estPredict s.context

/-- `PRED.UPDATE(bit)` (R103): estimator, then the history of the current prefix, then the prefix. -/
def State.predUpdate (s : State) (bit : Bool) : State :=
  let u := s.estUpdate bit s.cfg.adaptLimit
  (u.histSet u.pfx (historyNext (u.histGet u.pfx) bit)).setPfx (prefixNext u.pfx bit)

end Sys2Proof.Machine
end

