-- ==== Sys2Proof/Machine/Coder.lean ====
section
/-!
DEFINITION. The building blocks of the Arithmetic Coder (42_coder.md R120 to R127): `MID`, `NARROW`, `EMIT`,
`NEXTBYTE`, `RENORM_ENC`, `RENORM_DEC`.
-/

namespace Sys2Proof.Machine

/-- `MID(x1, x2, p)` (R121), the two-term form. The spec gives it for `x1 <= x2`; outside that, which no command
sequence reaches, the difference is taken modulo `2^32` (log 9). -/
def midpoint (x1 x2 : Word) (p : Half) : Word :=
  let r := (x2 - x1).toNat
  BitVec.ofNat 32 (x1.toNat + (r >>> 16) * p.toNat + (((r % 65536) * p.toNat) >>> 16))

/-- The midpoint of the current interval for the probability the predictor gives in this state. -/
def State.split (s : State) : Word := midpoint s.x1 s.x2 s.predPredict.1

/-- `NARROW(bit, mid)` (R122). -/
def State.narrow (s : State) (bit : Bool) (mid : Word) : State :=
  if bit then s.setX2 mid else s.setX1 (mid + 1)

/-- `EMIT(v)` (R123): the capacity check comes before the write. -/
def State.emit (s : State) (v : Byte) : Emission :=
  if s.limit ≤ s.pos then .overflowed s.raiseOverflow else .completed (s.bufSet s.pos v).advance

/-- `NEXTBYTE() -> v` (R124): past the end of the input it gives 0 and makes no access. -/
def State.nextByte (s : State) : Byte × State :=
  if s.pos < s.limit then (s.bufGet s.pos, s.advance) else (0, s)

/-- The shift of both bounds in a renormalization step (R125, R126): `X1`'s low byte becomes 0, `X2`'s all ones. -/
def State.shiftBounds (s : State) : State := (s.setX1 (shiftZero s.x1)).setX2 (shiftByte s.x2 0xFF)

/-- `X <- u32(X << 8) OR NEXTBYTE()` (R126, R131). -/
def State.shiftNeedle (s : State) : State :=
  let (v, t) := s.nextByte
  t.setX (shiftByte t.x v)

/-- `RENORM_ENC()` (R125), at most `n` rounds. A round that overflows ends the loop before its shift. -/
def State.renormEnc : Nat → State → Emission
  | 0, s => .completed s
  | n + 1, s =>
    if topByte s.x1 = topByte s.x2 then
      match s.emit (topByte s.x2) with
      | .completed t => State.renormEnc n t.shiftBounds
      | .overflowed t => .overflowed t
    else .completed s

/-- `RENORM_DEC()` (R126), at most `n` rounds. -/
def State.renormDec : Nat → State → State
  | 0, s => s
  | n + 1, s =>
    if topByte s.x1 = topByte s.x2 then State.renormDec n s.shiftBounds.shiftNeedle else s

/-- The most rounds either loop can run: after 4 the bounds are `0x00000000` and `0xFFFFFFFF`, whose top bytes differ,
whatever they were (R127). -/
def maxRounds : Nat := 4

/-- The phases every coded bit goes through before renormalization, in this order (R135): query the probability,
narrow, update the model. -/
def State.codeBit (s : State) (bit : Bool) : State :=
  let (p, t) := s.predPredict
  (t.narrow bit (midpoint t.x1 t.x2 p)).predUpdate bit

end Sys2Proof.Machine
end

