-- ==== Sys2Proof/Machine/InitCommands.lean ====
section
/-!
DEFINITION. The commands that start a pass: `INIT_ENC` and `INIT_DEC` (42_coder.md R130, R131).
-/

namespace Sys2Proof.Machine

/-- `INIT_ENC` (R130): admitted in every `MODE` and with either value of `OVF`; it cannot fail. -/
def execInitEnc (s : State) : Host.Outcome State Fault Refusal :=
  .next ((s.startPass .enc).respond .ok false)

/-- The preload of the needle (R131): four bytes, the first most significant, missing ones 0. -/
def State.preload (s : State) : State := s.shiftNeedle.shiftNeedle.shiftNeedle.shiftNeedle

/-- `INIT_DEC` (R131): as `INIT_ENC`, in decompress mode, then the preload. -/
def execInitDec (s : State) : Host.Outcome State Fault Refusal :=
  .next ((s.startPass .dec).preload.respond .ok false)

end Sys2Proof.Machine
end

