-- ==== Sys2Proof/Machine/CodeCommands.lean ====
section
/-!
DEFINITION. The commands that code one bit or end a compress pass: `ENCODE_BIT`, `DECODE_BIT`, `FLUSH`
(42_coder.md R132 to R134).
-/

namespace Sys2Proof.Machine

/-- The end of a command that may have overflowed: `return (OK, 0)`, or what `raise Overflow()` left. -/
def Emission.close : Emission → State
  | .completed s => s.respond .ok false
  | .overflowed s => s

/-- `ENCODE_BIT b` (R132). -/
def execEncodeBit (b : Bool) (s : State) : Host.Outcome State Fault Refusal :=
  match s.encodeRefusal with
  | some c => .next (s.respond c false)
  | none => .next (State.renormEnc maxRounds (s.codeBit b)).close

/-- The bit `DECODE_BIT` decodes: 1 when `X <= mid`, unsigned (R133). -/
def State.decodedBit (s : State) : Bool := decide (s.x ≤ s.split)

/-- `DECODE_BIT` (R133): once admitted it never fails. -/
def execDecodeBit (s : State) : Host.Outcome State Fault Refusal :=
  match s.decodeRefusal with
  | some c => .next (s.respond c false)
  | none => .next ((State.renormDec maxRounds (s.codeBit s.decodedBit)).respond .ok s.decodedBit)

/-- The last byte of a stream (R134): `EMIT(X2[31:24])`, then `MODE <- DONE`. -/
def State.emitLast (s : State) : Emission :=
  match s.emit (topByte s.x2) with
  | .completed t => .completed (t.setMode .done)
  | .overflowed t => .overflowed t

/-- `FLUSH` (R134). -/
def execFlush (s : State) : Host.Outcome State Fault Refusal :=
  match s.encodeRefusal with
  | some c => .next (s.respond c false)
  | none =>
    match State.renormEnc maxRounds s with
    | .completed t => .next t.emitLast.close
    | .overflowed t => .next t

end Sys2Proof.Machine
end

