-- ==== Sys2Proof/Machine/Dispatch.lean ====
section
/-!
DEFINITION. One arm per command: each calls its meaning.
-/

namespace Sys2Proof.Machine

/-- The meaning of a command (42_coder.md R130 to R134). -/
def exec (i : Instr) (s : State) : Host.Outcome State Fault Refusal :=
  match i with
  | .initEnc => Sys2Proof.Machine.execInitEnc s
  | .initDec => Sys2Proof.Machine.execInitDec s
  | .encodeBit b => Sys2Proof.Machine.execEncodeBit b s
  | .decodeBit => Sys2Proof.Machine.execDecodeBit s
  | .flush => Sys2Proof.Machine.execFlush s

end Sys2Proof.Machine
end

