-- ==== Sys2Proof/Machine/RegBlock.lean ====
section
/-!
DEFINITION. The host's accesses: the register block (10_state.md R20 to R25), command words among its writes (R21,
30_encoding.md R64), stores into the stream buffer (70_reset_and_hazards.md R212, R215), power-on reset (R32).
-/

namespace Sys2Proof.Machine

/-- The registers of the block (R20). -/
inductive Reg where
  /-- 0x00, write-only. -/
  | cmd
  /-- 0x04. -/
  | resp
  /-- 0x08. -/
  | status
  /-- 0x0C, the only register the host can write besides `CMD`. -/
  | len
  /-- 0x10, view. -/
  | pos
  /-- 0x14, view. -/
  | x1
  /-- 0x18, view. -/
  | x2
  /-- 0x1C, view. -/
  | x
  /-- 0x20, view. -/
  | pfx
  /-- 0x24, view. -/
  | lastctx
  /-- 0x28, view. -/
  | lastp
deriving DecidableEq, Repr

/-- The byte offset of a register (R20). -/
def regOffset : Reg → Nat
  | .cmd => 0x00
  | .resp => 0x04
  | .status => 0x08
  | .len => 0x0C
  | .pos => 0x10
  | .x1 => 0x14
  | .x2 => 0x18
  | .x => 0x1C
  | .pfx => 0x20
  | .lastctx => 0x24
  | .lastp => 0x28

/-- The register at an offset; `none` for every unlisted offset (R20). -/
def regAt : Nat → Option Reg
  | 0x00 => some .cmd
  | 0x04 => some .resp
  | 0x08 => some .status
  | 0x0C => some .len
  | 0x10 => some .pos
  | 0x14 => some .x1
  | 0x18 => some .x2
  | 0x1C => some .x
  | 0x20 => some .pfx
  | 0x24 => some .lastctx
  | 0x28 => some .lastp
  | _ => none

/-- A read-only view of a working register of width `w`, zero-extended (R25). While `MODE = IDLE` its value is
unspecified, drawn at each read (U1): a free value of the view's width. -/
def State.viewOf {w : Nat} (s : State) (v : BitVec w) : Word :=
  if s.mode = .idle then ((Config.freeWord s.draws).setWidth w).setWidth 32 else v.setWidth 32

/-- Whether a register is one of the views of R25. -/
def isView : Reg → Bool
  | .cmd => false
  | .resp => false
  | .status => false
  | .len => false
  | .pos => true
  | .x1 => true
  | .x2 => true
  | .x => true
  | .pfx => true
  | .lastctx => true
  | .lastp => true

/-- The word a read of a register returns (R21 to R25). -/
def State.regWord (s : State) : Reg → Word
  | .cmd => 0
  | .resp => respWord s.resp
  | .status => statusWord s.mode s.ovf
  | .len => s.len
  | .pos => s.viewOf s.pos
  | .x1 => s.viewOf s.x1
  | .x2 => s.viewOf s.x2
  | .x => s.viewOf s.x
  | .pfx => s.viewOf s.pfx
  | .lastctx => s.viewOf s.lastctx
  | .lastp => s.viewOf s.lastp

/-- Whether reading a register draws a free value. -/
def State.drawsOn (s : State) (r : Reg) : Bool := isView r && decide (s.mode = .idle)

/-- The word a host read returns reaches the host; a free value, once drawn, is not drawn again. -/
def State.answer (s : State) (v : Word) (drew : Bool) : State :=
  { s with rdata := v, draws := if drew then s.draws + 1 else s.draws }

/-- A host read at an offset: unlisted offsets read 0; no register changes (R20, R22 to R25). -/
def State.hostRead (s : State) (offset : Nat) : State :=
  match regAt offset with
  | none => s.answer 0 false
  | some r => s.answer (s.regWord r) (s.drawsOn r)

/-- An illegal command word (30_encoding.md R64, 60_exceptions.md R181): only `RESP` changes. -/
def State.illegalCommand (s : State) : State := s.respond .eIllegal false

/-- A write of `CMD` runs the command of its low 8 bits to completion (R21). -/
def runCommand (v : Word) (s : State) : Host.Outcome State Fault Refusal :=
  match commandOf v with
  | .ok i => exec i s
  | .error _ => .next s.illegalCommand

/-- A write of `LEN`: all 32 bits, every value legal; nothing else changes (R24). -/
def State.setLen (s : State) (n : Word) : State := { s with len := n }

/-- The list of accesses still to arrive becomes `rest`. -/
def State.setPending (s : State) (rest : List HostAccess) : State := { s with pending := rest }

/-- A host write of a register: `CMD` runs a command, `LEN` takes the value, a read-only register ignores it (R20). -/
def regWrite (v : Word) (s : State) : Reg → Host.Outcome State Fault Refusal
  | .cmd => runCommand v s
  | .len => .next (s.setLen v)
  | .resp => .next s
  | .status => .next s
  | .pos => .next s
  | .x1 => .next s
  | .x2 => .next s
  | .x => .next s
  | .pfx => .next s
  | .lastctx => .next s
  | .lastp => .next s

/-- A host write at an offset; unlisted offsets ignore it (R20). -/
def hostWrite (offset : Nat) (v : Word) (s : State) : Host.Outcome State Fault Refusal :=
  match regAt offset with
  | none => .next s
  | some r => regWrite v s r

/-- The host reads a byte of its own buffer (43_host_sequences.md R166): nothing of the engine changes
(20_memory.md R44: "reads have no side effects"). -/
def State.hostLoad (s : State) (index : Word) : State := s.answer ((s.bufGet index).setWidth 32) false

/-- The command an access issues: a write of a legal command word to `CMD`. -/
def commandIn : HostAccess → Option Instr
  | .write 0 v =>
    match commandOf v with
    | .ok i => some i
    | .error _ => none
  | _ => none

/-- An access that gives the registers their initial values: `INIT_ENC`, `INIT_DEC` or power-on reset. -/
def restarts (a : HostAccess) : Bool :=
  decide (a = .powerOn) || decide (commandIn a = some .initEnc) || decide (commandIn a = some .initDec)

/-- An access that issues a command, legal or not: a write of `CMD` (30_encoding.md R63). -/
def issuesCommand : HostAccess → Bool
  | .write 0 _ => true
  | _ => false

/-- No command of the pass in progress is still to arrive: the next one is an `INIT_*`, which ends the pass (00_scope.md
section 6, "Pass"), or power-on reset comes first. What the host does before it prepares the next pass (R212). With no
command to come nothing says that the pass is over (log 6). -/
def passOver : List HostAccess → Bool
  | [] => false
  | a :: rest => restarts a || (!issuesCommand a && passOver rest)

/-- The bytes of `BUF` that belong to a pass (70_reset_and_hazards.md R215): the input of a decompress pass, the bytes a
compress pass has written, after a failure or a `FLUSH` as before it; none while no pass was started. -/
def State.owns (s : State) (index : Word) : Bool :=
  match s.mode with
  | .idle => false
  | .enc => decide (index < s.pos)
  | .dec => decide (index < s.limit)
  | .done => decide (index < s.pos)

/-- A store of the host into `BUF` (R212). Into bytes that the pass in progress owns there is no move (R215, log 6). -/
def State.hostStore (s : State) (index : Word) (v : Byte) : Host.Outcome State Fault Refusal :=
  if s.owns index && !passOver s.pending then .refused .bufferInPass else .next (s.bufSet index v)

/-- One access of the host; those that follow it are already `pending` in `s`. -/
def hostAccess (a : HostAccess) (s : State) : Host.Outcome State Fault Refusal :=
  match a with
  | .write offset v => hostWrite offset v s
  | .read offset => .next (s.hostRead offset)
  | .store index v => s.hostStore index v
  | .load index => .next (s.hostLoad index)
  | .powerOn => .next s.powerOn

/-- The engine takes the next pending access; with none it waits (10_state.md R33: "the engine waits for the next
command"). -/
def nextAccess (s : State) : Host.Outcome State Fault Refusal :=
  match s.pending with
  | [] => .next s
  | a :: rest => hostAccess a (s.setPending rest)

/-- The state with a write of `v` to `CMD` as the next access to arrive. -/
def State.issueNext (s : State) (v : Word) : State := s.setPending (.write 0x00 v :: s.pending)

end Sys2Proof.Machine
end

