-- ==== Sys2Proof/Machine/Step.lean ====
section
/-!
DEFINITION. One step: the next pending access of the host, run to completion (00_scope.md R7, log 5).
-/

namespace Sys2Proof.Machine

/-- One step of the machine. -/
def step (s : State) : Host.Outcome State Fault Refusal := nextAccess s

/-- `s` with the command word of an instruction written to `CMD` as the next access (log 5). -/
def State.withFetchWord (s : State) (nbits w : Nat) : State := s.issueNext (tableWord nbits w)

end Sys2Proof.Machine
end

