-- ==== Sys2Proof/Machine/Sequences.lean ====
section
/-!
DEFINITION. The host's sequences of commands (43_host_sequences.md R160 to R165, 30_encoding.md R66, R67). The engine
knows nothing of them; they are normative for the stream format (00_scope.md R4).
-/

namespace Sys2Proof.Machine

/-! ### Command scripts (R66) -/

/-- One item of a command script: a command, or the register directive `SET_LEN n`. -/
inductive ScriptItem where
  /-- A command. -/
  | command (i : Instr)
  /-- `SET_LEN n`. -/
  | setLen (n : Word)
deriving DecidableEq, Repr

/-- What an item assembles to: a command to its one command word, `SET_LEN` to none (R66). -/
def itemWord : ScriptItem → Option Byte
  | .command i => some (encode i)
  | .setLen _ => none

/-- What an item means: a command is "write that word to `CMD`, then read `RESP`", `SET_LEN n` is "write the 32-bit value
`n` to `LEN`" (R66). -/
def itemAccesses : ScriptItem → List HostAccess
  | .command i => [.write 0x00 (commandWord i), .read 0x04]
  | .setLen n => [.write 0x0C n]

/-- The accesses of a script, in order. -/
def scriptAccesses (items : List ScriptItem) : List HostAccess := items.flatMap itemAccesses

/-- The state after an access. No sequence of this file makes an access that is refused. -/
def runAccess (a : HostAccess) (s : State) : State :=
  match hostAccess a s with
  | .next t => t
  | .fault _ => s
  | .refused _ => s

/-- The state after accesses made in order. -/
def runAccesses (as : List HostAccess) (s : State) : State := as.foldl (fun t a => runAccess a t) s

/-- Issue one command and read its response (R66). -/
def issue (i : Instr) (s : State) : State := runAccesses (itemAccesses (.command i)) s

/-- `SET_LEN n` (R66). -/
def issueSetLen (n : Word) (s : State) : State := runAccesses (itemAccesses (.setLen n)) s

/-- Whether the response the host has read has a given `CODE` (10_state.md R22). -/
def State.gotCode (s : State) (c : Code) : Bool := decide (s.rdata.extractLsb' 0 4 = codeBits c)

/-- `BIT` of the response the host has read. -/
def State.gotBit (s : State) : Bool := s.rdata.getLsbD 4

/-! ### Encoding -/

/-- The data bits of a byte, most significant first (R160). -/
def byteBits (v : Byte) : List Bool :=
  [v.getLsbD 7, v.getLsbD 6, v.getLsbD 5, v.getLsbD 4, v.getLsbD 3, v.getLsbD 2, v.getLsbD 1, v.getLsbD 0]

/-- The bits of one encoded byte: the continuation bit 1, then the data bits (R160). -/
def symbolBits (v : Byte) : List Bool := true :: byteBits v

/-- `ENCODE_BYTE v` as commands (R160). -/
def encodeByteCommands (v : Byte) : List Instr := (symbolBits v).map .encodeBit

/-- `ENCODE_EOF` as commands (R161). -/
def encodeEofCommands : List Instr := [.encodeBit false, .flush]

/-- The commands of `COMPRESS` after `SET_LEN` (R163). -/
def compressCommands (data : List Byte) : List Instr :=
  .initEnc :: (data.flatMap encodeByteCommands ++ encodeEofCommands)

/-- `COMPRESS data, cap` as a script while nothing fails (R163). -/
def compressScript (data : List Byte) (cap : Word) : List ScriptItem :=
  .setLen cap :: (compressCommands data).map .command

/-- The host's accesses for it, the last of which reads `POS` (R163). -/
def compressAccesses (data : List Byte) (cap : Word) : List HostAccess :=
  scriptAccesses (compressScript data cap) ++ [.read 0x10]

/-- Issue commands in order and stop at the first response other than `OK` (R160, R161). The response then read
is the sequence's result. -/
def issueAll : List Instr → State → State
  | [], s => s
  | i :: is, s => if (issue i s).gotCode .ok then issueAll is (issue i s) else issue i s

/-- The result of a driver (R165): a byte count, or the overflow sentinel `cap + 1` (a natural number: the host's
representation of it is its own matter, U6). A command refused for another reason ends the driver with the response word. -/
inductive DriverResult where
  /-- The byte count. -/
  | count (n : Nat)
  /-- The overflow sentinel. -/
  | sentinel (n : Nat)
  /-- Another response: no driver of R163 or R164 meets it. -/
  | stopped (response : Word)
deriving DecidableEq, Repr

/-- `COMPRESS data, cap` (R163): the result and the state after the last access made. -/
def compress (data : List Byte) (cap : Word) (s : State) : DriverResult × State :=
  let t := issueAll (compressCommands data) (issueSetLen cap s)
  if t.gotCode .ok then
    let u := runAccess (.read 0x10) t
    (.count u.rdata.toNat, u)
  else if t.gotCode .eOverflow then (.sentinel (cap.toNat + 1), t)
  else (.stopped t.rdata, t)

/-! ### Decoding -/

/-- Issue `DECODE_BIT` and take the bit of its response (10_state.md R22). -/
def takeBit (s : State) : Bool × State := ((issue .decodeBit s).gotBit, issue .decodeBit s)

/-- `n` more data bits into the accumulator: `acc <- 2 * acc + bit` (R162). -/
def takeBits : Nat → Nat → State → Nat × State
  | 0, acc, s => (acc, s)
  | n + 1, acc, s => takeBits n (2 * acc + (takeBit s).1.toNat) (takeBit s).2

/-- `DECODE_SYMBOL` (R162): `none` is the end of the stream. The accumulator starts at 1, takes 8 bits, and the byte is
its low 8 bits. -/
def decodeSymbol (s : State) : Option Byte × State :=
  let c := takeBit s
  if c.1 then
    let a := takeBits 8 1 c.2
    (some (BitVec.ofNat 8 a.1), a.2)
  else (none, c.2)

/-- The loop of `DECOMPRESS` with room for `room` more bytes (R164): the check of the capacity comes after the byte is
assembled. The result says whether the end symbol was met, and gives the bytes written in order. -/
def decodeLoop : Nat → State → Bool × List Byte × State
  | 0, s =>
    match decodeSymbol s with
    | (none, t) => (true, [], t)
    | (some _, t) => (false, [], t)
  | room + 1, s =>
    match decodeSymbol s with
    | (none, t) => (true, [], t)
    | (some v, t) =>
      let r := decodeLoop room t
      (r.1, v :: r.2.1, r.2.2)

/-- `DECOMPRESS len, cap` (R164) with the stream already in `BUF`: the result, the bytes written to `OUT`, and the
state after the last access made. -/
def decompress (len : Word) (cap : Nat) (s : State) : DriverResult × List Byte × State :=
  let r := decodeLoop cap (issue .initDec (issueSetLen len s))
  (if r.1 then .count r.2.1.length else .sentinel (cap + 1), r.2.1, r.2.2)

end Sys2Proof.Machine
end

