-- ==== Sys2Proof/Safety.lean ====
section
/-!
DEFINITION. What claims are stated in: the invariants of the engine (42_coder.md R136, 40_estimator.md R86), the host's
duty (70_reset_and_hazards.md R215), the closed form of a renormalization (42_coder.md R125 to R127), and runs of
coded bits (R138).
-/

namespace Sys2Proof.Machine

/-! ### Invariants -/

/-- The tables and the buffer are in their canonical form. -/
def State.FormsOk (s : State) : Prop :=
  Memory.wf s.buf = true ∧ ptWf s.cfg s.pt = true ∧ histWf s.cfg s.hist = true

/-- A pass is open and has met no failure: the states R136 speaks of, and those after a successful `FLUSH`, which
leaves the interval as it is (R134). -/
def State.Coding (s : State) : Prop := (s.mode = .enc ∧ s.ovf = false) ∨ s.mode = .dec ∨ s.mode = .done

/-- The invariants of a pass. The cursor stays inside the buffer (10_state.md R15); `X1 <= X2` always (R120) and their top
bytes differ while no failure occurred (R136); an overflow is only met in compress mode with the buffer full
(10_state.md R18, 60_exceptions.md R180); `X` is 0 in a compress pass (10_state.md R12). -/
structure State.PassOk (s : State) : Prop where
  cursor : s.mode ≠ .idle → s.pos ≤ s.limit
  ordered : s.mode ≠ .idle → s.x1 ≤ s.x2
  apart : s.Coding → topByte s.x1 < topByte s.x2
  full : s.ovf = true → s.mode = .enc ∧ s.pos = s.limit
  needle : s.mode = .enc ∨ s.mode = .done → s.x = 0

/-- The count invariant (40_estimator.md R86): from the first `INIT_*` on, every observation count lies in
`[SEED_COUNT, ADAPT_LIMIT]`. -/
def State.CountsOk (s : State) : Prop :=
  s.mode ≠ .idle → ∀ ctx : Half, s.cfg.seedCount ≤ cellCount (s.ptGet ctx) ∧ cellCount (s.ptGet ctx) ≤ s.cfg.adaptLimit

/-! ### The host's duty -/

/-- The host's duty to the buffer, for its next access and those after it (20_memory.md R50, 70_reset_and_hazards.md
R215): no store into bytes that the pass in progress owns while commands of that pass are to come. -/
def State.KeepsDuty (s : State) (a : HostAccess) (rest : List HostAccess) : Prop :=
  ∀ (index : Word) (v : Byte), a = .store index v → s.owns index = true → passOver rest = true

/-! ### The closed form of a renormalization -/

/-- Byte `j` of a word, byte 0 the most significant (20_memory.md R40). -/
def wordByte (v : Word) (j : Nat) : Byte := (v >>> (24 - 8 * j)).setWidth 8

/-- How many leading bytes two words share: the rounds a renormalization runs (R127). -/
def sharedBytes (v w : Word) : Nat :=
  if wordByte v 0 ≠ wordByte w 0 then 0
  else if wordByte v 1 ≠ wordByte w 1 then 1
  else if wordByte v 2 ≠ wordByte w 2 then 2
  else if wordByte v 3 ≠ wordByte w 3 then 3
  else 4

/-- `X1` after `k` rounds: `k` zero bytes enter at the bottom. -/
def lowShifted (v : Word) (k : Nat) : Word := v <<< (8 * k)

/-- `X2` after `k` rounds: `k` bytes of ones enter at the bottom. -/
def highShifted (v : Word) (k : Nat) : Word := v <<< (8 * k) ||| BitVec.ofNat 32 (2 ^ (8 * k) - 1)

/-- How many bytes fit in the buffer from the cursor on. -/
def State.room (s : State) : Nat := s.limit.toNat - s.pos.toNat

/-- `t` is `s` with `k` bytes emitted, the leading bytes of `s.x2`, and both bounds shifted `k` times; `buf` is its
buffer. -/
def State.emitted (s : State) (k : Nat) (buf : List Host.Cell) : State :=
  { s with
    x1 := lowShifted s.x1 k, x2 := highShifted s.x2 k
    pos := s.pos + BitVec.ofNat 32 k, buf := buf }

/-- `buf` holds the first `k` bytes of `v` from index `start` on, and every other byte of it reads as in `old`. -/
def StoresBytes (old buf : List Host.Cell) (start : Word) (v : Word) (k : Nat) : Prop :=
  (∀ j, j < k → cellsGet bufDefault buf (start.toNat + j) = wordByte v j) ∧
  ∀ a, (a < start.toNat ∨ start.toNat + k ≤ a) → cellsGet bufDefault buf a = cellsGet bufDefault old a

/-- Byte `j` past the cursor as `NEXTBYTE` gives it: 0 at and past `LIMIT` (R124). -/
def State.inputByte (s : State) (j : Nat) : Byte :=
  if s.pos.toNat + j < s.limit.toNat then cellsGet bufDefault s.buf (s.pos.toNat + j) else 0

/-- The needle after `k` more bytes were consumed (20_memory.md R40). -/
def State.needleAfter (s : State) : Nat → Word
  | 0 => s.x
  | k + 1 => shiftByte (s.needleAfter k) (s.inputByte k)

/-- The needle of a decoder whose next four bytes are those from index `start` on of a stream of `len` bytes, as `NEXTBYTE`
gives them (R124). -/
def State.needleFrom (s : State) (start len : Word) : Word := ({ s with pos := start, limit := len }).preload.x

/-- The state after `k` rounds of `RENORM_DEC`. -/
def State.consumed (s : State) (k : Nat) : State :=
  { s with
    x1 := lowShifted s.x1 k, x2 := highShifted s.x2 k, x := s.needleAfter k
    pos := s.pos + BitVec.ofNat 32 (min k s.room) }

/-! ### Runs of coded bits -/

/-- Encode bits in order while every response is `OK` (R138); `none` when one is not. -/
def encodeBits : List Bool → State → Option State
  | [], s => some s
  | b :: bs, s =>
    match exec (.encodeBit b) s with
    | .next t => if t.resp.code = .ok then encodeBits bs t else none
    | .fault _ => none
    | .refused _ => none

/-- Decode `n` bits in order while every response is `OK`. -/
def decodeBits : Nat → State → Option (List Bool × State)
  | 0, s => some ([], s)
  | n + 1, s =>
    match exec .decodeBit s with
    | .next t =>
      if t.resp.code = .ok then
        match decodeBits n t with
        | some (bs, u) => some (t.resp.bit :: bs, u)
        | none => none
      else none
    | .fault _ => none
    | .refused _ => none

/-- Two states have learned the same: parameters, tables and prefix read alike (R138, R139). -/
structure SameModel (s t : State) : Prop where
  cfg : s.cfg = t.cfg
  pt : ∀ ctx : Half, s.ptGet ctx = t.ptGet ctx
  hist : ∀ k : Byte, s.histGet k = t.histGet k
  pfx : s.pfx = t.pfx

/-- The first `n` bytes of the buffers of two states are the same. -/
def SameBytes (s t : State) (n : Nat) : Prop :=
  ∀ a, a < n → cellsGet bufDefault s.buf a = cellsGet bufDefault t.buf a

end Sys2Proof.Machine
end

