-- ==== Sys2Proof/Certificates/Slice0/Obligations.lean ====
section
/-!
DEFINITION. The statements for the provers. Each docstring names the rule of spec/ it formalises. In a statement about a
next state, `exec i s = .next t` says that the command completes with `t`.
-/

open Sys2Proof Sys2Proof.Machine

/-! ### Power-on reset -/

/-- 10_state.md R32: the four values power-on reset gives, and what the host reads of them (R22 to R24). -/
def Obligations.ResetFlagsAndHostRegisters : Prop :=
  State.reset.mode = .idle ∧ State.reset.ovf = false ∧ State.reset.resp = ⟨.ok, false⟩ ∧ State.reset.len = 0 ∧
  State.reset.regWord .resp = 0 ∧ State.reset.regWord .status = 0 ∧ State.reset.regWord .len = 0

/-- 10_state.md R32, R210: power-on reset arriving at any state. The buffer is the host's and `DT` and the other
parameters are constants: both stay (log 10). -/
def Obligations.PowerOnAccessResetsTheEngine : Prop :=
  ∀ (s : State) (rest : List HostAccess), s.pending = .powerOn :: rest →
    ∃ t, step s = .next t ∧ t.mode = .idle ∧ t.ovf = false ∧ t.resp = ⟨.ok, false⟩ ∧ t.len = 0 ∧
      t.buf = s.buf ∧ t.cfg = s.cfg ∧ t.pending = rest

/-- 10_state.md R32: what power-on reset leaves unspecified is read by no command before an `INIT_*`, nor by any read of
a register (R25, U1). Two states in `IDLE` that differ in the unspecified parts alone cannot be told apart: `INIT_*`
leads to the same state, every other command is refused, and every register reads alike. -/
def Obligations.UnspecifiedStateIsNeverRead : Prop :=
  ∀ (s t : State), s.mode = .idle → t.mode = .idle → s.len = t.len → s.buf = t.buf → s.cfg = t.cfg →
    s.ovf = t.ovf → s.resp = t.resp → s.pending = t.pending → s.rdata = t.rdata → s.draws = t.draws →
    exec .initEnc s = exec .initEnc t ∧ exec .initDec s = exec .initDec t ∧
    (∀ i, i ≠ .initEnc → i ≠ .initDec →
      exec i s = .next (s.respond .eMode false) ∧ exec i t = .next (t.respond .eMode false)) ∧
    ∀ r, s.regWord r = t.regWord r

/-! ### Command words -/

/-- 30_encoding.md R62: encoding and decoding agree, both ways. -/
def Obligations.DecodeAndEncodeAgree : Prop :=
  (∀ i : Instr, i.wellFormed = true → decode (encode i) = .ok i) ∧ ∀ (w : Byte) (i : Instr), decode w = .ok i → w = encode i

/-- 30_encoding.md R62: "A command word selects a command if and only if `(word AND mask) = match`", row by row of the
opcode map; the operand of `ENCODE_BIT` is bit 0 (R61). -/
def Obligations.CommandWordsMatchTheirMasks : Prop :=
  ∀ w : Byte,
    (decode w = .ok .initEnc ↔ w &&& 0xFF = 0x10) ∧ (decode w = .ok .initDec ↔ w &&& 0xFF = 0x20) ∧
    (∀ b, decode w = .ok (.encodeBit b) ↔ w &&& 0xFE = 0x30 ∧ w.getLsbD 0 = b) ∧
    (decode w = .ok .decodeBit ↔ w &&& 0xFF = 0x40) ∧ (decode w = .ok .flush ↔ w &&& 0xFF = 0x50)

/-- 10_state.md R21: a write of `CMD` runs the command of its low 8 bits, whatever bits [31:8] are (30_encoding.md R64);
nothing is done around it but taking the access off the list. A step on a state prepared by `withFetchWord` runs exactly
that command. -/
def Obligations.StepRunsTheDecodedCommand : Prop :=
  (∀ (s : State) (v : Word) (rest : List HostAccess) (i : Instr),
    s.pending = .write 0x00 v :: rest → decode (v.setWidth 8) = .ok i → i.wellFormed = true →
      step s = exec i (s.setPending rest)) ∧
  ∀ (s : State) (i : Instr), step (s.withFetchWord 8 (encode i).toNat) = exec i s

/-- 60_exceptions.md R181: a write to `CMD` whose low 8 bits are none of the six legal words sets
`RESP <- (E_ILLEGAL, 0)` and changes nothing else of the engine or of `BUF`. -/
def Obligations.IllegalWordsChangeOnlyResp : Prop :=
  ∀ (s : State) (v : Word) (rest : List HostAccess), s.pending = .write 0x00 v :: rest →
    v.setWidth 8 ∉ [(0x10 : Byte), 0x20, 0x30, 0x31, 0x40, 0x50] →
    step s = .next { s.setPending rest with resp := ⟨.eIllegal, false⟩ }

/-! ### The register block -/

/-- 10_state.md R24 and 70_reset_and_hazards.md R214: `LEN` is 0 after reset; a write of it takes all 32 bits and
changes only `LEN`; a read
returns it; only `INIT_*` read it, and copy it to `LIMIT`; no other command's effect depends on it or changes it. -/
def Obligations.LenIsLatchedByInitAlone : Prop :=
  State.reset.len = 0 ∧
  (∀ (s : State) (n : Word) (rest : List HostAccess), s.pending = .write 0x0C n :: rest →
    step s = .next { s.setPending rest with len := n }) ∧
  (∀ (s : State) (rest : List HostAccess), s.pending = .read 0x0C :: rest →
    step s = .next { s.setPending rest with rdata := s.len }) ∧
  (∀ s : State, ∃ t u, exec .initEnc s = .next t ∧ exec .initDec s = .next u ∧ t.limit = s.len ∧ u.limit = s.len ∧
    t.len = s.len ∧ u.len = s.len) ∧
  ∀ (i : Instr) (s : State) (n : Word), i ≠ .initEnc → i ≠ .initDec →
    ∃ t, exec i s = .next t ∧ exec i (s.setLen n) = .next (t.setLen n) ∧ t.limit = s.limit ∧ t.len = s.len

/-- 10_state.md R20: a write at any offset but those of `CMD` and `LEN` is ignored; a read at an unlisted offset, or of
`CMD` (R21), returns 0 and changes nothing. The host's accesses to its buffer (70_reset_and_hazards.md R212,
43_host_sequences.md R166): a store that keeps the host's duty (R215) writes exactly the byte at its index, a load returns
that byte and changes nothing of the engine or of `BUF` (20_memory.md R44). -/
def Obligations.BufferAccessesAndOtherOffsets : Prop :=
  (∀ (s : State) (off : Nat) (v : Word) (rest : List HostAccess), s.pending = .write off v :: rest →
    off ≠ 0x00 → off ≠ 0x0C → step s = .next (s.setPending rest)) ∧
  (∀ (s : State) (off : Nat) (rest : List HostAccess), s.pending = .read off :: rest →
    (off = 0x00 ∨ off ∉ [0x00, 0x04, 0x08, 0x0C, 0x10, 0x14, 0x18, 0x1C, 0x20, 0x24, 0x28]) →
    step s = .next { s.setPending rest with rdata := 0 }) ∧
  (∀ (s : State) (index : Word) (v : Byte) (rest : List HostAccess), s.FormsOk → s.pending = .store index v :: rest →
    s.KeepsDuty (.store index v) rest →
    ∃ t, step s = .next t ∧ t.bufGet index = v ∧ (∀ a : Word, a ≠ index → t.bufGet a = s.bufGet a) ∧
      t = { s.setPending rest with buf := t.buf }) ∧
  ∀ (s : State) (index : Word) (rest : List HostAccess), s.pending = .load index :: rest →
    ∃ v : Word, v.toNat = (s.bufGet index).toNat ∧ step s = .next { s.setPending rest with rdata := v }

/-- 10_state.md R22 to R25 and the table of R20: what a read of each register returns: `RESP`, `STATUS` and `LEN` in every
`MODE`, the seven views from the first `INIT_*` on. A read has no side effect on the engine. -/
def Obligations.RegisterReadsReturnTheirViews : Prop :=
  ∀ (s : State) (off : Nat) (rest : List HostAccess), s.pending = .read off :: rest →
    ∃ v : Word,
      (s.mode ≠ .idle ∨ off ∉ [0x10, 0x14, 0x18, 0x1C, 0x20, 0x24, 0x28] →
        step s = .next { s.setPending rest with rdata := v }) ∧
      (off = 0x04 → v.toNat = (codeBits s.resp.code).toNat + 16 * s.resp.bit.toNat) ∧
      (off = 0x08 → v.toNat = (modeBits s.mode).toNat + 4 * s.ovf.toNat) ∧
      (off = 0x0C → v = s.len) ∧
      (s.mode ≠ .idle →
        (off = 0x10 → v = s.pos) ∧ (off = 0x14 → v = s.x1) ∧ (off = 0x18 → v = s.x2) ∧ (off = 0x1C → v = s.x) ∧
        (off = 0x20 → v.toNat = s.pfx.toNat) ∧ (off = 0x24 → v.toNat = s.lastctx.toNat) ∧
        (off = 0x28 → v.toNat = s.lastp.toNat))

/-- 10_state.md R25, U1: while `MODE = IDLE` a view reads as a free value, of which only the zero bits of R20's table are
known; nothing but the read's answer and the model's own draw counter changes, and the next draw is another one. -/
def Obligations.IdleViewsAreFreeValues : Prop :=
  ∀ (s : State) (off : Nat) (rest : List HostAccess), s.pending = .read off :: rest → s.mode = .idle →
    off ∈ [0x10, 0x14, 0x18, 0x1C, 0x20, 0x24, 0x28] →
    ∃ v : Word, step s = .next { s.setPending rest with rdata := v, draws := s.draws + 1 } ∧
      (off = 0x20 → v.toNat < 256) ∧ (off = 0x24 ∨ off = 0x28 → v.toNat < 65536)

/-- 60_exceptions.md R187 and 70_reset_and_hazards.md R222: no command stops the machine, and no access but one: a store
of the host into bytes of `BUF` that the pass in progress owns, for which there is no move (70_reset_and_hazards.md R215):
the input of a decompress pass, the bytes written in a compress pass, while the next command to arrive does not end the
pass. With no access pending a step changes nothing (the model's choice, log 5, after 10_state.md R33 "the engine waits for
the next command"). -/
def Obligations.EveryCommandAndStepAnswers : Prop :=
  (∀ (i : Instr) (s : State), ∃ t, exec i s = .next t) ∧
  (∀ s : State, s.pending = [] → step s = .next s) ∧
  (∀ (s : State) (a : HostAccess) (rest : List HostAccess), s.pending = a :: rest →
    (∀ index v, a = .store index v → passOver rest = true ∨
      ((s.mode = .dec → s.limit ≤ index) ∧ (s.mode = .enc ∨ s.mode = .done → s.pos ≤ index))) →
    ∃ t, step s = .next t) ∧
  ∀ (s : State) (index : Word) (v : Byte) (rest : List HostAccess), s.pending = .store index v :: rest →
    passOver rest = false → (s.mode = .dec ∧ index < s.limit ∨ (s.mode = .enc ∨ s.mode = .done) ∧ index < s.pos) →
    step s = .refused .bufferInPass

/-! ### Responses -/

/-- 60_exceptions.md R186: the order of the checks, and which response each leads to; `BIT` is 0 but for a decoded bit
(30_encoding.md R63). -/
def Obligations.ChecksDecideTheResponseInOrder : Prop :=
  ∀ (s t : State) (v : Word) (rest : List HostAccess), s.pending = .write 0x00 v :: rest → step s = .next t →
    match decode (v.setWidth 8) with
    | .error _ => t.resp = ⟨.eIllegal, false⟩
    | .ok .initEnc => t.resp = ⟨.ok, false⟩
    | .ok .initDec => t.resp = ⟨.ok, false⟩
    | .ok .decodeBit => if s.mode ≠ .dec then t.resp = ⟨.eMode, false⟩ else t.resp.code = .ok
    | .ok (.encodeBit _) =>
      if s.mode ≠ .enc then t.resp = ⟨.eMode, false⟩
      else if s.ovf = true then t.resp = ⟨.eOverflow, false⟩
      else (t.resp = ⟨.ok, false⟩ ∧ t.ovf = false) ∨ (t.resp = ⟨.eOverflow, false⟩ ∧ t.ovf = true)
    | .ok .flush =>
      if s.mode ≠ .enc then t.resp = ⟨.eMode, false⟩
      else if s.ovf = true then t.resp = ⟨.eOverflow, false⟩
      else (t.resp = ⟨.ok, false⟩ ∧ t.ovf = false) ∨ (t.resp = ⟨.eOverflow, false⟩ ∧ t.ovf = true)

/-- 60_exceptions.md R182 and R184: the refusals, with no change but `RESP`; `INIT_*` are admitted in every `MODE`. -/
def Obligations.RefusedCommandsChangeOnlyResp : Prop :=
  ∀ s : State,
    (s.mode ≠ .enc → (∀ b, exec (.encodeBit b) s = .next { s with resp := ⟨.eMode, false⟩ }) ∧
      exec .flush s = .next { s with resp := ⟨.eMode, false⟩ }) ∧
    (s.mode ≠ .dec → exec .decodeBit s = .next { s with resp := ⟨.eMode, false⟩ }) ∧
    (s.mode = .enc → s.ovf = true → (∀ b, exec (.encodeBit b) s = .next { s with resp := ⟨.eOverflow, false⟩ }) ∧
      exec .flush s = .next { s with resp := ⟨.eOverflow, false⟩ }) ∧
    (∃ t u, exec .initEnc s = .next t ∧ exec .initDec s = .next u ∧ t.resp = ⟨.ok, false⟩ ∧ u.resp = ⟨.ok, false⟩)

/-! ### INIT_ENC and INIT_DEC -/

/-- 42_coder.md R130: `INIT_ENC` from every state. -/
def Obligations.InitEncStartsACompressPass : Prop :=
  ∀ s : State, ∃ t,
    exec .initEnc s = .next t ∧
    t = { s with
      limit := s.len, pos := 0, x1 := 0x00000000, x2 := 0xFFFFFFFF, x := 0, pfx := 0, lastctx := 0, lastp := 0
      hist := t.hist, pt := t.pt, ovf := false, mode := .enc, resp := ⟨.ok, false⟩ } ∧
    (∀ k : Byte, t.histGet k = s.cfg.histInit) ∧ (∀ ctx : Half, t.ptGet ctx = seedCell s.cfg ctx.toNat) ∧
    (s.len = 0 → ∀ v, t.emit v = .overflowed t.raiseOverflow)

/-- 42_coder.md R131 and 20_memory.md R40: `INIT_DEC` from every state; the needle is the first four bytes of the input,
the first most significant, missing ones 0. -/
def Obligations.InitDecPreloadsTheNeedle : Prop :=
  ∀ s : State, ∃ t,
    exec .initDec s = .next t ∧
    t = { s with
      limit := s.len, pos := t.pos, x1 := 0x00000000, x2 := 0xFFFFFFFF, x := t.x, pfx := 0, lastctx := 0, lastp := 0
      hist := t.hist, pt := t.pt, ovf := false, mode := .dec, resp := ⟨.ok, false⟩ } ∧
    t.pos.toNat = min 4 s.len.toNat ∧
    (∀ j, j < 4 → wordByte t.x j = if j < s.len.toNat then cellsGet bufDefault s.buf j else 0) ∧
    (∀ k : Byte, t.histGet k = s.cfg.histInit) ∧ (∀ ctx : Half, t.ptGet ctx = seedCell s.cfg ctx.toNat)

/-- 70_reset_and_hazards.md R211: a pass never inherits model state. States that agree on what a pass takes over (`LEN`,
`BUF`, the parameters, and the host's own accesses) are the same state after `INIT_*`. -/
def Obligations.PassInheritsNothing : Prop :=
  ∀ s t : State, s.len = t.len → s.buf = t.buf → s.cfg = t.cfg → s.pending = t.pending → s.rdata = t.rdata →
    s.draws = t.draws → exec .initEnc s = exec .initEnc t ∧ exec .initDec s = exec .initDec t

/-! ### The estimator -/

/-- 40_estimator.md R81, under the default parameters: `DT[n] = floor(16384 / (2n + 3))`, in `[0, 8191]`. -/
def Obligations.ReciprocalTableFormula : Prop :=
  ∀ n : Byte, (dtEntry Config.default n).toNat = 16384 / (2 * n.toNat + 3) ∧ (dtEntry Config.default n).toNat ≤ 8191

/-- 40_estimator.md R83, under the default parameters: `SEED(i) = (w << 28) OR 6` with `w` in `[3, 13]`, a function of
the history part `i[7:0]` alone. -/
def Obligations.SeedFormula : Prop :=
  ∀ ctx : Half, ∃ w : Nat,
    w = 2 * (ctx.getLsbD 0).toNat + 2 * (ctx.getLsbD 1).toNat + (ctx.getLsbD 2).toNat + (ctx.getLsbD 3).toNat
      + (ctx.getLsbD 4).toNat + (ctx.getLsbD 5).toNat + (ctx.getLsbD 6).toNat + (ctx.getLsbD 7).toNat + 3 ∧
    3 ≤ w ∧ w ≤ 13 ∧ seedCell Config.default ctx.toNat = (BitVec.ofNat 32 w <<< 28) ||| 6

/-- 40_estimator.md R84 and 41_predictor.md R102: `EST.PREDICT` returns the top 16 bits of the estimate, records the
query, and changes nothing else; `PRED.PREDICT` is `EST.PREDICT` at the current context. -/
def Obligations.PredictReturnsTheTopBits : Prop :=
  ∀ (s : State) (ctx : Half),
    (s.estPredict ctx).1.toNat = (s.ptGet ctx).toNat / 2 ^ 16 ∧
    (s.estPredict ctx).2 = { s with lastctx := ctx, lastp := (s.estPredict ctx).1 } ∧
    s.predPredict = s.estPredict s.context

/-- 40_estimator.md R85, on the fields: the count rises by one while it is below the limit; the estimate moves by
`floor(delta / 256)` modulo `2^24`; no other cell and nothing else changes. -/
def Obligations.UpdateMovesTheEstimate : Prop :=
  ∀ (s : State) (bit : Bool) (limit : Byte), s.FormsOk →
    ∃ c c' t, c = s.ptGet s.lastctx ∧ t = s.estUpdate bit limit ∧ c' = t.ptGet s.lastctx ∧
      (cellCount c').toNat = (if (cellCount c).toNat < limit.toNat then (cellCount c).toNat + 1 else (cellCount c).toNat) ∧
      ((cellEstimate c').toNat : Int) =
        ((cellEstimate c).toNat +
          ((bit.toNat * 2 ^ 18 - (c.toNat / 2 ^ 14 : Nat) : Int) * (dtEntry s.cfg (cellCount c)).toNat) / 256) % 2 ^ 24 ∧
      (∀ a : Half, a ≠ s.lastctx → t.ptGet a = s.ptGet a) ∧ t = { s with pt := t.pt }

/-- 40_estimator.md R87 (a), (b) and the two fixed points, under the default parameters: a 0 bit never takes the
estimate below 0; a 1 bit carries past `2^24 - 1` only from the top 21 values of the estimate and a count of at most 30;
`0xFFFF007F` and `0x00003F7F` stay where they are. -/
def Obligations.DefaultUpdateStaysInRange : Prop :=
  (∀ c : Word, 0 ≤ ((cellEstimate c).toNat : Int) +
    updateDelta false (cellSlice c) (dtEntry Config.default (cellCount c)) / 256) ∧
  (∀ c : Word, (2 : Int) ^ 24 ≤ ((cellEstimate c).toNat : Int) +
      updateDelta true (cellSlice c) (dtEntry Config.default (cellCount c)) / 256 →
    (cellSlice c).toNat = 2 ^ 18 - 1 ∧ (cellCount c).toNat ≤ 30 ∧ 2 ^ 24 - 21 ≤ (cellEstimate c).toNat) ∧
  updateCell Config.default true 127 0xFFFF007F = 0xFFFF007F ∧
  updateCell Config.default false 127 0x00003F7F = 0x00003F7F

/-- 40_estimator.md R86: the count invariant is kept by every step. -/
def Obligations.StepKeepsCountsInRange : Prop :=
  ∀ s t : State, s.FormsOk → s.CountsOk → step s = .next t → t.CountsOk

/-! ### The predictor -/

/-- 41_predictor.md R101: the context is `256 * PREFIX + HIST[PREFIX]`, the prefix in its high byte. -/
def Obligations.ContextIsPrefixThenHistory : Prop :=
  ∀ s : State, s.context.toNat = 256 * s.pfx.toNat + (s.histGet s.pfx).toNat ∧ s.context.toNat < 65536 ∧
    s.context.extractLsb' 8 8 = s.pfx ∧ s.context.extractLsb' 0 8 = s.histGet s.pfx

/-- 41_predictor.md R103: `PRED.UPDATE` writes the cell of the last query, with the limit `ADAPT_LIMIT`, the history
entry of the prefix before it advances, and the prefix; nothing else. -/
def Obligations.PredictorUpdateWritesThree : Prop :=
  ∀ (s : State) (bit : Bool), s.FormsOk → ∃ t, t = s.predUpdate bit ∧
    t.ptGet s.lastctx = updateCell s.cfg bit s.cfg.adaptLimit (s.ptGet s.lastctx) ∧
    (∀ a : Half, a ≠ s.lastctx → t.ptGet a = s.ptGet a) ∧
    (t.histGet s.pfx).toNat = (2 * (s.histGet s.pfx).toNat + bit.toNat) % 256 ∧
    (∀ k : Byte, k ≠ s.pfx → t.histGet k = s.histGet k) ∧
    t.pfx.toNat = (if 256 ≤ 2 * s.pfx.toNat + bit.toNat then 0 else 2 * s.pfx.toNat + bit.toNat) ∧
    t = { s with pt := t.pt, hist := t.hist, pfx := t.pfx }

/-- 41_predictor.md R104: the history entry shifts left, drops its bit 7 and takes the new bit; eight updates leave
exactly the last eight bits, the most recent in bit 0, whatever the entry held; in `PRED.UPDATE` only the entry of the
current prefix changes. -/
def Obligations.HistoryShiftsInEachBit : Prop :=
  (∀ (h : Byte) (b : Bool), (historyNext h b).toNat = (2 * h.toNat + b.toNat) % 256 ∧ (historyNext h b).getLsbD 0 = b ∧
    ∀ i, i < 7 → (historyNext h b).getLsbD (i + 1) = h.getLsbD i) ∧
  (∀ (h v : Byte), (byteBits v).foldl historyNext h = v) ∧
  ∀ (s : State) (b : Bool) (k : Byte), s.FormsOk →
    (s.predUpdate b).histGet k = if k = s.pfx then historyNext (s.histGet k) b else s.histGet k

/-- 41_predictor.md R105 and R106: the prefix advance, and the symbol structure it gives. A symbol starts and ends at
prefix 0; its `j`-th data bit is coded at prefix `2^(j-1)` plus the data bits already coded; the end bit 0 leaves the
prefix at 0. -/
def Obligations.PrefixAdvancesAndWraps : Prop :=
  (∀ (k : Byte) (b : Bool),
    (k.toNat ≤ 127 → (prefixNext k b).toNat = 2 * k.toNat + b.toNat) ∧ (128 ≤ k.toNat → prefixNext k b = 0)) ∧
  prefixNext 0 false = 0 ∧
  ∀ v : Byte, (symbolBits v).foldl prefixNext 0 = 0 ∧
    ∀ j, 1 ≤ j → j ≤ 8 →
      (((symbolBits v).take j).foldl prefixNext 0).toNat = 2 ^ (j - 1) + v.toNat / 2 ^ (9 - j)

/-! ### The interval -/

/-- 42_coder.md R121: the midpoint is exact, inside the interval, and below `X2` when the interval has two values. -/
def Obligations.MidpointIsExactAndInside : Prop :=
  ∀ (x1 x2 : Word) (p : Half), x1 ≤ x2 →
    (midpoint x1 x2 p).toNat = x1.toNat + (x2.toNat - x1.toNat) * p.toNat / 65536 ∧
    x1 ≤ midpoint x1 x2 p ∧ midpoint x1 x2 p ≤ x2 ∧ (x1 < x2 → midpoint x1 x2 p < x2)

/-- 42_coder.md R122: the two parts are adjacent, both non-empty, and `mid + 1` does not wrap. -/
def Obligations.NarrowingSplitsTheInterval : Prop :=
  ∀ (s : State) (p : Half), s.x1 < s.x2 → ∃ m, m = midpoint s.x1 s.x2 p ∧
    s.narrow true m = { s with x2 := m } ∧ s.narrow false m = { s with x1 := m + 1 } ∧
    (m + 1).toNat = m.toNat + 1 ∧ s.x1 ≤ m ∧ m + 1 ≤ s.x2

/-- 42_coder.md R135: the phases of a coded bit before renormalization, in one state: the probability is that of the
model before the bit, then the interval is narrowed and the model updated once; nothing else changes. -/
def Obligations.CodedBitPhases : Prop :=
  ∀ (s : State) (b : Bool), s.FormsOk → ∃ u m, u = s.codeBit b ∧
    m = midpoint s.x1 s.x2 (cellProb (s.ptGet s.context)) ∧
    u.lastctx = s.context ∧ u.lastp = cellProb (s.ptGet s.context) ∧
    u.x1 = (if b then s.x1 else m + 1) ∧ u.x2 = (if b then m else s.x2) ∧
    u.ptGet s.context = updateCell s.cfg b s.cfg.adaptLimit (s.ptGet s.context) ∧
    u.histGet s.pfx = historyNext (s.histGet s.pfx) b ∧ u.pfx = prefixNext s.pfx b ∧
    (∀ a : Half, a ≠ s.context → u.ptGet a = s.ptGet a) ∧ (∀ k : Byte, k ≠ s.pfx → u.histGet k = s.histGet k) ∧
    u = { s with
      x1 := u.x1, x2 := u.x2, lastctx := u.lastctx, lastp := u.lastp, pt := u.pt, hist := u.hist, pfx := u.pfx }

/-! ### Byte output, byte input, renormalization -/

/-- 42_coder.md R123: with the buffer full an emit sets `OVF`, answers `E_OVERFLOW` and changes nothing else; otherwise
it writes the byte at `POS`, below `LIMIT`, and advances `POS` without wrapping. -/
def Obligations.EmitChecksCapacityFirst : Prop :=
  ∀ (s : State) (v : Byte), s.FormsOk →
    (s.limit ≤ s.pos → s.emit v = .overflowed { s with ovf := true, resp := ⟨.eOverflow, false⟩ }) ∧
    (s.pos < s.limit → ∃ t, s.emit v = .completed t ∧ t.bufGet s.pos = v ∧
      (∀ a : Word, a ≠ s.pos → t.bufGet a = s.bufGet a) ∧ t.pos.toNat = s.pos.toNat + 1 ∧
      t = { s with pos := t.pos, buf := t.buf })

/-- 42_coder.md R124: a byte inside the input is read and `POS` advances by 1; past the end the byte is 0 and `POS`
stays. -/
def Obligations.NextByteReadsZeroPastTheEnd : Prop :=
  ∀ s : State,
    (s.pos < s.limit → s.nextByte = (s.bufGet s.pos, { s with pos := s.pos + 1 }) ∧
      (s.pos + 1).toNat = s.pos.toNat + 1) ∧
    (s.limit ≤ s.pos → s.nextByte = (0, s))

/-- 42_coder.md R125: `RENORM_ENC` emits the leading bytes the bounds share, the first at `POS`, and shifts the bounds by
as many bytes; with too little room it fills the buffer, keeps the shifts done so far, and overflows. -/
def Obligations.RenormEncEmitsTheSharedBytes : Prop :=
  ∀ s : State, s.FormsOk →
    (sharedBytes s.x1 s.x2 ≤ s.room → ∃ buf,
      State.renormEnc maxRounds s = .completed (s.emitted (sharedBytes s.x1 s.x2) buf) ∧
      StoresBytes s.buf buf s.pos s.x2 (sharedBytes s.x1 s.x2)) ∧
    (s.room < sharedBytes s.x1 s.x2 → ∃ buf,
      State.renormEnc maxRounds s =
        .overflowed { s.emitted s.room buf with ovf := true, resp := ⟨.eOverflow, false⟩ } ∧
      StoresBytes s.buf buf s.pos s.x2 s.room)

/-- 42_coder.md R126: `RENORM_DEC` shifts the bounds by the leading bytes they share and takes as many input bytes into
the needle; it never fails. -/
def Obligations.RenormDecConsumesAsManyBytes : Prop :=
  ∀ s : State, State.renormDec maxRounds s = s.consumed (sharedBytes s.x1 s.x2)

/-- 42_coder.md R127: both loops end within 4 rounds from any bounds (more rounds change nothing), run 4 times exactly
when the bounds are equal (a fourth round changes the outcome of the loop then and only then; the compress loop reaches it
if its first three bytes have room), and leave different top bytes, in order; a round turns the width `w` into
`256 w + 255`. -/
def Obligations.RenormalizationStopsWithinFourRounds : Prop :=
  (∀ (s : State) (n : Nat), State.renormEnc (maxRounds + n) s = State.renormEnc maxRounds s ∧
    State.renormDec (maxRounds + n) s = State.renormDec maxRounds s) ∧
  (∀ s : State, (State.renormDec 3 s ≠ State.renormDec 4 s ↔ s.x1 = s.x2) ∧
    (3 ≤ s.room → (State.renormEnc 3 s ≠ State.renormEnc 4 s ↔ s.x1 = s.x2))) ∧
  (∀ v w : Word, sharedBytes v w ≤ 4 ∧ (sharedBytes v w = 4 ↔ v = w)) ∧
  (∀ s t : State, State.renormEnc maxRounds s = .completed t → topByte t.x1 ≠ topByte t.x2 ∧
    (s.x1 ≤ s.x2 → topByte t.x1 < topByte t.x2 ∧ t.x1 < t.x2)) ∧
  (∀ s t : State, State.renormDec maxRounds s = t → topByte t.x1 ≠ topByte t.x2 ∧
    (s.x1 ≤ s.x2 → topByte t.x1 < topByte t.x2 ∧ t.x1 < t.x2)) ∧
  ∀ v w : Word, v ≤ w → topByte v = topByte w →
    (shiftByte w 0xFF).toNat - (shiftZero v).toNat = 256 * (w.toNat - v.toNat) + 255

/-! ### ENCODE_BIT, DECODE_BIT, FLUSH -/

/-- 42_coder.md R132: an admitted `ENCODE_BIT` whose bytes fit completes with `(OK, 0)`: the phases of the bit, then the
shared bytes emitted at `POS`. The state `s.codeBit b` after the phases is that of `CodedBitPhases`. -/
def Obligations.EncodeBitCompletes : Prop :=
  ∀ (s : State) (b : Bool), s.FormsOk → s.mode = .enc → s.ovf = false →
    sharedBytes (s.codeBit b).x1 (s.codeBit b).x2 ≤ s.room →
    ∃ buf, exec (.encodeBit b) s =
        .next { (s.codeBit b).emitted (sharedBytes (s.codeBit b).x1 (s.codeBit b).x2) buf with resp := ⟨.ok, false⟩ } ∧
      StoresBytes s.buf buf s.pos (s.codeBit b).x2 (sharedBytes (s.codeBit b).x1 (s.codeBit b).x2)

/-- 60_exceptions.md R183, for `ENCODE_BIT`: when the bytes do not fit, the buffer is filled, the narrowed bounds, the
updated model and the shifts of the bytes emitted are kept, `MODE` stays, `OVF` is set. -/
def Obligations.EncodeBitOverflowKeepsPartialEffects : Prop :=
  ∀ (s : State) (b : Bool), s.FormsOk → s.mode = .enc → s.ovf = false →
    s.room < sharedBytes (s.codeBit b).x1 (s.codeBit b).x2 →
    ∃ buf, exec (.encodeBit b) s =
        .next { (s.codeBit b).emitted s.room buf with ovf := true, resp := ⟨.eOverflow, false⟩ } ∧
      StoresBytes s.buf buf s.pos (s.codeBit b).x2 s.room

/-- 42_coder.md R133 and 60_exceptions.md R190: in decompress mode `DECODE_BIT` completes with `(OK, bit)` for every
content of `BUF` and every `LEN`; the bit is 1 exactly when `X <= mid`. In every other `MODE` it is refused. -/
def Obligations.DecodeBitCompletes : Prop :=
  (∀ s : State, s.mode ≠ .dec → exec .decodeBit s = .next { s with resp := ⟨.eMode, false⟩ }) ∧
  ∀ s : State, s.mode = .dec →
    ∃ bit : Bool, (bit = true ↔ s.x ≤ midpoint s.x1 s.x2 (cellProb (s.ptGet s.context))) ∧
      exec .decodeBit s =
        .next { (s.codeBit bit).consumed (sharedBytes (s.codeBit bit).x1 (s.codeBit bit).x2) with
          resp := ⟨.ok, bit⟩ }

/-- 42_coder.md R134: an admitted `FLUSH` whose bytes fit completes with `(OK, 0)` in `MODE = DONE`: the shared bytes, if
any, then the top byte of `X2`; the bounds are not shifted after the last emit. Where the top bytes differ, as R136 says
of every state commands reach, that is one byte and the bounds stay. -/
def Obligations.FlushCompletes : Prop :=
  ∀ (s : State) (k : Nat), s.FormsOk → s.mode = .enc → s.ovf = false → k = sharedBytes s.x1 s.x2 → k + 1 ≤ s.room →
    ∃ buf, exec .flush s =
        .next { s.emitted k buf with pos := s.pos + BitVec.ofNat 32 (k + 1), mode := .done, resp := ⟨.ok, false⟩ } ∧
      (∀ j, j < k → cellsGet bufDefault buf (s.pos.toNat + j) = wordByte s.x2 j) ∧
      cellsGet bufDefault buf (s.pos.toNat + k) = topByte (highShifted s.x2 k) ∧
      (∀ a, (a < s.pos.toNat ∨ s.pos.toNat + k + 1 ≤ a) → cellsGet bufDefault buf a = cellsGet bufDefault s.buf a) ∧
      (topByte s.x1 ≠ topByte s.x2 → k = 0 ∧ (s.emitted k buf).x1 = s.x1 ∧ (s.emitted k buf).x2 = s.x2 ∧
        topByte (highShifted s.x2 k) = topByte s.x2)

/-- 42_coder.md R134 and 60_exceptions.md R183, for `FLUSH`: when its bytes do not fit, the buffer is filled, `MODE` stays
`ENC`, `OVF` is set; where the top bytes differ nothing else changes. -/
def Obligations.FlushOverflowStaysInCompressMode : Prop :=
  ∀ s : State, s.FormsOk → s.mode = .enc → s.ovf = false → s.room ≤ sharedBytes s.x1 s.x2 →
    (∃ buf, exec .flush s = .next { s.emitted s.room buf with ovf := true, resp := ⟨.eOverflow, false⟩ } ∧
      StoresBytes s.buf buf s.pos s.x2 s.room) ∧
    (topByte s.x1 ≠ topByte s.x2 → exec .flush s = .next { s with ovf := true, resp := ⟨.eOverflow, false⟩ })

/-! ### Frames -/

/-- The frame of `INIT_ENC` and `INIT_DEC` (42_coder.md R130, R131): `LEN`, every byte of `BUF`, the parameters, and the
host's side are unchanged. -/
def Obligations.InitFrame : Prop :=
  ∀ (i : Instr) (s t : State), i = .initEnc ∨ i = .initDec → exec i s = .next t →
    t.len = s.len ∧ (∀ a : Word, t.bufGet a = s.bufGet a) ∧ t.cfg = s.cfg ∧ t.pending = s.pending ∧
    t.rdata = s.rdata ∧ t.draws = s.draws

/-- The frame of `ENCODE_BIT` (42_coder.md R132), in every form: `X`, `LIMIT`, `LEN`, `MODE`, the parameters and the
host's side are unchanged, every cell of `PT` but that of the context and every entry of `HIST` but that of the prefix
read as before, and so does every byte of `BUF` outside those stored, which start at `POS` and are as many as the
narrowed bounds share and the buffer has room for (none when the command is refused). -/
def Obligations.EncodeBitFrame : Prop :=
  ∀ (b : Bool) (s t : State), exec (.encodeBit b) s = .next t → ∃ stored : Nat,
    stored = (if s.mode = .enc ∧ s.ovf = false then min (sharedBytes (s.codeBit b).x1 (s.codeBit b).x2) s.room else 0) ∧
    (∀ a, (a < s.pos.toNat ∨ s.pos.toNat + stored ≤ a) →
      cellsGet bufDefault t.buf a = cellsGet bufDefault s.buf a) ∧
    t.pos.toNat = s.pos.toNat + stored ∧
    (∀ a : Half, a ≠ s.context → t.ptGet a = s.ptGet a) ∧ (∀ k : Byte, k ≠ s.pfx → t.histGet k = s.histGet k) ∧
    t.x = s.x ∧ t.limit = s.limit ∧ t.len = s.len ∧ t.mode = s.mode ∧ t.cfg = s.cfg ∧ t.pending = s.pending ∧
    t.rdata = s.rdata ∧ t.draws = s.draws ∧ (t.resp.code = .ok → t.ovf = s.ovf) ∧
    (s.mode ≠ .enc ∨ s.ovf = true → t = { s with resp := t.resp })

/-- The frame of `FLUSH` (42_coder.md R134), in every form: the model, the needle, `LIMIT`, `LEN`, the parameters and the
host's side are unchanged, and so is every byte of `BUF` outside those stored, which start at `POS` and are as many as the
bounds share, and one, or as the buffer has room for (none when the command is refused). -/
def Obligations.FlushFrame : Prop :=
  ∀ s t : State, exec .flush s = .next t → ∃ stored : Nat,
    stored = (if s.mode = .enc ∧ s.ovf = false then min (sharedBytes s.x1 s.x2 + 1) s.room else 0) ∧
    (∀ a, (a < s.pos.toNat ∨ s.pos.toNat + stored ≤ a) →
      cellsGet bufDefault t.buf a = cellsGet bufDefault s.buf a) ∧
    t.pos.toNat = s.pos.toNat + stored ∧
    t.pt = s.pt ∧ t.hist = s.hist ∧ t.pfx = s.pfx ∧ t.lastctx = s.lastctx ∧ t.lastp = s.lastp ∧
    t.x = s.x ∧ t.limit = s.limit ∧ t.len = s.len ∧ t.cfg = s.cfg ∧ t.pending = s.pending ∧
    t.rdata = s.rdata ∧ t.draws = s.draws ∧ (t.resp.code ≠ .ok → t.mode = s.mode) ∧ (t.resp.code = .ok → t.ovf = s.ovf) ∧
    (s.mode ≠ .enc ∨ s.ovf = true → t = { s with resp := t.resp })

/-- The frame of `DECODE_BIT` (42_coder.md R133), in every form: every byte of `BUF`, `LIMIT`, `LEN`, `MODE`, `OVF`, the
parameters and the host's side are unchanged, and every cell of `PT` but that of the context and every entry of `HIST`
but that of the prefix read as before. -/
def Obligations.DecodeBitFrame : Prop :=
  ∀ s t : State, exec .decodeBit s = .next t →
    (∀ a : Word, t.bufGet a = s.bufGet a) ∧
    (∀ a : Half, a ≠ s.context → t.ptGet a = s.ptGet a) ∧ (∀ k : Byte, k ≠ s.pfx → t.histGet k = s.histGet k) ∧
    t.limit = s.limit ∧ t.len = s.len ∧ t.mode = s.mode ∧ t.ovf = s.ovf ∧ t.cfg = s.cfg ∧ t.pending = s.pending ∧
    t.rdata = s.rdata ∧ t.draws = s.draws ∧ (s.mode ≠ .dec → t = { s with resp := t.resp })

/-! ### Rules of the whole machine -/

/-- 10_state.md R17: the coding of `MODE`, and everything that writes it: `INIT_ENC`, `INIT_DEC`, a successful `FLUSH`,
power-on reset; nothing else. -/
def Obligations.ModeHasFourWriters : Prop :=
  (modeBits .idle = 0 ∧ modeBits .enc = 1 ∧ modeBits .dec = 2 ∧ modeBits .done = 3) ∧
  ∀ (s t : State) (a : HostAccess) (rest : List HostAccess), s.pending = a :: rest → step s = .next t →
    t.mode =
      if a = .powerOn then .idle
      else if commandIn a = some .initEnc then .enc
      else if commandIn a = some .initDec then .dec
      else if commandIn a = some .flush ∧ t.resp.code = .ok then .done
      else s.mode

/-- 10_state.md R18 and 60_exceptions.md R184: `OVF` is set only by an overflow in compress mode, and cleared only by
`INIT_ENC`, `INIT_DEC` and power-on reset; while it is 1 `ENCODE_BIT` and `FLUSH` change nothing but `RESP`, to `(E_OVERFLOW, 0)` in `MODE = ENC`. -/
def Obligations.OverflowFlagIsSticky : Prop :=
  (∀ (s t : State) (a : HostAccess) (rest : List HostAccess), s.pending = a :: rest → step s = .next t →
    (restarts a = true → t.ovf = false) ∧
    (restarts a = false → s.ovf = true → t.ovf = true) ∧
    (s.ovf = false → t.ovf = true → s.mode = .enc ∧ t.resp = ⟨.eOverflow, false⟩ ∧ s.limit ≤ t.pos ∧
      ((∃ b, commandIn a = some (.encodeBit b)) ∨ commandIn a = some .flush))) ∧
  ∀ s t : State, s.ovf = true → ((∃ b, exec (.encodeBit b) s = .next t) ∨ exec .flush s = .next t) →
    t = { s with resp := t.resp } ∧ t.resp.code ≠ .ok ∧ (s.mode = .enc → t.resp = ⟨.eOverflow, false⟩)

/-- 10_state.md R15: within a pass `LIMIT` is constant, and `POS` stays in `[0, LIMIT]`, never decreases and never
wraps. -/
def Obligations.CursorNeverDecreasesWithinAPass : Prop :=
  ∀ (s t : State) (a : HostAccess) (rest : List HostAccess), s.PassOk → s.mode ≠ .idle → s.pending = a :: rest →
    step s = .next t → restarts a = false →
      t.limit = s.limit ∧ s.pos.toNat ≤ t.pos.toNat ∧ t.pos.toNat ≤ t.limit.toNat

/-- 40_estimator.md R82 and 10_state.md R28, R31: no step changes the parameters, `DT` among them. -/
def Obligations.ParametersNeverChange : Prop :=
  ∀ s t : State, step s = .next t → t.cfg = s.cfg ∧ ∀ n, dtEntry t.cfg n = dtEntry s.cfg n

/-- 20_memory.md R50 and 70_reset_and_hazards.md R215: during a pass, after a failure or a `FLUSH` as before it, no step
changes a byte that a compress pass has written, nor a byte of the input of a decompress pass. Left out is the host's store
once the pass is over, with which it prepares the next one (R212). -/
def Obligations.WrittenBytesAreFinal : Prop :=
  ∀ (s t : State) (a : HostAccess) (rest : List HostAccess), s.pending = a :: rest → step s = .next t →
    ((∀ index v, a ≠ .store index v) ∨ passOver rest = false) →
    (s.mode = .enc ∨ s.mode = .done → ∀ i : Word, i < s.pos → t.bufGet i = s.bufGet i) ∧
    (s.mode = .dec → ∀ i : Word, i < s.limit → t.bufGet i = s.bufGet i)

/-- The canonical forms of the tables and the buffer are kept by every step (the model's representation of
10_state.md R26, R27, R29; log 14). -/
def Obligations.StepKeepsCanonicalForms : Prop :=
  ∀ s t : State, s.FormsOk → step s = .next t → t.FormsOk

/-- 42_coder.md R136 with 10_state.md R12, R15, R18: the invariants of a pass are kept by every step, from every state
that meets them. -/
def Obligations.StepKeepsThePassInvariant : Prop :=
  ∀ s t : State, s.PassOk → step s = .next t → t.PassOk

/-- The invariants hold after power-on reset. The forms hold because the model lists no entry there (log 2, log 7). -/
def Obligations.InvariantsHoldAtReset : Prop :=
  State.reset.FormsOk ∧ State.reset.PassOk ∧ State.reset.CountsOk

/-- 42_coder.md R136: what holds after `INIT_ENC`, `INIT_DEC` and after every `ENCODE_BIT` or `DECODE_BIT` that returned
`OK`, from a state in which it held; and each narrowing strictly shrinks the interval, from inside. -/
def Obligations.IntervalIsOpenBetweenCommands : Prop :=
  (∀ (i : Instr) (s t : State), exec i s = .next t →
    (i = .initEnc ∨ i = .initDec ∨
      ((i = .decodeBit ∨ ∃ b, i = .encodeBit b) ∧ t.resp.code = .ok ∧ topByte s.x1 < topByte s.x2 ∧ s.pos ≤ s.limit)) →
    topByte t.x1 < topByte t.x2 ∧ t.x1 < t.x2 ∧ 1 ≤ t.x2.toNat - t.x1.toNat ∧ t.pos ≤ t.limit ∧ t.pfx.toNat ≤ 255) ∧
  ∀ (s : State) (b : Bool), s.x1 < s.x2 →
    s.x1 ≤ (s.codeBit b).x1 ∧ (s.codeBit b).x1 ≤ (s.codeBit b).x2 ∧ (s.codeBit b).x2 ≤ s.x2 ∧
    (s.codeBit b).x2.toNat - (s.codeBit b).x1.toNat < s.x2.toNat - s.x1.toNat

/-! ### Decoding what was encoded -/

/-- 42_coder.md R137: an admitted `FLUSH` with room for its byte, between bounds whose top bytes `S < T` differ, stores `T`
at `POS`, and the needle a decoder takes from there, that byte and then the zeros `NEXTBYTE` gives past the end, is
`T * 2^24`, inside `[X1, X2]`, with `S + 1` between. With another byte `B` of `[S + 1, T]` in its place the needle would lie
inside too; with `S` it would lie at or below `X1`, at it only if `X1[23:0] = 0`. -/
def Obligations.FlushByteLiesInTheInterval : Prop :=
  ∀ s t : State, s.FormsOk → s.mode = .enc → s.ovf = false → topByte s.x1 < topByte s.x2 → s.pos < s.limit →
    exec .flush s = .next t →
    t.bufGet s.pos = topByte s.x2 ∧ t.pos.toNat = s.pos.toNat + 1 ∧
    (t.needleFrom s.pos t.pos).toNat = (t.bufGet s.pos).toNat * 2 ^ 24 ∧
    s.x1.toNat < ((topByte s.x1).toNat + 1) * 2 ^ 24 ∧
    ((topByte s.x1).toNat + 1) * 2 ^ 24 ≤ (t.needleFrom s.pos t.pos).toNat ∧
    s.x1 < t.needleFrom s.pos t.pos ∧ t.needleFrom s.pos t.pos ≤ s.x2 ∧
    ∀ b : Byte, ∃ needle, needle = (t.bufSet s.pos b).needleFrom s.pos t.pos ∧
      (topByte s.x1 < b → b ≤ topByte s.x2 → s.x1 < needle ∧ needle ≤ s.x2) ∧
      (b = topByte s.x1 → needle ≤ s.x1 ∧ (needle = s.x1 ↔ s.x1.toNat % 2 ^ 24 = 0))

/-- 42_coder.md R139: an encoder and a decoder that have learned the same compute the same probability for the next bit,
and have again learned the same once both have coded it. -/
def Obligations.LockstepNeedsOnlyTheModel : Prop :=
  ∀ (s s' d d' : State) (b : Bool), s.FormsOk → d.FormsOk → SameModel s d → s.mode = .enc → s.ovf = false → d.mode = .dec →
    exec (.encodeBit b) s = .next s' → exec .decodeBit d = .next d' → d'.resp.bit = b →
    s'.lastp = d'.lastp ∧ s'.lastctx = d'.lastctx ∧ SameModel s' d'

/-- 42_coder.md R138: the decoder reproduces the bits. When bits were encoded from `INIT_ENC` with every response `OK`
and a successful `FLUSH`, and a decoder with the same parameters starts on the bytes written, then after `INIT_DEC` and
after each of as many `DECODE_BIT` commands as bits were coded, each decoded bit is the coded bit, `X1 <= X <= X2`, and
interval and model equal the encoder's after the same number of bits. -/
def Obligations.DecoderReproducesTheCodedBits : Prop :=
  ∀ (s s0 e f d d0 : State) (bits : List Bool), s.FormsOk →
    exec .initEnc s = .next s0 → encodeBits bits s0 = some e → exec .flush e = .next f → f.resp.code = .ok →
    d.cfg = s.cfg → d.len = f.pos → SameBytes d f f.pos.toNat → exec .initDec d = .next d0 →
    ∀ k, k ≤ bits.length → ∃ ek dk, encodeBits (bits.take k) s0 = some ek ∧
      decodeBits k d0 = some (bits.take k, dk) ∧ dk.x1 ≤ dk.x ∧ dk.x ≤ dk.x2 ∧ dk.x1 = ek.x1 ∧ dk.x2 = ek.x2 ∧
      SameModel ek dk

/-- 43_host_sequences.md R167: `DECOMPRESS` of the output of `COMPRESS data` returns `data`, for every byte sequence
including the empty one, whenever both buffers are large enough; and two `COMPRESS` runs of the same input under equal
parameters give the same result and the same bytes, whatever ran before. -/
def Obligations.DecompressInvertsCompress : Prop :=
  (∀ (s t : State) (data : List Byte) (cap : Word), s.FormsOk → t.FormsOk → s.cfg = t.cfg →
    (compress data cap s).1 = (compress data cap t).1 ∧ (compress data cap s).2.pos = (compress data cap t).2.pos ∧
    SameBytes (compress data cap s).2 (compress data cap t).2 (compress data cap s).2.pos.toNat) ∧
  ∀ (s f d : State) (data : List Byte) (cap : Word) (n outCap : Nat), s.FormsOk →
    compress data cap s = (.count n, f) → d.cfg = s.cfg → SameBytes d f n → data.length ≤ outCap →
    (decompress (BitVec.ofNat 32 n) outCap d).1 = .count data.length ∧
    (decompress (BitVec.ofNat 32 n) outCap d).2.1 = data

/-- 43_host_sequences.md R163 and property S3: compressing into a buffer smaller than the stream returns `cap + 1`, with
`POS = cap` and the first `cap` bytes those of the unconstrained compression. -/
def Obligations.CompressIntoSmallBufferGivesAPrefix : Prop :=
  ∀ (s f : State) (data : List Byte) (cap small : Word) (n : Nat), s.FormsOk →
    compress data cap s = (.count n, f) → small.toNat < n →
    ∃ g, compress data small s = (.sentinel (small.toNat + 1), g) ∧ g.pos = small ∧ SameBytes g f small.toNat

/-- 42_coder.md R133, corner case `LEN = 0`, and 70_reset_and_hazards.md R218: with no input left, a needle of 0 and
`X1 = 0`, every `DECODE_BIT` answers 1 and leaves a state of the same kind: the decoder never stops by itself. -/
def Obligations.EmptyInputDecodesOnesForever : Prop :=
  ∀ s : State, s.mode = .dec → s.x = 0 → s.x1 = 0 → s.limit ≤ s.pos →
    ∃ t, exec .decodeBit s = .next t ∧ t.resp = ⟨.ok, true⟩ ∧ t.mode = .dec ∧ t.x = 0 ∧ t.x1 = 0 ∧ t.limit ≤ t.pos

/-- 30_encoding.md R66: a command of a script is a write of its word to `CMD`, then a read of `RESP`; two steps make it, and
leave what the command leaves and its response in the host's hands. 43_host_sequences.md R160: `ENCODE_BYTE v` is the
continuation bit 1 and the eight data bits, most significant first; after a complete one from prefix 0 the prefix is 0
again. R163: a successful `COMPRESS` is the run of its accesses, the last a read of `POS`. -/
def Obligations.ScriptCommandsWriteCmdThenReadResp : Prop :=
  (∀ (i : Instr) (n : Word), itemAccesses (.command i) = [.write 0x00 ((encode i).setWidth 32), .read 0x04] ∧
    itemAccesses (.setLen n) = [.write 0x0C n]) ∧
  (∀ (s : State) (i : Instr) (rest : List HostAccess), s.pending = itemAccesses (.command i) ++ rest →
    ∃ u w t, exec i (s.setPending rest) = .next u ∧ step s = .next w ∧ step w = .next t ∧
      t = { u with rdata := t.rdata } ∧ t.rdata.toNat = (codeBits u.resp.code).toNat + 16 * u.resp.bit.toNat ∧
      t = issue i (s.setPending rest)) ∧
  (∀ v : Byte, encodeByteCommands v = [.encodeBit true, .encodeBit (v.getLsbD 7), .encodeBit (v.getLsbD 6),
    .encodeBit (v.getLsbD 5), .encodeBit (v.getLsbD 4), .encodeBit (v.getLsbD 3), .encodeBit (v.getLsbD 2),
    .encodeBit (v.getLsbD 1), .encodeBit (v.getLsbD 0)]) ∧
  (∀ (s : State) (v : Byte), s.pfx = 0 → (issueAll (encodeByteCommands v) s).gotCode .ok = true →
    (issueAll (encodeByteCommands v) s).pfx = 0) ∧
  ∀ (s f : State) (data : List Byte) (cap : Word) (n : Nat) (rest : List HostAccess),
    s.pending = compressAccesses data cap ++ rest → compress data cap (s.setPending rest) = (.count n, f) →
    core.run (compressAccesses data cap).length s = .next f
end

