-- ==== Sys2Proof/Laws/Cells.lean ====
section
/-!
SUPPORT. The laws of sparse data: a read after a write, and the canonical form, which every write keeps.
-/

namespace Sys2Proof.Machine

variable {w : Nat} {dflt : Nat → BitVec w}

@[simp] theorem cellsGet_nil (k : Nat) : cellsGet dflt [] k = dflt k := rfl

/-- A write leaves every other index alone, in any list. -/
theorem cellsGet_set_other (l : List (Nat × BitVec w)) {k a : Nat} (v : BitVec w) (h : a ≠ k) :
    cellsGet dflt (cellsSet dflt l k v) a = cellsGet dflt l a := by
  induction l with
  | nil =>
    simp only [cellsSet]
    split <;> simp [cellsGet, h]
  | cons e rest ih =>
    obtain ⟨j, u⟩ := e
    simp only [cellsSet]
    split
    · split <;> simp [cellsGet, h]
    · split
      · rename_i hj
        subst hj
        split <;> simp [cellsGet, h]
      · simp [cellsGet, ih]

/-- An index below every listed one reads as an unlisted entry. -/
theorem cellsGet_below {bound : Nat} (l : List (Nat × BitVec w)) {lo k : Nat} (hl : cellsWf dflt bound lo l = true)
    (h : k < lo) : cellsGet dflt l k = dflt k := by
  induction l generalizing lo with
  | nil => rfl
  | cons e rest ih =>
    obtain ⟨j, u⟩ := e
    simp only [cellsWf, Bool.and_eq_true, decide_eq_true_eq] at hl
    have hk : k ≠ j := by omega
    simp only [cellsGet, if_neg hk]
    exact ih hl.2 (by omega)

/-- A read after a write to the same index gives the value written, in a canonical list. -/
theorem cellsGet_set_same {bound : Nat} (l : List (Nat × BitVec w)) {lo : Nat} (k : Nat) (v : BitVec w)
    (hl : cellsWf dflt bound lo l = true) : cellsGet dflt (cellsSet dflt l k v) k = v := by
  induction l generalizing lo with
  | nil =>
    simp only [cellsSet]
    split <;> simp_all [cellsGet]
  | cons e rest ih =>
    obtain ⟨j, u⟩ := e
    simp only [cellsWf, Bool.and_eq_true, decide_eq_true_eq] at hl
    simp only [cellsSet]
    split
    · rename_i hk
      split
      · rename_i hv
        have hkj : k ≠ j := by omega
        simp only [cellsGet, if_neg hkj]
        rw [cellsGet_below rest hl.2 (by omega), hv]
      · simp [cellsGet]
    · split
      · rename_i hkj
        subst hkj
        split
        · rename_i hv
          rw [cellsGet_below rest hl.2 (by omega), hv]
        · simp [cellsGet]
      · rename_i hkj
        simp only [cellsGet, if_neg hkj]
        exact ih hl.2

/-- A read after a write, at any index, in a canonical list. -/
theorem cellsGet_set {bound : Nat} (l : List (Nat × BitVec w)) {lo : Nat} (k a : Nat) (v : BitVec w)
    (hl : cellsWf dflt bound lo l = true) :
    cellsGet dflt (cellsSet dflt l k v) a = if a = k then v else cellsGet dflt l a := by
  split
  · rename_i h
    subst h
    exact cellsGet_set_same l a v hl
  · rename_i h
    exact cellsGet_set_other l v h

/-- A canonical list stays canonical for a lower starting index. -/
theorem cellsWf_mono {bound : Nat} (l : List (Nat × BitVec w)) {lo lo' : Nat} (hl : cellsWf dflt bound lo l = true)
    (h : lo' ≤ lo) : cellsWf dflt bound lo' l = true := by
  cases l with
  | nil => rfl
  | cons e rest =>
    obtain ⟨j, u⟩ := e
    simp only [cellsWf, Bool.and_eq_true, decide_eq_true_eq] at hl ⊢
    exact ⟨⟨⟨by omega, hl.1.1.2⟩, hl.1.2⟩, hl.2⟩

/-- Every write keeps the canonical form. -/
theorem cellsWf_set {bound : Nat} (l : List (Nat × BitVec w)) {lo : Nat} (k : Nat) (v : BitVec w)
    (hl : cellsWf dflt bound lo l = true) (hlo : lo ≤ k) (hk : k < bound) :
    cellsWf dflt bound lo (cellsSet dflt l k v) = true := by
  induction l generalizing lo with
  | nil =>
    simp only [cellsSet]
    split
    · rfl
    · rename_i hv
      simp [cellsWf, hlo, hk, hv]
  | cons e rest ih =>
    obtain ⟨j, u⟩ := e
    have hl' := hl
    simp only [cellsWf, Bool.and_eq_true, decide_eq_true_eq] at hl'
    obtain ⟨⟨⟨h1, h2⟩, h3⟩, h4⟩ := hl'
    simp only [cellsSet]
    split
    · rename_i hkj
      split
      · exact hl
      · rename_i hv
        simp only [cellsWf, Bool.and_eq_true, decide_eq_true_eq, bne_iff_ne, ne_eq]
        exact ⟨⟨⟨hlo, hk⟩, hv⟩, ⟨⟨by omega, h2⟩, by simpa using h3⟩, h4⟩
    · split
      · rename_i hkj
        subst hkj
        split
        · exact cellsWf_mono rest h4 (by omega)
        · rename_i hv
          simp only [cellsWf, Bool.and_eq_true, decide_eq_true_eq, bne_iff_ne, ne_eq]
          exact ⟨⟨⟨hlo, hk⟩, hv⟩, h4⟩
      · simp only [cellsWf, Bool.and_eq_true, decide_eq_true_eq]
        exact ⟨⟨⟨h1, h2⟩, h3⟩, ih h4 (by omega)⟩

end Sys2Proof.Machine
end

