-- ==== Sys2Proof/Laws/State.lean ====
section
/-!
SUPPORT. What each named update of the state does to each field, one lemma a field, so that no proof unfolds a record
update.
-/

namespace Sys2Proof.Machine

/-! ### `State.noteQuery` -/

@[simp] theorem State.noteQuery_x1 (s : State) (ctx p : Half) : (s.noteQuery ctx p).x1 = s.x1 := rfl
@[simp] theorem State.noteQuery_x2 (s : State) (ctx p : Half) : (s.noteQuery ctx p).x2 = s.x2 := rfl
@[simp] theorem State.noteQuery_x (s : State) (ctx p : Half) : (s.noteQuery ctx p).x = s.x := rfl
@[simp] theorem State.noteQuery_pfx (s : State) (ctx p : Half) : (s.noteQuery ctx p).pfx = s.pfx := rfl
@[simp] theorem State.noteQuery_lastctx (s : State) (ctx p : Half) : (s.noteQuery ctx p).lastctx = ctx := rfl
@[simp] theorem State.noteQuery_lastp (s : State) (ctx p : Half) : (s.noteQuery ctx p).lastp = p := rfl
@[simp] theorem State.noteQuery_pos (s : State) (ctx p : Half) : (s.noteQuery ctx p).pos = s.pos := rfl
@[simp] theorem State.noteQuery_limit (s : State) (ctx p : Half) : (s.noteQuery ctx p).limit = s.limit := rfl
@[simp] theorem State.noteQuery_mode (s : State) (ctx p : Half) : (s.noteQuery ctx p).mode = s.mode := rfl
@[simp] theorem State.noteQuery_ovf (s : State) (ctx p : Half) : (s.noteQuery ctx p).ovf = s.ovf := rfl
@[simp] theorem State.noteQuery_resp (s : State) (ctx p : Half) : (s.noteQuery ctx p).resp = s.resp := rfl
@[simp] theorem State.noteQuery_len (s : State) (ctx p : Half) : (s.noteQuery ctx p).len = s.len := rfl
@[simp] theorem State.noteQuery_pt (s : State) (ctx p : Half) : (s.noteQuery ctx p).pt = s.pt := rfl
@[simp] theorem State.noteQuery_hist (s : State) (ctx p : Half) : (s.noteQuery ctx p).hist = s.hist := rfl
@[simp] theorem State.noteQuery_buf (s : State) (ctx p : Half) : (s.noteQuery ctx p).buf = s.buf := rfl
@[simp] theorem State.noteQuery_cfg (s : State) (ctx p : Half) : (s.noteQuery ctx p).cfg = s.cfg := rfl
@[simp] theorem State.noteQuery_pending (s : State) (ctx p : Half) : (s.noteQuery ctx p).pending = s.pending := rfl
@[simp] theorem State.noteQuery_rdata (s : State) (ctx p : Half) : (s.noteQuery ctx p).rdata = s.rdata := rfl
@[simp] theorem State.noteQuery_draws (s : State) (ctx p : Half) : (s.noteQuery ctx p).draws = s.draws := rfl

/-! ### `State.setPfx` -/

@[simp] theorem State.setPfx_x1 (s : State) (k : Byte) : (s.setPfx k).x1 = s.x1 := rfl
@[simp] theorem State.setPfx_x2 (s : State) (k : Byte) : (s.setPfx k).x2 = s.x2 := rfl
@[simp] theorem State.setPfx_x (s : State) (k : Byte) : (s.setPfx k).x = s.x := rfl
@[simp] theorem State.setPfx_pfx (s : State) (k : Byte) : (s.setPfx k).pfx = k := rfl
@[simp] theorem State.setPfx_lastctx (s : State) (k : Byte) : (s.setPfx k).lastctx = s.lastctx := rfl
@[simp] theorem State.setPfx_lastp (s : State) (k : Byte) : (s.setPfx k).lastp = s.lastp := rfl
@[simp] theorem State.setPfx_pos (s : State) (k : Byte) : (s.setPfx k).pos = s.pos := rfl
@[simp] theorem State.setPfx_limit (s : State) (k : Byte) : (s.setPfx k).limit = s.limit := rfl
@[simp] theorem State.setPfx_mode (s : State) (k : Byte) : (s.setPfx k).mode = s.mode := rfl
@[simp] theorem State.setPfx_ovf (s : State) (k : Byte) : (s.setPfx k).ovf = s.ovf := rfl
@[simp] theorem State.setPfx_resp (s : State) (k : Byte) : (s.setPfx k).resp = s.resp := rfl
@[simp] theorem State.setPfx_len (s : State) (k : Byte) : (s.setPfx k).len = s.len := rfl
@[simp] theorem State.setPfx_pt (s : State) (k : Byte) : (s.setPfx k).pt = s.pt := rfl
@[simp] theorem State.setPfx_hist (s : State) (k : Byte) : (s.setPfx k).hist = s.hist := rfl
@[simp] theorem State.setPfx_buf (s : State) (k : Byte) : (s.setPfx k).buf = s.buf := rfl
@[simp] theorem State.setPfx_cfg (s : State) (k : Byte) : (s.setPfx k).cfg = s.cfg := rfl
@[simp] theorem State.setPfx_pending (s : State) (k : Byte) : (s.setPfx k).pending = s.pending := rfl
@[simp] theorem State.setPfx_rdata (s : State) (k : Byte) : (s.setPfx k).rdata = s.rdata := rfl
@[simp] theorem State.setPfx_draws (s : State) (k : Byte) : (s.setPfx k).draws = s.draws := rfl

/-! ### `State.setX1` -/

@[simp] theorem State.setX1_x1 (s : State) (v : Word) : (s.setX1 v).x1 = v := rfl
@[simp] theorem State.setX1_x2 (s : State) (v : Word) : (s.setX1 v).x2 = s.x2 := rfl
@[simp] theorem State.setX1_x (s : State) (v : Word) : (s.setX1 v).x = s.x := rfl
@[simp] theorem State.setX1_pfx (s : State) (v : Word) : (s.setX1 v).pfx = s.pfx := rfl
@[simp] theorem State.setX1_lastctx (s : State) (v : Word) : (s.setX1 v).lastctx = s.lastctx := rfl
@[simp] theorem State.setX1_lastp (s : State) (v : Word) : (s.setX1 v).lastp = s.lastp := rfl
@[simp] theorem State.setX1_pos (s : State) (v : Word) : (s.setX1 v).pos = s.pos := rfl
@[simp] theorem State.setX1_limit (s : State) (v : Word) : (s.setX1 v).limit = s.limit := rfl
@[simp] theorem State.setX1_mode (s : State) (v : Word) : (s.setX1 v).mode = s.mode := rfl
@[simp] theorem State.setX1_ovf (s : State) (v : Word) : (s.setX1 v).ovf = s.ovf := rfl
@[simp] theorem State.setX1_resp (s : State) (v : Word) : (s.setX1 v).resp = s.resp := rfl
@[simp] theorem State.setX1_len (s : State) (v : Word) : (s.setX1 v).len = s.len := rfl
@[simp] theorem State.setX1_pt (s : State) (v : Word) : (s.setX1 v).pt = s.pt := rfl
@[simp] theorem State.setX1_hist (s : State) (v : Word) : (s.setX1 v).hist = s.hist := rfl
@[simp] theorem State.setX1_buf (s : State) (v : Word) : (s.setX1 v).buf = s.buf := rfl
@[simp] theorem State.setX1_cfg (s : State) (v : Word) : (s.setX1 v).cfg = s.cfg := rfl
@[simp] theorem State.setX1_pending (s : State) (v : Word) : (s.setX1 v).pending = s.pending := rfl
@[simp] theorem State.setX1_rdata (s : State) (v : Word) : (s.setX1 v).rdata = s.rdata := rfl
@[simp] theorem State.setX1_draws (s : State) (v : Word) : (s.setX1 v).draws = s.draws := rfl

/-! ### `State.setX2` -/

@[simp] theorem State.setX2_x1 (s : State) (v : Word) : (s.setX2 v).x1 = s.x1 := rfl
@[simp] theorem State.setX2_x2 (s : State) (v : Word) : (s.setX2 v).x2 = v := rfl
@[simp] theorem State.setX2_x (s : State) (v : Word) : (s.setX2 v).x = s.x := rfl
@[simp] theorem State.setX2_pfx (s : State) (v : Word) : (s.setX2 v).pfx = s.pfx := rfl
@[simp] theorem State.setX2_lastctx (s : State) (v : Word) : (s.setX2 v).lastctx = s.lastctx := rfl
@[simp] theorem State.setX2_lastp (s : State) (v : Word) : (s.setX2 v).lastp = s.lastp := rfl
@[simp] theorem State.setX2_pos (s : State) (v : Word) : (s.setX2 v).pos = s.pos := rfl
@[simp] theorem State.setX2_limit (s : State) (v : Word) : (s.setX2 v).limit = s.limit := rfl
@[simp] theorem State.setX2_mode (s : State) (v : Word) : (s.setX2 v).mode = s.mode := rfl
@[simp] theorem State.setX2_ovf (s : State) (v : Word) : (s.setX2 v).ovf = s.ovf := rfl
@[simp] theorem State.setX2_resp (s : State) (v : Word) : (s.setX2 v).resp = s.resp := rfl
@[simp] theorem State.setX2_len (s : State) (v : Word) : (s.setX2 v).len = s.len := rfl
@[simp] theorem State.setX2_pt (s : State) (v : Word) : (s.setX2 v).pt = s.pt := rfl
@[simp] theorem State.setX2_hist (s : State) (v : Word) : (s.setX2 v).hist = s.hist := rfl
@[simp] theorem State.setX2_buf (s : State) (v : Word) : (s.setX2 v).buf = s.buf := rfl
@[simp] theorem State.setX2_cfg (s : State) (v : Word) : (s.setX2 v).cfg = s.cfg := rfl
@[simp] theorem State.setX2_pending (s : State) (v : Word) : (s.setX2 v).pending = s.pending := rfl
@[simp] theorem State.setX2_rdata (s : State) (v : Word) : (s.setX2 v).rdata = s.rdata := rfl
@[simp] theorem State.setX2_draws (s : State) (v : Word) : (s.setX2 v).draws = s.draws := rfl

/-! ### `State.setX` -/

@[simp] theorem State.setX_x1 (s : State) (v : Word) : (s.setX v).x1 = s.x1 := rfl
@[simp] theorem State.setX_x2 (s : State) (v : Word) : (s.setX v).x2 = s.x2 := rfl
@[simp] theorem State.setX_x (s : State) (v : Word) : (s.setX v).x = v := rfl
@[simp] theorem State.setX_pfx (s : State) (v : Word) : (s.setX v).pfx = s.pfx := rfl
@[simp] theorem State.setX_lastctx (s : State) (v : Word) : (s.setX v).lastctx = s.lastctx := rfl
@[simp] theorem State.setX_lastp (s : State) (v : Word) : (s.setX v).lastp = s.lastp := rfl
@[simp] theorem State.setX_pos (s : State) (v : Word) : (s.setX v).pos = s.pos := rfl
@[simp] theorem State.setX_limit (s : State) (v : Word) : (s.setX v).limit = s.limit := rfl
@[simp] theorem State.setX_mode (s : State) (v : Word) : (s.setX v).mode = s.mode := rfl
@[simp] theorem State.setX_ovf (s : State) (v : Word) : (s.setX v).ovf = s.ovf := rfl
@[simp] theorem State.setX_resp (s : State) (v : Word) : (s.setX v).resp = s.resp := rfl
@[simp] theorem State.setX_len (s : State) (v : Word) : (s.setX v).len = s.len := rfl
@[simp] theorem State.setX_pt (s : State) (v : Word) : (s.setX v).pt = s.pt := rfl
@[simp] theorem State.setX_hist (s : State) (v : Word) : (s.setX v).hist = s.hist := rfl
@[simp] theorem State.setX_buf (s : State) (v : Word) : (s.setX v).buf = s.buf := rfl
@[simp] theorem State.setX_cfg (s : State) (v : Word) : (s.setX v).cfg = s.cfg := rfl
@[simp] theorem State.setX_pending (s : State) (v : Word) : (s.setX v).pending = s.pending := rfl
@[simp] theorem State.setX_rdata (s : State) (v : Word) : (s.setX v).rdata = s.rdata := rfl
@[simp] theorem State.setX_draws (s : State) (v : Word) : (s.setX v).draws = s.draws := rfl

/-! ### `State.advance` -/

@[simp] theorem State.advance_x1 (s : State) : s.advance.x1 = s.x1 := rfl
@[simp] theorem State.advance_x2 (s : State) : s.advance.x2 = s.x2 := rfl
@[simp] theorem State.advance_x (s : State) : s.advance.x = s.x := rfl
@[simp] theorem State.advance_pfx (s : State) : s.advance.pfx = s.pfx := rfl
@[simp] theorem State.advance_lastctx (s : State) : s.advance.lastctx = s.lastctx := rfl
@[simp] theorem State.advance_lastp (s : State) : s.advance.lastp = s.lastp := rfl
@[simp] theorem State.advance_pos (s : State) : s.advance.pos = s.pos + 1 := rfl
@[simp] theorem State.advance_limit (s : State) : s.advance.limit = s.limit := rfl
@[simp] theorem State.advance_mode (s : State) : s.advance.mode = s.mode := rfl
@[simp] theorem State.advance_ovf (s : State) : s.advance.ovf = s.ovf := rfl
@[simp] theorem State.advance_resp (s : State) : s.advance.resp = s.resp := rfl
@[simp] theorem State.advance_len (s : State) : s.advance.len = s.len := rfl
@[simp] theorem State.advance_pt (s : State) : s.advance.pt = s.pt := rfl
@[simp] theorem State.advance_hist (s : State) : s.advance.hist = s.hist := rfl
@[simp] theorem State.advance_buf (s : State) : s.advance.buf = s.buf := rfl
@[simp] theorem State.advance_cfg (s : State) : s.advance.cfg = s.cfg := rfl
@[simp] theorem State.advance_pending (s : State) : s.advance.pending = s.pending := rfl
@[simp] theorem State.advance_rdata (s : State) : s.advance.rdata = s.rdata := rfl
@[simp] theorem State.advance_draws (s : State) : s.advance.draws = s.draws := rfl

/-! ### `State.setMode` -/

@[simp] theorem State.setMode_x1 (s : State) (m : Mode) : (s.setMode m).x1 = s.x1 := rfl
@[simp] theorem State.setMode_x2 (s : State) (m : Mode) : (s.setMode m).x2 = s.x2 := rfl
@[simp] theorem State.setMode_x (s : State) (m : Mode) : (s.setMode m).x = s.x := rfl
@[simp] theorem State.setMode_pfx (s : State) (m : Mode) : (s.setMode m).pfx = s.pfx := rfl
@[simp] theorem State.setMode_lastctx (s : State) (m : Mode) : (s.setMode m).lastctx = s.lastctx := rfl
@[simp] theorem State.setMode_lastp (s : State) (m : Mode) : (s.setMode m).lastp = s.lastp := rfl
@[simp] theorem State.setMode_pos (s : State) (m : Mode) : (s.setMode m).pos = s.pos := rfl
@[simp] theorem State.setMode_limit (s : State) (m : Mode) : (s.setMode m).limit = s.limit := rfl
@[simp] theorem State.setMode_mode (s : State) (m : Mode) : (s.setMode m).mode = m := rfl
@[simp] theorem State.setMode_ovf (s : State) (m : Mode) : (s.setMode m).ovf = s.ovf := rfl
@[simp] theorem State.setMode_resp (s : State) (m : Mode) : (s.setMode m).resp = s.resp := rfl
@[simp] theorem State.setMode_len (s : State) (m : Mode) : (s.setMode m).len = s.len := rfl
@[simp] theorem State.setMode_pt (s : State) (m : Mode) : (s.setMode m).pt = s.pt := rfl
@[simp] theorem State.setMode_hist (s : State) (m : Mode) : (s.setMode m).hist = s.hist := rfl
@[simp] theorem State.setMode_buf (s : State) (m : Mode) : (s.setMode m).buf = s.buf := rfl
@[simp] theorem State.setMode_cfg (s : State) (m : Mode) : (s.setMode m).cfg = s.cfg := rfl
@[simp] theorem State.setMode_pending (s : State) (m : Mode) : (s.setMode m).pending = s.pending := rfl
@[simp] theorem State.setMode_rdata (s : State) (m : Mode) : (s.setMode m).rdata = s.rdata := rfl
@[simp] theorem State.setMode_draws (s : State) (m : Mode) : (s.setMode m).draws = s.draws := rfl

/-! ### `State.startPass` -/

@[simp] theorem State.startPass_x1 (s : State) (m : Mode) : (s.startPass m).x1 = 0x00000000 := rfl
@[simp] theorem State.startPass_x2 (s : State) (m : Mode) : (s.startPass m).x2 = 0xFFFFFFFF := rfl
@[simp] theorem State.startPass_x (s : State) (m : Mode) : (s.startPass m).x = 0 := rfl
@[simp] theorem State.startPass_pfx (s : State) (m : Mode) : (s.startPass m).pfx = 0 := rfl
@[simp] theorem State.startPass_lastctx (s : State) (m : Mode) : (s.startPass m).lastctx = 0 := rfl
@[simp] theorem State.startPass_lastp (s : State) (m : Mode) : (s.startPass m).lastp = 0 := rfl
@[simp] theorem State.startPass_pos (s : State) (m : Mode) : (s.startPass m).pos = 0 := rfl
@[simp] theorem State.startPass_limit (s : State) (m : Mode) : (s.startPass m).limit = s.len := rfl
@[simp] theorem State.startPass_mode (s : State) (m : Mode) : (s.startPass m).mode = m := rfl
@[simp] theorem State.startPass_ovf (s : State) (m : Mode) : (s.startPass m).ovf = false := rfl
@[simp] theorem State.startPass_resp (s : State) (m : Mode) : (s.startPass m).resp = s.resp := rfl
@[simp] theorem State.startPass_len (s : State) (m : Mode) : (s.startPass m).len = s.len := rfl
@[simp] theorem State.startPass_pt (s : State) (m : Mode) : (s.startPass m).pt = [] := rfl
@[simp] theorem State.startPass_hist (s : State) (m : Mode) : (s.startPass m).hist = [] := rfl
@[simp] theorem State.startPass_buf (s : State) (m : Mode) : (s.startPass m).buf = s.buf := rfl
@[simp] theorem State.startPass_cfg (s : State) (m : Mode) : (s.startPass m).cfg = s.cfg := rfl
@[simp] theorem State.startPass_pending (s : State) (m : Mode) : (s.startPass m).pending = s.pending := rfl
@[simp] theorem State.startPass_rdata (s : State) (m : Mode) : (s.startPass m).rdata = s.rdata := rfl
@[simp] theorem State.startPass_draws (s : State) (m : Mode) : (s.startPass m).draws = s.draws := rfl

/-! ### `State.respond` -/

@[simp] theorem State.respond_x1 (s : State) (c : Code) (b : Bool) : (s.respond c b).x1 = s.x1 := rfl
@[simp] theorem State.respond_x2 (s : State) (c : Code) (b : Bool) : (s.respond c b).x2 = s.x2 := rfl
@[simp] theorem State.respond_x (s : State) (c : Code) (b : Bool) : (s.respond c b).x = s.x := rfl
@[simp] theorem State.respond_pfx (s : State) (c : Code) (b : Bool) : (s.respond c b).pfx = s.pfx := rfl
@[simp] theorem State.respond_lastctx (s : State) (c : Code) (b : Bool) : (s.respond c b).lastctx = s.lastctx := rfl
@[simp] theorem State.respond_lastp (s : State) (c : Code) (b : Bool) : (s.respond c b).lastp = s.lastp := rfl
@[simp] theorem State.respond_pos (s : State) (c : Code) (b : Bool) : (s.respond c b).pos = s.pos := rfl
@[simp] theorem State.respond_limit (s : State) (c : Code) (b : Bool) : (s.respond c b).limit = s.limit := rfl
@[simp] theorem State.respond_mode (s : State) (c : Code) (b : Bool) : (s.respond c b).mode = s.mode := rfl
@[simp] theorem State.respond_ovf (s : State) (c : Code) (b : Bool) : (s.respond c b).ovf = s.ovf := rfl
@[simp] theorem State.respond_resp (s : State) (c : Code) (b : Bool) : (s.respond c b).resp = ⟨c, b⟩ := rfl
@[simp] theorem State.respond_len (s : State) (c : Code) (b : Bool) : (s.respond c b).len = s.len := rfl
@[simp] theorem State.respond_pt (s : State) (c : Code) (b : Bool) : (s.respond c b).pt = s.pt := rfl
@[simp] theorem State.respond_hist (s : State) (c : Code) (b : Bool) : (s.respond c b).hist = s.hist := rfl
@[simp] theorem State.respond_buf (s : State) (c : Code) (b : Bool) : (s.respond c b).buf = s.buf := rfl
@[simp] theorem State.respond_cfg (s : State) (c : Code) (b : Bool) : (s.respond c b).cfg = s.cfg := rfl
@[simp] theorem State.respond_pending (s : State) (c : Code) (b : Bool) : (s.respond c b).pending = s.pending := rfl
@[simp] theorem State.respond_rdata (s : State) (c : Code) (b : Bool) : (s.respond c b).rdata = s.rdata := rfl
@[simp] theorem State.respond_draws (s : State) (c : Code) (b : Bool) : (s.respond c b).draws = s.draws := rfl

/-! ### `State.raiseOverflow` -/

@[simp] theorem State.raiseOverflow_x1 (s : State) : s.raiseOverflow.x1 = s.x1 := rfl
@[simp] theorem State.raiseOverflow_x2 (s : State) : s.raiseOverflow.x2 = s.x2 := rfl
@[simp] theorem State.raiseOverflow_x (s : State) : s.raiseOverflow.x = s.x := rfl
@[simp] theorem State.raiseOverflow_pfx (s : State) : s.raiseOverflow.pfx = s.pfx := rfl
@[simp] theorem State.raiseOverflow_lastctx (s : State) : s.raiseOverflow.lastctx = s.lastctx := rfl
@[simp] theorem State.raiseOverflow_lastp (s : State) : s.raiseOverflow.lastp = s.lastp := rfl
@[simp] theorem State.raiseOverflow_pos (s : State) : s.raiseOverflow.pos = s.pos := rfl
@[simp] theorem State.raiseOverflow_limit (s : State) : s.raiseOverflow.limit = s.limit := rfl
@[simp] theorem State.raiseOverflow_mode (s : State) : s.raiseOverflow.mode = s.mode := rfl
@[simp] theorem State.raiseOverflow_ovf (s : State) : s.raiseOverflow.ovf = true := rfl
@[simp] theorem State.raiseOverflow_resp (s : State) : s.raiseOverflow.resp = ⟨.eOverflow, false⟩ := rfl
@[simp] theorem State.raiseOverflow_len (s : State) : s.raiseOverflow.len = s.len := rfl
@[simp] theorem State.raiseOverflow_pt (s : State) : s.raiseOverflow.pt = s.pt := rfl
@[simp] theorem State.raiseOverflow_hist (s : State) : s.raiseOverflow.hist = s.hist := rfl
@[simp] theorem State.raiseOverflow_buf (s : State) : s.raiseOverflow.buf = s.buf := rfl
@[simp] theorem State.raiseOverflow_cfg (s : State) : s.raiseOverflow.cfg = s.cfg := rfl
@[simp] theorem State.raiseOverflow_pending (s : State) : s.raiseOverflow.pending = s.pending := rfl
@[simp] theorem State.raiseOverflow_rdata (s : State) : s.raiseOverflow.rdata = s.rdata := rfl
@[simp] theorem State.raiseOverflow_draws (s : State) : s.raiseOverflow.draws = s.draws := rfl

/-! ### `State.ptSet` -/

@[simp] theorem State.ptSet_x1 (s : State) (ctx : Half) (c : Word) : (s.ptSet ctx c).x1 = s.x1 := rfl
@[simp] theorem State.ptSet_x2 (s : State) (ctx : Half) (c : Word) : (s.ptSet ctx c).x2 = s.x2 := rfl
@[simp] theorem State.ptSet_x (s : State) (ctx : Half) (c : Word) : (s.ptSet ctx c).x = s.x := rfl
@[simp] theorem State.ptSet_pfx (s : State) (ctx : Half) (c : Word) : (s.ptSet ctx c).pfx = s.pfx := rfl
@[simp] theorem State.ptSet_lastctx (s : State) (ctx : Half) (c : Word) : (s.ptSet ctx c).lastctx = s.lastctx := rfl
@[simp] theorem State.ptSet_lastp (s : State) (ctx : Half) (c : Word) : (s.ptSet ctx c).lastp = s.lastp := rfl
@[simp] theorem State.ptSet_pos (s : State) (ctx : Half) (c : Word) : (s.ptSet ctx c).pos = s.pos := rfl
@[simp] theorem State.ptSet_limit (s : State) (ctx : Half) (c : Word) : (s.ptSet ctx c).limit = s.limit := rfl
@[simp] theorem State.ptSet_mode (s : State) (ctx : Half) (c : Word) : (s.ptSet ctx c).mode = s.mode := rfl
@[simp] theorem State.ptSet_ovf (s : State) (ctx : Half) (c : Word) : (s.ptSet ctx c).ovf = s.ovf := rfl
@[simp] theorem State.ptSet_resp (s : State) (ctx : Half) (c : Word) : (s.ptSet ctx c).resp = s.resp := rfl
@[simp] theorem State.ptSet_len (s : State) (ctx : Half) (c : Word) : (s.ptSet ctx c).len = s.len := rfl
@[simp] theorem State.ptSet_pt (s : State) (ctx : Half) (c : Word) : (s.ptSet ctx c).pt = cellsSet (seedCell s.cfg) s.pt ctx.toNat c := rfl
@[simp] theorem State.ptSet_hist (s : State) (ctx : Half) (c : Word) : (s.ptSet ctx c).hist = s.hist := rfl
@[simp] theorem State.ptSet_buf (s : State) (ctx : Half) (c : Word) : (s.ptSet ctx c).buf = s.buf := rfl
@[simp] theorem State.ptSet_cfg (s : State) (ctx : Half) (c : Word) : (s.ptSet ctx c).cfg = s.cfg := rfl
@[simp] theorem State.ptSet_pending (s : State) (ctx : Half) (c : Word) : (s.ptSet ctx c).pending = s.pending := rfl
@[simp] theorem State.ptSet_rdata (s : State) (ctx : Half) (c : Word) : (s.ptSet ctx c).rdata = s.rdata := rfl
@[simp] theorem State.ptSet_draws (s : State) (ctx : Half) (c : Word) : (s.ptSet ctx c).draws = s.draws := rfl

/-! ### `State.histSet` -/

@[simp] theorem State.histSet_x1 (s : State) (k h : Byte) : (s.histSet k h).x1 = s.x1 := rfl
@[simp] theorem State.histSet_x2 (s : State) (k h : Byte) : (s.histSet k h).x2 = s.x2 := rfl
@[simp] theorem State.histSet_x (s : State) (k h : Byte) : (s.histSet k h).x = s.x := rfl
@[simp] theorem State.histSet_pfx (s : State) (k h : Byte) : (s.histSet k h).pfx = s.pfx := rfl
@[simp] theorem State.histSet_lastctx (s : State) (k h : Byte) : (s.histSet k h).lastctx = s.lastctx := rfl
@[simp] theorem State.histSet_lastp (s : State) (k h : Byte) : (s.histSet k h).lastp = s.lastp := rfl
@[simp] theorem State.histSet_pos (s : State) (k h : Byte) : (s.histSet k h).pos = s.pos := rfl
@[simp] theorem State.histSet_limit (s : State) (k h : Byte) : (s.histSet k h).limit = s.limit := rfl
@[simp] theorem State.histSet_mode (s : State) (k h : Byte) : (s.histSet k h).mode = s.mode := rfl
@[simp] theorem State.histSet_ovf (s : State) (k h : Byte) : (s.histSet k h).ovf = s.ovf := rfl
@[simp] theorem State.histSet_resp (s : State) (k h : Byte) : (s.histSet k h).resp = s.resp := rfl
@[simp] theorem State.histSet_len (s : State) (k h : Byte) : (s.histSet k h).len = s.len := rfl
@[simp] theorem State.histSet_pt (s : State) (k h : Byte) : (s.histSet k h).pt = s.pt := rfl
@[simp] theorem State.histSet_hist (s : State) (k h : Byte) : (s.histSet k h).hist = cellsSet (histDefault s.cfg) s.hist k.toNat h := rfl
@[simp] theorem State.histSet_buf (s : State) (k h : Byte) : (s.histSet k h).buf = s.buf := rfl
@[simp] theorem State.histSet_cfg (s : State) (k h : Byte) : (s.histSet k h).cfg = s.cfg := rfl
@[simp] theorem State.histSet_pending (s : State) (k h : Byte) : (s.histSet k h).pending = s.pending := rfl
@[simp] theorem State.histSet_rdata (s : State) (k h : Byte) : (s.histSet k h).rdata = s.rdata := rfl
@[simp] theorem State.histSet_draws (s : State) (k h : Byte) : (s.histSet k h).draws = s.draws := rfl

/-! ### `State.bufSet` -/

@[simp] theorem State.bufSet_x1 (s : State) (a : Word) (v : Byte) : (s.bufSet a v).x1 = s.x1 := rfl
@[simp] theorem State.bufSet_x2 (s : State) (a : Word) (v : Byte) : (s.bufSet a v).x2 = s.x2 := rfl
@[simp] theorem State.bufSet_x (s : State) (a : Word) (v : Byte) : (s.bufSet a v).x = s.x := rfl
@[simp] theorem State.bufSet_pfx (s : State) (a : Word) (v : Byte) : (s.bufSet a v).pfx = s.pfx := rfl
@[simp] theorem State.bufSet_lastctx (s : State) (a : Word) (v : Byte) : (s.bufSet a v).lastctx = s.lastctx := rfl
@[simp] theorem State.bufSet_lastp (s : State) (a : Word) (v : Byte) : (s.bufSet a v).lastp = s.lastp := rfl
@[simp] theorem State.bufSet_pos (s : State) (a : Word) (v : Byte) : (s.bufSet a v).pos = s.pos := rfl
@[simp] theorem State.bufSet_limit (s : State) (a : Word) (v : Byte) : (s.bufSet a v).limit = s.limit := rfl
@[simp] theorem State.bufSet_mode (s : State) (a : Word) (v : Byte) : (s.bufSet a v).mode = s.mode := rfl
@[simp] theorem State.bufSet_ovf (s : State) (a : Word) (v : Byte) : (s.bufSet a v).ovf = s.ovf := rfl
@[simp] theorem State.bufSet_resp (s : State) (a : Word) (v : Byte) : (s.bufSet a v).resp = s.resp := rfl
@[simp] theorem State.bufSet_len (s : State) (a : Word) (v : Byte) : (s.bufSet a v).len = s.len := rfl
@[simp] theorem State.bufSet_pt (s : State) (a : Word) (v : Byte) : (s.bufSet a v).pt = s.pt := rfl
@[simp] theorem State.bufSet_hist (s : State) (a : Word) (v : Byte) : (s.bufSet a v).hist = s.hist := rfl
@[simp] theorem State.bufSet_buf (s : State) (a : Word) (v : Byte) : (s.bufSet a v).buf = cellsSet bufDefault s.buf a.toNat v := rfl
@[simp] theorem State.bufSet_cfg (s : State) (a : Word) (v : Byte) : (s.bufSet a v).cfg = s.cfg := rfl
@[simp] theorem State.bufSet_pending (s : State) (a : Word) (v : Byte) : (s.bufSet a v).pending = s.pending := rfl
@[simp] theorem State.bufSet_rdata (s : State) (a : Word) (v : Byte) : (s.bufSet a v).rdata = s.rdata := rfl
@[simp] theorem State.bufSet_draws (s : State) (a : Word) (v : Byte) : (s.bufSet a v).draws = s.draws := rfl

/-! ### `State.setLen` -/

@[simp] theorem State.setLen_x1 (s : State) (n : Word) : (s.setLen n).x1 = s.x1 := rfl
@[simp] theorem State.setLen_x2 (s : State) (n : Word) : (s.setLen n).x2 = s.x2 := rfl
@[simp] theorem State.setLen_x (s : State) (n : Word) : (s.setLen n).x = s.x := rfl
@[simp] theorem State.setLen_pfx (s : State) (n : Word) : (s.setLen n).pfx = s.pfx := rfl
@[simp] theorem State.setLen_lastctx (s : State) (n : Word) : (s.setLen n).lastctx = s.lastctx := rfl
@[simp] theorem State.setLen_lastp (s : State) (n : Word) : (s.setLen n).lastp = s.lastp := rfl
@[simp] theorem State.setLen_pos (s : State) (n : Word) : (s.setLen n).pos = s.pos := rfl
@[simp] theorem State.setLen_limit (s : State) (n : Word) : (s.setLen n).limit = s.limit := rfl
@[simp] theorem State.setLen_mode (s : State) (n : Word) : (s.setLen n).mode = s.mode := rfl
@[simp] theorem State.setLen_ovf (s : State) (n : Word) : (s.setLen n).ovf = s.ovf := rfl
@[simp] theorem State.setLen_resp (s : State) (n : Word) : (s.setLen n).resp = s.resp := rfl
@[simp] theorem State.setLen_len (s : State) (n : Word) : (s.setLen n).len = n := rfl
@[simp] theorem State.setLen_pt (s : State) (n : Word) : (s.setLen n).pt = s.pt := rfl
@[simp] theorem State.setLen_hist (s : State) (n : Word) : (s.setLen n).hist = s.hist := rfl
@[simp] theorem State.setLen_buf (s : State) (n : Word) : (s.setLen n).buf = s.buf := rfl
@[simp] theorem State.setLen_cfg (s : State) (n : Word) : (s.setLen n).cfg = s.cfg := rfl
@[simp] theorem State.setLen_pending (s : State) (n : Word) : (s.setLen n).pending = s.pending := rfl
@[simp] theorem State.setLen_rdata (s : State) (n : Word) : (s.setLen n).rdata = s.rdata := rfl
@[simp] theorem State.setLen_draws (s : State) (n : Word) : (s.setLen n).draws = s.draws := rfl

/-! ### `State.setPending` -/

@[simp] theorem State.setPending_x1 (s : State) (rest : List HostAccess) : (s.setPending rest).x1 = s.x1 := rfl
@[simp] theorem State.setPending_x2 (s : State) (rest : List HostAccess) : (s.setPending rest).x2 = s.x2 := rfl
@[simp] theorem State.setPending_x (s : State) (rest : List HostAccess) : (s.setPending rest).x = s.x := rfl
@[simp] theorem State.setPending_pfx (s : State) (rest : List HostAccess) : (s.setPending rest).pfx = s.pfx := rfl
@[simp] theorem State.setPending_lastctx (s : State) (rest : List HostAccess) : (s.setPending rest).lastctx = s.lastctx := rfl
@[simp] theorem State.setPending_lastp (s : State) (rest : List HostAccess) : (s.setPending rest).lastp = s.lastp := rfl
@[simp] theorem State.setPending_pos (s : State) (rest : List HostAccess) : (s.setPending rest).pos = s.pos := rfl
@[simp] theorem State.setPending_limit (s : State) (rest : List HostAccess) : (s.setPending rest).limit = s.limit := rfl
@[simp] theorem State.setPending_mode (s : State) (rest : List HostAccess) : (s.setPending rest).mode = s.mode := rfl
@[simp] theorem State.setPending_ovf (s : State) (rest : List HostAccess) : (s.setPending rest).ovf = s.ovf := rfl
@[simp] theorem State.setPending_resp (s : State) (rest : List HostAccess) : (s.setPending rest).resp = s.resp := rfl
@[simp] theorem State.setPending_len (s : State) (rest : List HostAccess) : (s.setPending rest).len = s.len := rfl
@[simp] theorem State.setPending_pt (s : State) (rest : List HostAccess) : (s.setPending rest).pt = s.pt := rfl
@[simp] theorem State.setPending_hist (s : State) (rest : List HostAccess) : (s.setPending rest).hist = s.hist := rfl
@[simp] theorem State.setPending_buf (s : State) (rest : List HostAccess) : (s.setPending rest).buf = s.buf := rfl
@[simp] theorem State.setPending_cfg (s : State) (rest : List HostAccess) : (s.setPending rest).cfg = s.cfg := rfl
@[simp] theorem State.setPending_pending (s : State) (rest : List HostAccess) : (s.setPending rest).pending = rest := rfl
@[simp] theorem State.setPending_rdata (s : State) (rest : List HostAccess) : (s.setPending rest).rdata = s.rdata := rfl
@[simp] theorem State.setPending_draws (s : State) (rest : List HostAccess) : (s.setPending rest).draws = s.draws := rfl

/-! ### `State.answer` -/

@[simp] theorem State.answer_x1 (s : State) (v : Word) (d : Bool) : (s.answer v d).x1 = s.x1 := rfl
@[simp] theorem State.answer_x2 (s : State) (v : Word) (d : Bool) : (s.answer v d).x2 = s.x2 := rfl
@[simp] theorem State.answer_x (s : State) (v : Word) (d : Bool) : (s.answer v d).x = s.x := rfl
@[simp] theorem State.answer_pfx (s : State) (v : Word) (d : Bool) : (s.answer v d).pfx = s.pfx := rfl
@[simp] theorem State.answer_lastctx (s : State) (v : Word) (d : Bool) : (s.answer v d).lastctx = s.lastctx := rfl
@[simp] theorem State.answer_lastp (s : State) (v : Word) (d : Bool) : (s.answer v d).lastp = s.lastp := rfl
@[simp] theorem State.answer_pos (s : State) (v : Word) (d : Bool) : (s.answer v d).pos = s.pos := rfl
@[simp] theorem State.answer_limit (s : State) (v : Word) (d : Bool) : (s.answer v d).limit = s.limit := rfl
@[simp] theorem State.answer_mode (s : State) (v : Word) (d : Bool) : (s.answer v d).mode = s.mode := rfl
@[simp] theorem State.answer_ovf (s : State) (v : Word) (d : Bool) : (s.answer v d).ovf = s.ovf := rfl
@[simp] theorem State.answer_resp (s : State) (v : Word) (d : Bool) : (s.answer v d).resp = s.resp := rfl
@[simp] theorem State.answer_len (s : State) (v : Word) (d : Bool) : (s.answer v d).len = s.len := rfl
@[simp] theorem State.answer_pt (s : State) (v : Word) (d : Bool) : (s.answer v d).pt = s.pt := rfl
@[simp] theorem State.answer_hist (s : State) (v : Word) (d : Bool) : (s.answer v d).hist = s.hist := rfl
@[simp] theorem State.answer_buf (s : State) (v : Word) (d : Bool) : (s.answer v d).buf = s.buf := rfl
@[simp] theorem State.answer_cfg (s : State) (v : Word) (d : Bool) : (s.answer v d).cfg = s.cfg := rfl
@[simp] theorem State.answer_pending (s : State) (v : Word) (d : Bool) : (s.answer v d).pending = s.pending := rfl
@[simp] theorem State.answer_rdata (s : State) (v : Word) (d : Bool) : (s.answer v d).rdata = v := rfl
@[simp] theorem State.answer_draws (s : State) (v : Word) (d : Bool) : (s.answer v d).draws = if d then s.draws + 1 else s.draws := rfl

/-! ### `State.powerOn` -/

@[simp] theorem State.powerOn_x1 (s : State) : s.powerOn.x1 = 0 := rfl
@[simp] theorem State.powerOn_x2 (s : State) : s.powerOn.x2 = 0 := rfl
@[simp] theorem State.powerOn_x (s : State) : s.powerOn.x = 0 := rfl
@[simp] theorem State.powerOn_pfx (s : State) : s.powerOn.pfx = 0 := rfl
@[simp] theorem State.powerOn_lastctx (s : State) : s.powerOn.lastctx = 0 := rfl
@[simp] theorem State.powerOn_lastp (s : State) : s.powerOn.lastp = 0 := rfl
@[simp] theorem State.powerOn_pos (s : State) : s.powerOn.pos = 0 := rfl
@[simp] theorem State.powerOn_limit (s : State) : s.powerOn.limit = 0 := rfl
@[simp] theorem State.powerOn_mode (s : State) : s.powerOn.mode = .idle := rfl
@[simp] theorem State.powerOn_ovf (s : State) : s.powerOn.ovf = false := rfl
@[simp] theorem State.powerOn_resp (s : State) : s.powerOn.resp = ⟨.ok, false⟩ := rfl
@[simp] theorem State.powerOn_len (s : State) : s.powerOn.len = 0 := rfl
@[simp] theorem State.powerOn_pt (s : State) : s.powerOn.pt = [] := rfl
@[simp] theorem State.powerOn_hist (s : State) : s.powerOn.hist = [] := rfl
@[simp] theorem State.powerOn_buf (s : State) : s.powerOn.buf = s.buf := rfl
@[simp] theorem State.powerOn_cfg (s : State) : s.powerOn.cfg = s.cfg := rfl
@[simp] theorem State.powerOn_pending (s : State) : s.powerOn.pending = s.pending := rfl
@[simp] theorem State.powerOn_rdata (s : State) : s.powerOn.rdata = s.rdata := rfl
@[simp] theorem State.powerOn_draws (s : State) : s.powerOn.draws = s.draws := rfl

/-! ### `State.shiftBounds` -/

@[simp] theorem State.shiftBounds_x1 (s : State) : s.shiftBounds.x1 = shiftZero s.x1 := rfl
@[simp] theorem State.shiftBounds_x2 (s : State) : s.shiftBounds.x2 = shiftByte s.x2 0xFF := rfl
@[simp] theorem State.shiftBounds_x (s : State) : s.shiftBounds.x = s.x := rfl
@[simp] theorem State.shiftBounds_pfx (s : State) : s.shiftBounds.pfx = s.pfx := rfl
@[simp] theorem State.shiftBounds_lastctx (s : State) : s.shiftBounds.lastctx = s.lastctx := rfl
@[simp] theorem State.shiftBounds_lastp (s : State) : s.shiftBounds.lastp = s.lastp := rfl
@[simp] theorem State.shiftBounds_pos (s : State) : s.shiftBounds.pos = s.pos := rfl
@[simp] theorem State.shiftBounds_limit (s : State) : s.shiftBounds.limit = s.limit := rfl
@[simp] theorem State.shiftBounds_mode (s : State) : s.shiftBounds.mode = s.mode := rfl
@[simp] theorem State.shiftBounds_ovf (s : State) : s.shiftBounds.ovf = s.ovf := rfl
@[simp] theorem State.shiftBounds_resp (s : State) : s.shiftBounds.resp = s.resp := rfl
@[simp] theorem State.shiftBounds_len (s : State) : s.shiftBounds.len = s.len := rfl
@[simp] theorem State.shiftBounds_pt (s : State) : s.shiftBounds.pt = s.pt := rfl
@[simp] theorem State.shiftBounds_hist (s : State) : s.shiftBounds.hist = s.hist := rfl
@[simp] theorem State.shiftBounds_buf (s : State) : s.shiftBounds.buf = s.buf := rfl
@[simp] theorem State.shiftBounds_cfg (s : State) : s.shiftBounds.cfg = s.cfg := rfl
@[simp] theorem State.shiftBounds_pending (s : State) : s.shiftBounds.pending = s.pending := rfl
@[simp] theorem State.shiftBounds_rdata (s : State) : s.shiftBounds.rdata = s.rdata := rfl
@[simp] theorem State.shiftBounds_draws (s : State) : s.shiftBounds.draws = s.draws := rfl

/-! ### `State.narrow` -/

@[simp] theorem State.narrow_x1 (s : State) (bit : Bool) (mid : Word) : (s.narrow bit mid).x1 = if bit then s.x1 else mid + 1 := by
  cases bit <;> rfl
@[simp] theorem State.narrow_x2 (s : State) (bit : Bool) (mid : Word) : (s.narrow bit mid).x2 = if bit then mid else s.x2 := by
  cases bit <;> rfl
@[simp] theorem State.narrow_x (s : State) (bit : Bool) (mid : Word) : (s.narrow bit mid).x = s.x := by
  cases bit <;> rfl
@[simp] theorem State.narrow_pfx (s : State) (bit : Bool) (mid : Word) : (s.narrow bit mid).pfx = s.pfx := by
  cases bit <;> rfl
@[simp] theorem State.narrow_lastctx (s : State) (bit : Bool) (mid : Word) : (s.narrow bit mid).lastctx = s.lastctx := by
  cases bit <;> rfl
@[simp] theorem State.narrow_lastp (s : State) (bit : Bool) (mid : Word) : (s.narrow bit mid).lastp = s.lastp := by
  cases bit <;> rfl
@[simp] theorem State.narrow_pos (s : State) (bit : Bool) (mid : Word) : (s.narrow bit mid).pos = s.pos := by
  cases bit <;> rfl
@[simp] theorem State.narrow_limit (s : State) (bit : Bool) (mid : Word) : (s.narrow bit mid).limit = s.limit := by
  cases bit <;> rfl
@[simp] theorem State.narrow_mode (s : State) (bit : Bool) (mid : Word) : (s.narrow bit mid).mode = s.mode := by
  cases bit <;> rfl
@[simp] theorem State.narrow_ovf (s : State) (bit : Bool) (mid : Word) : (s.narrow bit mid).ovf = s.ovf := by
  cases bit <;> rfl
@[simp] theorem State.narrow_resp (s : State) (bit : Bool) (mid : Word) : (s.narrow bit mid).resp = s.resp := by
  cases bit <;> rfl
@[simp] theorem State.narrow_len (s : State) (bit : Bool) (mid : Word) : (s.narrow bit mid).len = s.len := by
  cases bit <;> rfl
@[simp] theorem State.narrow_pt (s : State) (bit : Bool) (mid : Word) : (s.narrow bit mid).pt = s.pt := by
  cases bit <;> rfl
@[simp] theorem State.narrow_hist (s : State) (bit : Bool) (mid : Word) : (s.narrow bit mid).hist = s.hist := by
  cases bit <;> rfl
@[simp] theorem State.narrow_buf (s : State) (bit : Bool) (mid : Word) : (s.narrow bit mid).buf = s.buf := by
  cases bit <;> rfl
@[simp] theorem State.narrow_cfg (s : State) (bit : Bool) (mid : Word) : (s.narrow bit mid).cfg = s.cfg := by
  cases bit <;> rfl
@[simp] theorem State.narrow_pending (s : State) (bit : Bool) (mid : Word) : (s.narrow bit mid).pending = s.pending := by
  cases bit <;> rfl
@[simp] theorem State.narrow_rdata (s : State) (bit : Bool) (mid : Word) : (s.narrow bit mid).rdata = s.rdata := by
  cases bit <;> rfl
@[simp] theorem State.narrow_draws (s : State) (bit : Bool) (mid : Word) : (s.narrow bit mid).draws = s.draws := by
  cases bit <;> rfl

/-! ### `State.predUpdate` -/

@[simp] theorem State.predUpdate_x1 (s : State) (bit : Bool) : (s.predUpdate bit).x1 = s.x1 := rfl
@[simp] theorem State.predUpdate_x2 (s : State) (bit : Bool) : (s.predUpdate bit).x2 = s.x2 := rfl
@[simp] theorem State.predUpdate_x (s : State) (bit : Bool) : (s.predUpdate bit).x = s.x := rfl
@[simp] theorem State.predUpdate_pfx (s : State) (bit : Bool) : (s.predUpdate bit).pfx = prefixNext s.pfx bit := rfl
@[simp] theorem State.predUpdate_lastctx (s : State) (bit : Bool) : (s.predUpdate bit).lastctx = s.lastctx := rfl
@[simp] theorem State.predUpdate_lastp (s : State) (bit : Bool) : (s.predUpdate bit).lastp = s.lastp := rfl
@[simp] theorem State.predUpdate_pos (s : State) (bit : Bool) : (s.predUpdate bit).pos = s.pos := rfl
@[simp] theorem State.predUpdate_limit (s : State) (bit : Bool) : (s.predUpdate bit).limit = s.limit := rfl
@[simp] theorem State.predUpdate_mode (s : State) (bit : Bool) : (s.predUpdate bit).mode = s.mode := rfl
@[simp] theorem State.predUpdate_ovf (s : State) (bit : Bool) : (s.predUpdate bit).ovf = s.ovf := rfl
@[simp] theorem State.predUpdate_resp (s : State) (bit : Bool) : (s.predUpdate bit).resp = s.resp := rfl
@[simp] theorem State.predUpdate_len (s : State) (bit : Bool) : (s.predUpdate bit).len = s.len := rfl
@[simp] theorem State.predUpdate_pt (s : State) (bit : Bool) : (s.predUpdate bit).pt = cellsSet (seedCell s.cfg) s.pt s.lastctx.toNat
      (updateCell s.cfg bit s.cfg.adaptLimit (s.ptGet s.lastctx)) := rfl
@[simp] theorem State.predUpdate_hist (s : State) (bit : Bool) : (s.predUpdate bit).hist = cellsSet (histDefault s.cfg) s.hist s.pfx.toNat
      (historyNext (s.histGet s.pfx) bit) := rfl
@[simp] theorem State.predUpdate_buf (s : State) (bit : Bool) : (s.predUpdate bit).buf = s.buf := rfl
@[simp] theorem State.predUpdate_cfg (s : State) (bit : Bool) : (s.predUpdate bit).cfg = s.cfg := rfl
@[simp] theorem State.predUpdate_pending (s : State) (bit : Bool) : (s.predUpdate bit).pending = s.pending := rfl
@[simp] theorem State.predUpdate_rdata (s : State) (bit : Bool) : (s.predUpdate bit).rdata = s.rdata := rfl
@[simp] theorem State.predUpdate_draws (s : State) (bit : Bool) : (s.predUpdate bit).draws = s.draws := rfl

/-! ### `State.codeBit` -/

@[simp] theorem State.codeBit_x1 (s : State) (bit : Bool) : (s.codeBit bit).x1 = if bit then s.x1 else s.split + 1 := by
  cases bit <;> rfl
@[simp] theorem State.codeBit_x2 (s : State) (bit : Bool) : (s.codeBit bit).x2 = if bit then s.split else s.x2 := by
  cases bit <;> rfl
@[simp] theorem State.codeBit_x (s : State) (bit : Bool) : (s.codeBit bit).x = s.x := by
  cases bit <;> rfl
@[simp] theorem State.codeBit_pfx (s : State) (bit : Bool) : (s.codeBit bit).pfx = prefixNext s.pfx bit := by
  cases bit <;> rfl
@[simp] theorem State.codeBit_lastctx (s : State) (bit : Bool) : (s.codeBit bit).lastctx = s.context := by
  cases bit <;> rfl
@[simp] theorem State.codeBit_lastp (s : State) (bit : Bool) : (s.codeBit bit).lastp = cellProb (s.ptGet s.context) := by
  cases bit <;> rfl
@[simp] theorem State.codeBit_pos (s : State) (bit : Bool) : (s.codeBit bit).pos = s.pos := by
  cases bit <;> rfl
@[simp] theorem State.codeBit_limit (s : State) (bit : Bool) : (s.codeBit bit).limit = s.limit := by
  cases bit <;> rfl
@[simp] theorem State.codeBit_mode (s : State) (bit : Bool) : (s.codeBit bit).mode = s.mode := by
  cases bit <;> rfl
@[simp] theorem State.codeBit_ovf (s : State) (bit : Bool) : (s.codeBit bit).ovf = s.ovf := by
  cases bit <;> rfl
@[simp] theorem State.codeBit_resp (s : State) (bit : Bool) : (s.codeBit bit).resp = s.resp := by
  cases bit <;> rfl
@[simp] theorem State.codeBit_len (s : State) (bit : Bool) : (s.codeBit bit).len = s.len := by
  cases bit <;> rfl
@[simp] theorem State.codeBit_pt (s : State) (bit : Bool) : (s.codeBit bit).pt = cellsSet (seedCell s.cfg) s.pt s.context.toNat
      (updateCell s.cfg bit s.cfg.adaptLimit (s.ptGet s.context)) := by
  cases bit <;> rfl
@[simp] theorem State.codeBit_hist (s : State) (bit : Bool) : (s.codeBit bit).hist = cellsSet (histDefault s.cfg) s.hist s.pfx.toNat
      (historyNext (s.histGet s.pfx) bit) := by
  cases bit <;> rfl
@[simp] theorem State.codeBit_buf (s : State) (bit : Bool) : (s.codeBit bit).buf = s.buf := by
  cases bit <;> rfl
@[simp] theorem State.codeBit_cfg (s : State) (bit : Bool) : (s.codeBit bit).cfg = s.cfg := by
  cases bit <;> rfl
@[simp] theorem State.codeBit_pending (s : State) (bit : Bool) : (s.codeBit bit).pending = s.pending := by
  cases bit <;> rfl
@[simp] theorem State.codeBit_rdata (s : State) (bit : Bool) : (s.codeBit bit).rdata = s.rdata := by
  cases bit <;> rfl
@[simp] theorem State.codeBit_draws (s : State) (bit : Bool) : (s.codeBit bit).draws = s.draws := by
  cases bit <;> rfl

end Sys2Proof.Machine
end

