-- ==== Sys2Proof/Laws/Memory.lean ====
section
/-!
SUPPORT. The laws of the tables and of the stream buffer in a state: a read after a write, and the canonical forms,
which hold at reset and which every operation keeps.
-/

namespace Sys2Proof.Machine

/-! ### A read after a write -/

theorem State.ptGet_ptSet_other (s : State) {ctx a : Half} (c : Word) (h : a ≠ ctx) :
    (s.ptSet ctx c).ptGet a = s.ptGet a :=
  cellsGet_set_other _ _ fun e => h (BitVec.eq_of_toNat_eq e)

theorem State.ptGet_ptSet_same (s : State) (ctx : Half) (c : Word) (hs : s.FormsOk) :
    (s.ptSet ctx c).ptGet ctx = c := cellsGet_set_same _ _ _ hs.2.1

theorem State.histGet_histSet_other (s : State) {k a : Byte} (h : Byte) (hne : a ≠ k) :
    (s.histSet k h).histGet a = s.histGet a :=
  cellsGet_set_other _ _ fun e => hne (BitVec.eq_of_toNat_eq e)

theorem State.histGet_histSet_same (s : State) (k h : Byte) (hs : s.FormsOk) : (s.histSet k h).histGet k = h :=
  cellsGet_set_same _ _ _ hs.2.2

theorem State.bufGet_bufSet_other (s : State) {i a : Word} (v : Byte) (h : a ≠ i) :
    (s.bufSet i v).bufGet a = s.bufGet a :=
  cellsGet_set_other _ _ fun e => h (BitVec.eq_of_toNat_eq e)

theorem State.bufGet_bufSet_same (s : State) (i : Word) (v : Byte) (hs : s.FormsOk) : (s.bufSet i v).bufGet i = v :=
  cellsGet_set_same _ _ _ hs.1

/-! ### Fields of a cell -/

theorem cellCount_packCell (e : Estimate) (c : Byte) : cellCount (packCell e c) = c := by
  ext i hi
  have : i < 32 := by omega
  simp [cellCount, packCell, hi, this]

theorem cellEstimate_packCell (e : Estimate) (c : Byte) : cellEstimate (packCell e c) = e := by
  ext i hi
  have h2 : 8 + i < 32 := by omega
  simp [cellEstimate, packCell, hi, h2]

/-- Every seed has the count `SEED_COUNT` (00_scope.md R5). -/
theorem cellCount_seedCell (c : Config) (i : Nat) : cellCount (seedCell c i) = c.seedCount :=
  cellCount_packCell _ _

/-- The count invariant holds wherever `PT` holds seeds alone: after every `INIT_*`. -/
theorem State.CountsOk.of_seeds {s : State} (h : s.pt = []) : s.CountsOk := by
  intro _ ctx
  simp only [State.ptGet, h, cellsGet_nil, cellCount_seedCell]
  exact ⟨BitVec.le_refl _, s.cfg.seedCount_le⟩

/-! ### The canonical forms -/

/-- The memory of the state after reset is canonical. -/
theorem memory_wf_reset : Memory.wf State.reset.buf = true := rfl

/-- Every store keeps the canonical form of the buffer. -/
theorem memory_wf_set (m : List Host.Cell) (a : Word) (v : Byte) (hm : Memory.wf m = true) :
    Memory.wf (cellsSet bufDefault m a.toNat v) = true :=
  cellsWf_set m a.toNat v hm (Nat.zero_le _) a.isLt

/-- Every write of a cell keeps the canonical form of `PT`. -/
theorem ptWf_set (c : Config) (t : List (Nat × Word)) (ctx : Half) (v : Word) (ht : ptWf c t = true) :
    ptWf c (cellsSet (seedCell c) t ctx.toNat v) = true :=
  cellsWf_set t ctx.toNat v ht (Nat.zero_le _) ctx.isLt

/-- Every write of an entry keeps the canonical form of `HIST`. -/
theorem histWf_set (c : Config) (t : List (Nat × Byte)) (k v : Byte) (ht : histWf c t = true) :
    histWf c (cellsSet (histDefault c) t k.toNat v) = true :=
  cellsWf_set t k.toNat v ht (Nat.zero_le _) k.isLt

/-- The forms depend on the tables, the buffer and the parameters alone. -/
theorem State.FormsOk.congr {s t : State} (hs : s.FormsOk) (hb : t.buf = s.buf) (hc : t.cfg = s.cfg)
    (hp : t.pt = s.pt) (hh : t.hist = s.hist) : t.FormsOk := by
  unfold State.FormsOk at *
  rw [hb, hc, hp, hh]
  exact hs

theorem State.FormsOk.bufSet {s : State} (hs : s.FormsOk) (a : Word) (v : Byte) : (s.bufSet a v).FormsOk :=
  ⟨memory_wf_set _ _ _ hs.1, hs.2.1, hs.2.2⟩

theorem State.FormsOk.predUpdate {s : State} (hs : s.FormsOk) (b : Bool) : (s.predUpdate b).FormsOk := by
  refine ⟨by simpa using hs.1, ?_, ?_⟩
  · simpa using ptWf_set _ _ _ _ hs.2.1
  · simpa using histWf_set _ _ _ _ hs.2.2

theorem State.FormsOk.codeBit {s : State} (hs : s.FormsOk) (b : Bool) : (s.codeBit b).FormsOk := by
  refine ⟨by simpa using hs.1, ?_, ?_⟩
  · simpa using ptWf_set _ _ _ _ hs.2.1
  · simpa using histWf_set _ _ _ _ hs.2.2

theorem State.FormsOk.startPass {s : State} (hs : s.FormsOk) (m : Mode) : (s.startPass m).FormsOk :=
  ⟨hs.1, rfl, rfl⟩

theorem State.FormsOk.powerOn {s : State} (hs : s.FormsOk) : s.powerOn.FormsOk := ⟨hs.1, rfl, rfl⟩

/-- What a predict answers after one more bit was coded at another context is unchanged. -/
theorem State.ptGet_codeBit_other (s : State) (b : Bool) {a : Half} (h : a ≠ s.context) :
    (s.codeBit b).ptGet a = s.ptGet a := by
  simp only [State.ptGet, State.codeBit_pt, State.codeBit_cfg]
  exact cellsGet_set_other _ _ fun e => h (BitVec.eq_of_toNat_eq e)

theorem State.ptGet_codeBit_same (s : State) (b : Bool) (hs : s.FormsOk) :
    (s.codeBit b).ptGet s.context = updateCell s.cfg b s.cfg.adaptLimit (s.ptGet s.context) := by
  simp only [State.ptGet, State.codeBit_pt, State.codeBit_cfg]
  exact cellsGet_set_same _ _ _ hs.2.1

theorem State.histGet_codeBit_other (s : State) (b : Bool) {k : Byte} (h : k ≠ s.pfx) :
    (s.codeBit b).histGet k = s.histGet k := by
  simp only [State.histGet, State.codeBit_hist, State.codeBit_cfg]
  exact cellsGet_set_other _ _ fun e => h (BitVec.eq_of_toNat_eq e)

theorem State.histGet_codeBit_same (s : State) (b : Bool) (hs : s.FormsOk) :
    (s.codeBit b).histGet s.pfx = historyNext (s.histGet s.pfx) b := by
  simp only [State.histGet, State.codeBit_hist, State.codeBit_cfg]
  exact cellsGet_set_same _ _ _ hs.2.2

end Sys2Proof.Machine
end

