-- ==== Sys2Proof/Laws/Coder.lean ====
section
/-!
SUPPORT. Everything the coder's shared operations can do, said once: a byte emit, a byte consume, and the two
renormalization loops, with an induction principle for each.
-/

namespace Sys2Proof.Machine

/-! ### Byte output and byte input -/

/-- The two ways a byte emit ends. -/
theorem State.emit_cases (s : State) (v : Byte) :
    (s.limit ≤ s.pos ∧ s.emit v = .overflowed s.raiseOverflow) ∨
    (s.pos < s.limit ∧ s.emit v = .completed (s.bufSet s.pos v).advance) := by
  unfold State.emit
  split
  · exact .inl ⟨by assumption, rfl⟩
  · exact .inr ⟨by simpa using ‹¬s.limit ≤ s.pos›, rfl⟩

/-- The two ways a byte is consumed into the needle. -/
theorem State.shiftNeedle_cases (s : State) :
    (s.pos < s.limit ∧ s.shiftNeedle = s.advance.setX (shiftByte s.x (s.bufGet s.pos))) ∨
    (¬s.pos < s.limit ∧ s.shiftNeedle = s.setX (shiftByte s.x 0)) := by
  by_cases h : s.pos < s.limit
  · exact .inl ⟨h, by simp only [State.shiftNeedle, State.nextByte, if_pos h, State.advance_x]⟩
  · exact .inr ⟨h, by simp only [State.shiftNeedle, State.nextByte, if_neg h]⟩

/-! ### The compress loop -/

/-- One round of `RENORM_ENC` that emits. -/
def State.emitRound (s : State) : State := (s.bufSet s.pos (topByte s.x2)).advance.shiftBounds

/-- The loop, unrolled by one round: it stops, overflows, or emits and goes on. -/
theorem State.renormEnc_succ (n : Nat) (s : State) :
    State.renormEnc (n + 1) s =
      if topByte s.x1 = topByte s.x2 then
        if s.limit ≤ s.pos then .overflowed s.raiseOverflow else State.renormEnc n s.emitRound
      else .completed s := by
  simp only [State.renormEnc]
  by_cases htop : topByte s.x1 = topByte s.x2
  · rw [if_pos htop, if_pos htop]
    rcases s.emit_cases (topByte s.x2) with ⟨hl, he⟩ | ⟨hl, he⟩
    · simp only [he, if_pos hl]
    · simp only [he, if_neg (BitVec.not_le.mpr hl), State.emitRound]
  · rw [if_neg htop, if_neg htop]

/-- Induction along the loop: what holds before it and is kept by every emitting round holds when it completes, and of
the state in which it overflows. -/
theorem State.renormEnc_induct {P : State → Prop}
    (round : ∀ s, P s → topByte s.x1 = topByte s.x2 → s.pos < s.limit → P s.emitRound) (n : Nat) :
    ∀ s, P s →
      (∃ t, State.renormEnc n s = .completed t ∧ P t) ∨
      (∃ t, State.renormEnc n s = .overflowed t.raiseOverflow ∧ P t ∧
        topByte t.x1 = topByte t.x2 ∧ t.limit ≤ t.pos) := by
  induction n with
  | zero => exact fun s hs => .inl ⟨s, rfl, hs⟩
  | succ n ih =>
    intro s hs
    rw [State.renormEnc_succ]
    split
    · rename_i htop
      split
      · exact .inr ⟨s, rfl, hs, htop, by assumption⟩
      · exact ih _ (round s hs htop (by simpa using ‹¬s.limit ≤ s.pos›))
    · exact .inl ⟨s, rfl, hs⟩

@[simp] theorem State.emitRound_x1 (s : State) : s.emitRound.x1 = shiftZero s.x1 := rfl
@[simp] theorem State.emitRound_x2 (s : State) : s.emitRound.x2 = shiftByte s.x2 0xFF := rfl
@[simp] theorem State.emitRound_pos (s : State) : s.emitRound.pos = s.pos + 1 := rfl
@[simp] theorem State.emitRound_limit (s : State) : s.emitRound.limit = s.limit := rfl
@[simp] theorem State.emitRound_buf (s : State) :
    s.emitRound.buf = cellsSet bufDefault s.buf s.pos.toNat (topByte s.x2) := rfl

/-- What an emitting round leaves alone: everything but the bounds, the cursor and the buffer. -/
theorem State.emitRound_frame (s : State) :
    s.emitRound = { s with
      x1 := shiftZero s.x1, x2 := shiftByte s.x2 0xFF
      pos := s.pos + 1, buf := cellsSet bufDefault s.buf s.pos.toNat (topByte s.x2) } := rfl

/-- What the compress loop leaves alone when it completes: everything but the bounds, the cursor and the buffer. -/
theorem State.renormEnc_frame {n : Nat} {s t : State} (h : State.renormEnc n s = .completed t) :
    t = { s with x1 := t.x1, x2 := t.x2, pos := t.pos, buf := t.buf } := by
  have := State.renormEnc_induct (P := fun u => u = { s with x1 := u.x1, x2 := u.x2, pos := u.pos, buf := u.buf })
    (fun u hu _ _ => by rw [hu]; rfl) n s rfl
  rcases this with ⟨u, hu, hP⟩ | ⟨u, hu, _⟩
  · rw [h] at hu
    cases hu
    exact hP
  · rw [h] at hu
    cases hu

/-- And when it overflows: besides those, only `OVF` and `RESP`. -/
theorem State.renormEnc_frame_overflow {n : Nat} {s t : State} (h : State.renormEnc n s = .overflowed t) :
    t = { s with
      x1 := t.x1, x2 := t.x2, pos := t.pos, buf := t.buf, ovf := true, resp := ⟨.eOverflow, false⟩ } := by
  have := State.renormEnc_induct (P := fun u => u = { s with x1 := u.x1, x2 := u.x2, pos := u.pos, buf := u.buf })
    (fun u hu _ _ => by rw [hu]; rfl) n s rfl
  rcases this with ⟨u, hu, _⟩ | ⟨u, hu, hP, _⟩
  · rw [h] at hu
    cases hu
  · rw [h] at hu
    cases hu
    rw [hP]
    rfl

/-! ### The decompress loop -/

/-- One round of `RENORM_DEC`. -/
def State.consumeRound (s : State) : State := s.shiftBounds.shiftNeedle

/-- Induction along the loop. -/
theorem State.renormDec_induct {P : State → Prop}
    (round : ∀ s, P s → topByte s.x1 = topByte s.x2 → P s.consumeRound) (n : Nat) :
    ∀ s, P s → P (State.renormDec n s) := by
  induction n with
  | zero => exact fun s hs => hs
  | succ n ih =>
    intro s hs
    simp only [State.renormDec]
    split
    · exact ih _ (round s hs (by assumption))
    · exact hs

/-- What consuming a byte leaves alone: everything but the needle and the cursor. -/
theorem State.shiftNeedle_frame (s : State) :
    s.shiftNeedle = { s with x := s.shiftNeedle.x, pos := s.shiftNeedle.pos } := by
  rcases s.shiftNeedle_cases with ⟨_, h⟩ | ⟨_, h⟩ <;> rw [h] <;> rfl

/-- What the decompress loop leaves alone: everything but the bounds, the needle and the cursor. -/
theorem State.renormDec_frame (n : Nat) (s : State) :
    State.renormDec n s =
      { s with
        x1 := (State.renormDec n s).x1, x2 := (State.renormDec n s).x2
        x := (State.renormDec n s).x, pos := (State.renormDec n s).pos } := by
  refine State.renormDec_induct (P := fun u => u = { s with x1 := u.x1, x2 := u.x2, x := u.x, pos := u.pos })
    (fun u hu _ => ?_) n s rfl
  unfold State.consumeRound
  rw [State.shiftNeedle_frame]
  generalize u.shiftBounds.shiftNeedle.x = a
  generalize u.shiftBounds.shiftNeedle.pos = b
  rw [hu]
  rfl

end Sys2Proof.Machine
end

