-- ==== Sys2Proof/Laws/Meanings.lean ====
section
/-!
SUPPORT. What a command, an access and a step can do, said once: a command always answers a next state, `execState` is that
state; a step runs the next pending access, and only a store that breaks the host's duty has none; issuing a command in a
script is the command and a read of its response.
-/

namespace Sys2Proof.Machine

/-! ### Commands -/

/-- The state after a command. -/
def execState (i : Instr) (s : State) : State :=
  match exec i s with
  | .next t => t
  | .fault _ => s
  | .refused _ => s

/-- Every command answers a next state, the one `execState` names. -/
theorem exec_eq_execState (i : Instr) (s : State) : exec i s = .next (execState i s) := by
  cases i with
  | initEnc => rfl
  | initDec => rfl
  | encodeBit b =>
    unfold execState exec execEncodeBit
    cases s.encodeRefusal <;> rfl
  | decodeBit =>
    unfold execState exec execDecodeBit
    cases s.decodeRefusal <;> rfl
  | flush =>
    unfold execState exec execFlush
    cases s.encodeRefusal with
    | some c => rfl
    | none =>
      simp only
      cases State.renormEnc maxRounds s <;> rfl

/-- The state a command answers is the one `execState` names. -/
theorem execState_of_exec {i : Instr} {s t : State} (h : exec i s = .next t) : t = execState i s := by
  rw [exec_eq_execState] at h
  cases h
  rfl

/-- Admission of the encode commands, as a case split. -/
theorem State.encodeRefusal_cases (s : State) :
    (s.mode ≠ .enc ∧ s.encodeRefusal = some .eMode) ∨
    (s.mode = .enc ∧ s.ovf = true ∧ s.encodeRefusal = some .eOverflow) ∨
    (s.mode = .enc ∧ s.ovf = false ∧ s.encodeRefusal = none) := by
  unfold State.encodeRefusal
  by_cases hm : s.mode = .enc
  · cases ho : s.ovf <;> simp [hm]
  · simp [hm]

/-- Admission of `DECODE_BIT`, as a case split. -/
theorem State.decodeRefusal_cases (s : State) :
    (s.mode ≠ .dec ∧ s.decodeRefusal = some .eMode) ∨ (s.mode = .dec ∧ s.decodeRefusal = none) := by
  unfold State.decodeRefusal
  by_cases hm : s.mode = .dec <;> simp [hm]

/-- `INIT_ENC`. -/
theorem execState_initEnc (s : State) : execState .initEnc s = (s.startPass .enc).respond .ok false := rfl

/-- `INIT_DEC`. -/
theorem execState_initDec (s : State) : execState .initDec s = (s.startPass .dec).preload.respond .ok false := rfl

/-- `ENCODE_BIT` where it executes. -/
theorem execState_encodeBit {s : State} (b : Bool) (hm : s.mode = .enc) (ho : s.ovf = false) :
    execState (.encodeBit b) s = (State.renormEnc maxRounds (s.codeBit b)).close := by
  simp [execState, exec, execEncodeBit, State.encodeRefusal, hm, ho]

/-- `DECODE_BIT` where it executes. -/
theorem execState_decodeBit {s : State} (hm : s.mode = .dec) :
    execState .decodeBit s = (State.renormDec maxRounds (s.codeBit s.decodedBit)).respond .ok s.decodedBit := by
  simp [execState, exec, execDecodeBit, State.decodeRefusal, hm]

/-- `FLUSH` where it executes. -/
theorem execState_flush {s : State} (hm : s.mode = .enc) (ho : s.ovf = false) :
    execState .flush s =
      match State.renormEnc maxRounds s with
      | .completed t => t.emitLast.close
      | .overflowed t => t := by
  simp only [execState, exec, execFlush, State.encodeRefusal, hm, ho]
  cases State.renormEnc maxRounds s <;> rfl

/-- A refused encode command changes `RESP` alone. -/
theorem execState_encode_refused {s : State} {c : Code} (b : Bool) (h : s.encodeRefusal = some c) :
    execState (.encodeBit b) s = s.respond c false ∧ execState .flush s = s.respond c false := by
  constructor
  · simp [execState, exec, execEncodeBit, h]
  · simp [execState, exec, execFlush, h]

/-- A refused `DECODE_BIT` changes `RESP` alone. -/
theorem execState_decode_refused {s : State} {c : Code} (h : s.decodeRefusal = some c) :
    execState .decodeBit s = s.respond c false := by
  simp [execState, exec, execDecodeBit, h]

/-! ### Steps -/

/-- The state after a write of `CMD`. -/
def afterCommand (v : Word) (s : State) : State :=
  match commandOf v with
  | .ok i => execState i s
  | .error _ => s.illegalCommand

/-- The state after an access. -/
def afterAccess (a : HostAccess) (s : State) : State :=
  match a with
  | .write offset v =>
    if regAt offset = some .cmd then afterCommand v s
    else if regAt offset = some .len then s.setLen v
    else s
  | .read offset => s.hostRead offset
  | .store index v => s.bufSet index v
  | .load index => s.hostLoad index
  | .powerOn => s.powerOn

theorem runCommand_eq (v : Word) (s : State) : runCommand v s = .next (afterCommand v s) := by
  unfold runCommand afterCommand
  cases commandOf v with
  | ok i => exact exec_eq_execState i s
  | error e => rfl

/-- A pass is over for what is still to arrive exactly when an access that restarts comes before every other command. -/
theorem passOver_iff (as : List HostAccess) :
    passOver as = true ↔ ∃ pre a post, as = pre ++ a :: post ∧ restarts a = true ∧ ∀ b ∈ pre, issuesCommand b = false := by
  induction as with
  | nil => simp [passOver]
  | cons c cs ih =>
    simp only [passOver, Bool.or_eq_true, Bool.and_eq_true, Bool.not_eq_true', ih]
    constructor
    · rintro (h | ⟨hc, pre, a, post, rfl, ha, hpre⟩)
      · exact ⟨[], c, cs, rfl, h, by simp⟩
      · exact ⟨c :: pre, a, post, rfl, ha, by simpa [hc] using hpre⟩
    · rintro ⟨pre, a, post, he, ha, hpre⟩
      cases pre with
      | nil =>
        cases he
        exact .inl ha
      | cons b bs =>
        cases he
        exact .inr ⟨hpre c (by simp), bs, a, post, rfl, ha, fun d hd => hpre d (by simp [hd])⟩

/-- A store the host's duty allows, and one it does not. -/
theorem State.hostStore_cases (s : State) (index : Word) (v : Byte) :
    ((s.owns index = true → passOver s.pending = true) ∧ s.hostStore index v = .next (s.bufSet index v)) ∨
    (s.owns index = true ∧ passOver s.pending = false ∧ s.hostStore index v = .refused .bufferInPass) := by
  unfold State.hostStore
  cases s.owns index <;> cases passOver s.pending <;> simp

/-- Every access that keeps the host's duty is answered by a next state. -/
theorem hostAccess_eq {a : HostAccess} {s : State} (h : s.KeepsDuty a s.pending) :
    hostAccess a s = .next (afterAccess a s) := by
  cases a with
  | write offset v =>
    simp only [hostAccess, hostWrite, afterAccess]
    generalize regAt offset = r
    cases r with
    | none => rfl
    | some r => cases r <;> first | exact runCommand_eq v s | rfl
  | read offset => rfl
  | store index v =>
    rcases s.hostStore_cases index v with ⟨_, he⟩ | ⟨ho, hp, _⟩
    · exact he
    · rw [h index v rfl ho] at hp
      cases hp
  | load index => rfl
  | powerOn => rfl

/-- An access that does not is a store, and has no move. -/
theorem hostAccess_refused {a : HostAccess} {s : State} (h : ¬s.KeepsDuty a s.pending) :
    hostAccess a s = .refused .bufferInPass := by
  simp only [State.KeepsDuty, not_forall] at h
  obtain ⟨index, v, rfl, ho, hp⟩ := h
  rcases s.hostStore_cases index v with ⟨hk, _⟩ | ⟨_, _, he⟩
  · exact absurd (hk ho) hp
  · exact he

/-- The accesses of a script are no stores, so the duty is kept. -/
theorem State.keepsDuty_of_no_store {s : State} {a : HostAccess} {rest : List HostAccess}
    (h : ∀ index v, a ≠ .store index v) : s.KeepsDuty a rest := fun index v e => absurd e (h index v)

/-- With nothing pending the engine waits. -/
theorem step_nil {s : State} (h : s.pending = []) : step s = .next s := by simp [step, nextAccess, h]

/-- A step runs the next pending access, where the host keeps its duty. -/
theorem step_cons {s : State} {a : HostAccess} {rest : List HostAccess} (h : s.pending = a :: rest)
    (hd : s.KeepsDuty a rest) : step s = .next (afterAccess a (s.setPending rest)) := by
  simp only [step, nextAccess, h]
  exact hostAccess_eq hd

/-- And where it does not there is no step. -/
theorem step_refused {s : State} {a : HostAccess} {rest : List HostAccess} (h : s.pending = a :: rest)
    (hd : ¬s.KeepsDuty a rest) : step s = .refused .bufferInPass := by
  simp only [step, nextAccess, h]
  exact hostAccess_refused hd

/-- Everything a step can do. -/
theorem step_cases {s t : State} (h : step s = .next t) :
    (s.pending = [] ∧ t = s) ∨
    ∃ a rest, s.pending = a :: rest ∧ s.KeepsDuty a rest ∧ t = afterAccess a (s.setPending rest) := by
  cases hp : s.pending with
  | nil =>
    rw [step_nil hp] at h
    cases h
    exact .inl ⟨rfl, rfl⟩
  | cons a rest =>
    by_cases hd : s.KeepsDuty a rest
    · rw [step_cons hp hd] at h
      cases h
      exact .inr ⟨a, rest, rfl, hd, rfl⟩
    · rw [step_refused hp hd] at h
      cases h

/-- Everything an access can do, for a property of the state before and after. -/
theorem afterAccess_induct {P : State → State → Prop} (s : State)
    (command : ∀ i, P s (execState i s)) (illegal : P s s.illegalCommand) (len : ∀ n, P s (s.setLen n)) (ignored : P s s)
    (answer : ∀ v d, P s (s.answer v d)) (store : ∀ i v, P s (s.bufSet i v)) (power : P s s.powerOn)
    (a : HostAccess) : P s (afterAccess a s) := by
  cases a with
  | write offset v =>
    simp only [afterAccess]
    split
    · unfold afterCommand
      cases commandOf v with
      | ok i => exact command i
      | error e => exact illegal
    · split
      · exact len v
      · exact ignored
  | read offset =>
    simp only [afterAccess, State.hostRead]
    generalize regAt offset = r
    cases r <;> exact answer _ _
  | store index v => exact store index v
  | load index => exact answer _ _
  | powerOn => exact power

/-! ### A command does not see what is still to arrive -/

theorem State.shiftNeedle_setPending (s : State) (p : List HostAccess) :
    (s.setPending p).shiftNeedle = s.shiftNeedle.setPending p := by
  rcases s.shiftNeedle_cases with ⟨h, e⟩ | ⟨h, e⟩ <;>
    rcases (s.setPending p).shiftNeedle_cases with ⟨h', e'⟩ | ⟨h', e'⟩ <;>
    first | exact absurd h h' | exact absurd h' h | skip
  all_goals rw [e, e']; rfl

theorem State.renormDec_setPending (n : Nat) (s : State) (p : List HostAccess) :
    State.renormDec n (s.setPending p) = (State.renormDec n s).setPending p := by
  induction n generalizing s with
  | zero => rfl
  | succ n ih =>
    have hp : (topByte (s.setPending p).x1 = topByte (s.setPending p).x2) = (topByte s.x1 = topByte s.x2) := rfl
    unfold State.renormDec
    by_cases h : topByte s.x1 = topByte s.x2
    · rw [if_pos h, if_pos (hp ▸ h), show (s.setPending p).shiftBounds = s.shiftBounds.setPending p from rfl,
        State.shiftNeedle_setPending, ih]
    · rw [if_neg h, if_neg (hp ▸ h)]

theorem State.codeBit_setPending (s : State) (b : Bool) (p : List HostAccess) :
    (s.setPending p).codeBit b = (s.codeBit b).setPending p := by cases b <;> rfl

/-- The same of how a phase ends. -/
def Emission.setPending (p : List HostAccess) : Emission → Emission
  | .completed s => .completed (s.setPending p)
  | .overflowed s => .overflowed (s.setPending p)

theorem Emission.close_setPending (e : Emission) (p : List HostAccess) :
    (e.setPending p).close = e.close.setPending p := by cases e <;> rfl

theorem State.renormEnc_setPending (n : Nat) (s : State) (p : List HostAccess) :
    State.renormEnc n (s.setPending p) = (State.renormEnc n s).setPending p := by
  induction n generalizing s with
  | zero => rfl
  | succ n ih =>
    have hp : (topByte (s.setPending p).x1 = topByte (s.setPending p).x2) = (topByte s.x1 = topByte s.x2) := rfl
    have hq : ((s.setPending p).limit ≤ (s.setPending p).pos) = (s.limit ≤ s.pos) := rfl
    simp only [State.renormEnc_succ]
    by_cases h : topByte s.x1 = topByte s.x2
    · by_cases hl : s.limit ≤ s.pos
      · rw [if_pos h, if_pos (hp ▸ h), if_pos hl, if_pos (hq ▸ hl)]
        rfl
      · rw [if_pos h, if_pos (hp ▸ h), if_neg hl, if_neg (hq ▸ hl)]
        exact ih s.emitRound
    · rw [if_neg h, if_neg (hp ▸ h)]
      rfl

theorem State.emitLast_setPending (s : State) (p : List HostAccess) :
    (s.setPending p).emitLast = s.emitLast.setPending p := by
  have hq : ((s.setPending p).limit ≤ (s.setPending p).pos) = (s.limit ≤ s.pos) := rfl
  unfold State.emitLast State.emit
  by_cases h : s.limit ≤ s.pos
  · rw [if_pos h, if_pos (hq ▸ h)]
    rfl
  · rw [if_neg h, if_neg (hq ▸ h)]
    rfl

/-- A command does not see the accesses still to arrive, and does not change them. -/
theorem execState_setPending (i : Instr) (s : State) (p : List HostAccess) :
    execState i (s.setPending p) = (execState i s).setPending p := by
  cases i with
  | initEnc => rfl
  | initDec =>
    simp only [execState_initDec, State.preload]
    rw [show (s.setPending p).startPass .dec = (s.startPass .dec).setPending p from rfl]
    simp only [State.shiftNeedle_setPending]
    rfl
  | encodeBit b =>
    rcases s.encodeRefusal_cases with ⟨_, h⟩ | ⟨_, _, h⟩ | ⟨hm, ho, _⟩
    · rw [(execState_encode_refused b h).1, (execState_encode_refused (s := s.setPending p) b h).1]
      rfl
    · rw [(execState_encode_refused b h).1, (execState_encode_refused (s := s.setPending p) b h).1]
      rfl
    · rw [execState_encodeBit b hm ho, execState_encodeBit (s := s.setPending p) b hm ho, State.codeBit_setPending,
        State.renormEnc_setPending, Emission.close_setPending]
  | decodeBit =>
    rcases s.decodeRefusal_cases with ⟨_, h⟩ | ⟨hm, _⟩
    · rw [execState_decode_refused h, execState_decode_refused (s := s.setPending p) h]
      rfl
    · rw [execState_decodeBit hm, execState_decodeBit (s := s.setPending p) hm,
        show (s.setPending p).decodedBit = s.decodedBit from rfl, State.codeBit_setPending, State.renormDec_setPending]
      rfl
  | flush =>
    rcases s.encodeRefusal_cases with ⟨_, h⟩ | ⟨_, _, h⟩ | ⟨hm, ho, _⟩
    · rw [(execState_encode_refused false h).2, (execState_encode_refused (s := s.setPending p) false h).2]
      rfl
    · rw [(execState_encode_refused false h).2, (execState_encode_refused (s := s.setPending p) false h).2]
      rfl
    · rw [execState_flush hm ho, execState_flush (s := s.setPending p) hm ho, State.renormEnc_setPending]
      cases State.renormEnc maxRounds s with
      | completed t =>
        rw [← Emission.close_setPending, ← State.emitLast_setPending]
        rfl
      | overflowed t => rfl

/-! ### Command scripts -/

/-- An access of a script is the state after it. -/
theorem runAccess_eq {a : HostAccess} {s : State} (h : ∀ index v, a ≠ .store index v) :
    runAccess a s = afterAccess a s := by
  rw [runAccess, hostAccess_eq (State.keepsDuty_of_no_store h)]

/-- The command word of a command, in a write of `CMD`, decodes to it. -/
theorem commandOf_commandWord (i : Instr) : commandOf (commandWord i) = .ok i := by
  cases i with
  | encodeBit b => cases b <;> rfl
  | _ => rfl

/-- Issuing a command in a script: the command, then its response in the host's hands. -/
theorem issue_eq (i : Instr) (s : State) :
    issue i s = (execState i s).answer (respWord (execState i s).resp) false := by
  have hw : runAccess (.write 0x00 (commandWord i)) s = execState i s := by
    rw [runAccess_eq (by simp)]
    simp [afterAccess, afterCommand, regAt, commandOf_commandWord]
  have hr (t : State) : runAccess (.read 0x04) t = t.answer (respWord t.resp) false := rfl
  simp only [issue, runAccesses, itemAccesses, List.foldl_cons, List.foldl_nil, hw, hr]

/-- `SET_LEN n` writes `LEN` alone. -/
theorem issueSetLen_eq (n : Word) (s : State) : issueSetLen n s = s.setLen n := rfl

/-- `CODE` of a response word. -/
theorem codeRead_respWord (r : Resp) (c : Code) :
    decide ((respWord r).extractLsb' 0 4 = codeBits c) = decide (r.code = c) := by
  obtain ⟨d, b⟩ := r
  cases d <;> cases b <;> cases c <;> decide

/-- `BIT` of a response word. -/
theorem bitRead_respWord (r : Resp) : (respWord r).getLsbD 4 = r.bit := by
  obtain ⟨d, b⟩ := r
  cases d <;> cases b <;> decide

/-- The code the host reads after a command is the command's. -/
theorem gotCode_issue (i : Instr) (s : State) (c : Code) :
    (issue i s).gotCode c = decide ((execState i s).resp.code = c) := by
  rw [issue_eq]
  exact codeRead_respWord _ _

/-- The bit the host reads after a command is the command's. -/
theorem gotBit_issue (i : Instr) (s : State) : (issue i s).gotBit = (execState i s).resp.bit := by
  rw [issue_eq]
  exact bitRead_respWord _

/-- The command a script issues leaves the response as the command does. -/
theorem issue_resp (i : Instr) (s : State) : (issue i s).resp = (execState i s).resp := by
  rw [issue_eq]
  rfl

end Sys2Proof.Machine
end

