-- ==== Sys2Proof/Laws/PerInstr.lean ====
section
/-!
SUPPORT. Statements for all commands, made per command: each command word matches its row of spec/opcode_table.json
(`(word AND mask) = match`, 30_encoding.md R62) and no other row.
-/

namespace Sys2Proof.Laws.TableRow

/-- The rows of the opcode map, `(mask, match)`, in the table's order. -/
def rows : List (Byte × Byte) := [(0xFF, 0x10), (0xFF, 0x20), (0xFE, 0x30), (0xFF, 0x40), (0xFF, 0x50)]

/-- The position of a command's row. -/
def rowOf : Instr → Nat
  | .initEnc => 0
  | .initDec => 1
  | .encodeBit _ => 2
  | .decodeBit => 3
  | .flush => 4

/-- The command's word matches its own row and no other. -/
def Statement (i : Instr) : Prop :=
  ∀ k, k < 5 → ((rows[k]?).any fun r => (encode i &&& r.1) == r.2) = decide (k = rowOf i)

theorem initEnc : Statement .initEnc := by unfold Statement; decide
theorem initDec : Statement .initDec := by unfold Statement; decide
theorem encodeBit (b : Bool) : Statement (.encodeBit b) := by cases b <;> (unfold Statement; decide)
theorem decodeBit : Statement .decodeBit := by unfold Statement; decide
theorem flush : Statement .flush := by unfold Statement; decide

end Sys2Proof.Laws.TableRow
end

