-- ==== Sys2Proof/Tests/Slice0.lean ====
section
/-!
SUPPORT. Small checks. Expected values are those of spec/95_test_vectors.md and of the worked examples of the rules,
never the model's own answers. The `witness_` theorems show states and operands that meet the hypotheses of the
statements.
-/

namespace Sys2Proof.Tests

open Sys2Proof.Machine

/-- A command's next state (the reset state where there is none). -/
def after (o : Host.Outcome State Fault Refusal) : State :=
  match o with
  | .next t => t
  | .fault _ => State.reset
  | .refused _ => State.reset

/-- A fresh compress pass with room for `n` bytes. -/
def enc (n : Word) : State := execState .initEnc (State.reset.setLen n)

/-- A fresh decompress pass over `n` bytes, the first of which is `b`. -/
def dec (n : Word) (b : Byte) : State := execState .initDec ((State.reset.bufSet 0 b).setLen n)

/-- A compress pass with the given bounds, `n` bytes written and room for `m` in all. -/
def passAt (x1 x2 n m : Word) : State := { enc m with x1 := x1, x2 := x2, pos := n }

/-! ### Well-formedness and configuration -/

/-- U14: a configuration with `SEED_COUNT > ADAPT_LIMIT` is refused. -/
theorem test_config_count_above_limit : Config.make 5 6 0x66 [] [] = none := by decide

theorem test_config_count_at_limit : (Config.make 6 6 0x66 [] []).isSome = true := by decide

/-- The index check: `DT` has 256 entries. -/
theorem test_config_rate_out_of_range : (Config.make 127 6 0x66 [(256, 1)] []).map Config.wellFormed = some false := by decide

/-- The index check: there are 65536 seeds. -/
theorem test_config_seed_out_of_range : (Config.make 127 6 0x66 [] [(65536, 1)]).map Config.wellFormed = some false := by decide

/-- The order check. -/
theorem test_config_rates_out_of_order : (Config.make 127 6 0x66 [(3, 1), (3, 2)] []).map Config.wellFormed = some false := by decide

theorem test_config_default_well_formed : Config.default.wellFormed = true := by decide

/-- R189: a command's operand is one bit, so no command is ill formed. -/
theorem test_encode_bit_well_formed : (Instr.encodeBit true).wellFormed = true := rfl

/-! ### Command words, 95_test_vectors.md 2.1, written from the fields `OPC Z B` of 30_encoding.md R60 and R62 -/

theorem test_decode_init_enc : decode 0b00010000 = .ok .initEnc := by decide
theorem test_decode_init_dec : decode 0b00100000 = .ok .initDec := by decide
theorem test_decode_encode_bit_0 : decode 0b00110000 = .ok (.encodeBit false) := by decide
theorem test_decode_encode_bit_1 : decode 0b00110001 = .ok (.encodeBit true) := by decide
theorem test_decode_decode_bit : decode 0b01000000 = .ok .decodeBit := by decide
theorem test_decode_flush : decode 0b01010000 = .ok .flush := by decide

theorem test_decode_illegal : decode 0x00 = .error .unknownOpcode ∧ decode 0x11 = .error .operandBitSet ∧
    decode 0x32 = .error .reservedBitsSet ∧ decode 0x41 = .error .operandBitSet ∧ decode 0x51 = .error .operandBitSet ∧
    decode 0x21 = .error .operandBitSet ∧ decode 0x60 = .error .unknownOpcode ∧ decode 0x70 = .error .unknownOpcode ∧
    decode 0xF0 = .error .unknownOpcode ∧ decode 0xFF = .error .reservedBitsSet := by decide

theorem test_table_words : decodeTableWord 8 0x10 = some .initEnc ∧ decodeTableWord 8 0x31 = some (.encodeBit true) ∧
    decodeTableWord 8 0x00 = none := by decide

/-- Response words, 95_test_vectors.md 2.1. -/
theorem test_response_words : respWord ⟨.ok, false⟩ = 0x00 ∧ respWord ⟨.ok, true⟩ = 0x10 ∧
    respWord ⟨.eOverflow, false⟩ = 0x01 ∧ respWord ⟨.eIllegal, false⟩ = 0x02 ∧ respWord ⟨.eMode, false⟩ = 0x03 := by
  decide

/-! ### The tables, 95_test_vectors.md 2.3 to 2.5 -/

theorem test_reciprocal_row_0 : (List.range 16).map (fun n => (dtEntry Config.default (BitVec.ofNat 8 n)).toNat) =
    [5461, 3276, 2340, 1820, 1489, 1260, 1092, 963, 862, 780, 712, 655, 606, 564, 528, 496] := by decide

theorem test_reciprocal_row_15 :
    (List.range 16).map (fun n => (dtEntry Config.default (BitVec.ofNat 8 (240 + n))).toNat) =
    [33, 33, 33, 33, 33, 33, 33, 32, 32, 32, 32, 32, 32, 32, 32, 31] := by decide

theorem test_seeds : seedCell Config.default 0x0000 = 0x30000006 ∧ seedCell Config.default 0x0001 = 0x50000006 ∧
    seedCell Config.default 0x0004 = 0x40000006 ∧ seedCell Config.default 0x0080 = 0x40000006 ∧
    seedCell Config.default 0xFF66 = 0x80000006 ∧ seedCell Config.default 0x00CC = 0x70000006 ∧
    seedCell Config.default 0xFFFF = 0xD0000006 := by decide

theorem test_update_one : updateCell Config.default true 127 0x80000006 = 0x88880007 ∧
    updateCell Config.default true 127 0x77780007 = 0x7F7E5E08 ∧
    updateCell Config.default true 127 0x1234567F = 0x131E6A7F ∧
    updateCell Config.default true 30 0xFFFFFF1E = 0x0000001E := by decide

theorem test_update_zero : updateCell Config.default false 127 0x77780007 = 0x70725E08 ∧
    updateCell Config.default false 127 0xFFFF007F = 0xFF03007F ∧
    updateCell Config.default false 127 0x1234567F = 0x12226A7F ∧
    updateCell Config.default false 255 0x800000FF = 0x7FC200FF := by decide

theorem test_predict : (State.reset.estPredict 0x0066).1 = 0x8000 ∧ (State.reset.estPredict 0x00CD).1 = 0x9000 := by decide

/-! ### Context, history, prefix, 95_test_vectors.md 2.6 -/

theorem test_context : contextOf 0x41 0x66 = 0x4166 ∧ contextOf 0x00 0xCD = 0x00CD := by decide

theorem test_history : historyNext 0x66 true = 0xCD ∧ historyNext 0x66 false = 0xCC ∧ historyNext 0xCD true = 0x9B ∧
    historyNext 0xFF true = 0xFF ∧ historyNext 0x80 false = 0x00 := by decide

theorem test_prefix : prefixNext 0x00 true = 0x01 ∧ prefixNext 0x50 false = 0xA0 ∧ prefixNext 0x7F true = 0xFF ∧
    prefixNext 0x80 false = 0x00 ∧ prefixNext 0x80 true = 0x00 ∧ prefixNext 0xFF true = 0x00 := by decide

/-! ### The interval, 95_test_vectors.md 2.7 and 2.8 -/

theorem test_midpoint : midpoint 0x00000000 0xFFFFFFFF 0x8000 = 0x7FFFFFFF ∧
    midpoint 0x00000000 0xFFFFFFFF 0xFFFF = 0xFFFEFFFF ∧ midpoint 0x00FFFFFF 0x01000000 0xFFFF = 0x00FFFFFF ∧
    midpoint 0x12FFFF00 0x13000100 0x8000 = 0x13000000 ∧ midpoint 0x00000000 0x0100FFFF 0xFFFF = 0x0100FEFE := by decide

/-- `AB12CD00, AB12CE00` emits `AB 12` and leaves `CD000000, CE00FFFF`. -/
theorem test_renorm_enc_two_bytes : (State.renormEnc maxRounds (passAt 0xAB12CD00 0xAB12CE00 0 16)).close.x2 = 0xCE00FFFF ∧
    (State.renormEnc maxRounds (passAt 0xAB12CD00 0xAB12CE00 0 16)).close.x1 = 0xCD000000 ∧
    (State.renormEnc maxRounds (passAt 0xAB12CD00 0xAB12CE00 0 16)).close.bufGet 0 = 0xAB ∧
    (State.renormEnc maxRounds (passAt 0xAB12CD00 0xAB12CE00 0 16)).close.bufGet 1 = 0x12 := by decide

/-- Room for one more byte: `12340000, 1234FFFF` emits `12`, shifts once, then overflows. -/
theorem test_renorm_enc_overflow : (State.renormEnc maxRounds (passAt 0x12340000 0x1234FFFF 0 1)).close.x1 = 0x34000000 ∧
    (State.renormEnc maxRounds (passAt 0x12340000 0x1234FFFF 0 1)).close.x2 = 0x34FFFFFF ∧
    (State.renormEnc maxRounds (passAt 0x12340000 0x1234FFFF 0 1)).close.ovf = true := by decide

/-- With the input exhausted, `5F000000, 5FFFFFFF` and `X = 5F7F0000` gives `X = 7F000000`. -/
theorem test_renorm_dec_past_the_end :
    (State.renormDec maxRounds { passAt 0x5F000000 0x5FFFFFFF 2 2 with x := 0x5F7F0000 }).x = 0x7F000000 ∧
    (State.renormDec maxRounds { passAt 0x5F000000 0x5FFFFFFF 2 2 with x := 0x5F7F0000 }).pos = 2 := by decide

/-! ### The commands -/

/-- P1 of 95_test_vectors.md: `SET_LEN 16`, `INIT_ENC`. -/
theorem test_init_enc : (enc 16).limit = 16 ∧ (enc 16).x2 = 0xFFFFFFFF ∧ (enc 16).regWord .status = 0x1 := by decide

/-- `LEN = 1`, `BUF = FF` gives `X = FF000000`, `POS = 1`. -/
theorem test_init_dec_short : (dec 1 0xFF).x = 0xFF000000 ∧ (dec 1 0xFF).pos = 1 := by decide

/-- `LEN = 5`, `BUF = 01 02 03 04 05` gives `X = 01020304`, `POS = 4`. -/
theorem test_init_dec_full :
    (execState .initDec ({ State.reset with buf := [(0, 1), (1, 2), (2, 3), (3, 4), (4, 5)] }.setLen 5)).x = 0x01020304 ∧
    (execState .initDec ({ State.reset with buf := [(0, 1), (1, 2), (2, 3), (3, 4), (4, 5)] }.setLen 5)).pos = 4 := by decide

/-- P1: the first `ENCODE_BIT 0`. -/
theorem test_encode_bit : (after (exec (.encodeBit false) (enc 16))).x1 = 0x80000000 ∧
    (after (exec (.encodeBit false) (enc 16))).ptGet 0x0066 = 0x77780007 ∧
    (after (exec (.encodeBit false) (enc 16))).histGet 0 = 0xCC ∧
    (after (exec (.encodeBit false) (enc 16))).pfx = 0 ∧ (after (exec (.encodeBit false) (enc 16))).pos = 0 := by decide

/-- P5: the bit that must emit `5F` with no room left: `X1` is narrowed and not shifted, the model is updated. -/
theorem test_encode_bit_overflow :
    (after (exec (.encodeBit false) { passAt 0x5E000000 0x5FFFFFFF 0 0 with pfx := 0x50 })).x1 = 0x5F000000 ∧
    (after (exec (.encodeBit false) { passAt 0x5E000000 0x5FFFFFFF 0 0 with pfx := 0x50 })).pfx = 0xA0 ∧
    (after (exec (.encodeBit false) { passAt 0x5E000000 0x5FFFFFFF 0 0 with pfx := 0x50 })).ovf = true ∧
    (after (exec (.encodeBit false) { passAt 0x5E000000 0x5FFFFFFF 0 0 with pfx := 0x50 })).resp = ⟨.eOverflow, false⟩ := by
  decide

/-- R133: `BUF = FF`, `LEN = 1`, the first bit is 0 and `X1` becomes `80000000`. -/
theorem test_decode_bit : (after (exec .decodeBit (dec 1 0xFF))).resp = ⟨.ok, false⟩ ∧
    (after (exec .decodeBit (dec 1 0xFF))).x1 = 0x80000000 := by decide

/-- R133: with `LEN = 0` the bit is 1. -/
theorem test_decode_bit_empty : (after (exec .decodeBit (dec 0 0xFF))).resp = ⟨.ok, true⟩ := by decide

/-- P2: `48000000, 7FFFFFFF` flushes `7F`. -/
theorem test_flush : (after (exec .flush (passAt 0x48000000 0x7FFFFFFF 1 16))).bufGet 1 = 0x7F ∧
    (after (exec .flush (passAt 0x48000000 0x7FFFFFFF 1 16))).pos = 2 ∧
    (after (exec .flush (passAt 0x48000000 0x7FFFFFFF 1 16))).mode = .done := by decide

/-- P4: the same with the buffer full. -/
theorem test_flush_overflow : (after (exec .flush (passAt 0x48000000 0x7FFFFFFF 1 1))).regWord .status = 5 ∧
    (after (exec .flush (passAt 0x48000000 0x7FFFFFFF 1 1))).regWord .resp = 1 := by decide

/-! ### Admission and refusal, 95_test_vectors.md 2.2 -/

theorem test_refused_in_idle : (after (exec (.encodeBit true) State.reset)).resp = ⟨.eMode, false⟩ ∧
    (after (exec .decodeBit State.reset)).resp = ⟨.eMode, false⟩ ∧
    (after (exec .flush State.reset)).resp = ⟨.eMode, false⟩ := by decide

theorem test_illegal_word_keeps_ovf :
    (after (step ({ enc 4 with ovf := true }.withFetchWord 8 0x32))).resp = ⟨.eIllegal, false⟩ ∧
    (after (step ({ enc 4 with ovf := true }.withFetchWord 8 0x32))).ovf = true := by decide

theorem test_init_dec_clears_ovf : (after (step ({ enc 4 with ovf := true }.withFetchWord 8 0x20))).ovf = false ∧
    (after (step ({ enc 4 with ovf := true }.withFetchWord 8 0x20))).mode = .dec := by decide

/-! ### The register block -/

theorem test_offsets : ∀ r : Reg, regAt (regOffset r) = some r := by intro r; cases r <;> rfl

theorem test_read_status : (after (step ((enc 4).setPending [.read 0x08]))).rdata = 1 := by decide

theorem test_write_len : (after (step (State.reset.setPending [.write 0x0C 0xFFFFFFFF]))).len = 0xFFFFFFFF := by decide

/-- R66: a command is a write of `CMD` and a read of `RESP`; `SET_LEN` assembles to no word. -/
theorem test_script : scriptAccesses [.setLen 16, .command .initEnc, .command (.encodeBit true)] =
    [.write 0x0C 16, .write 0x00 0x10, .read 0x04, .write 0x00 0x31, .read 0x04] ∧
    [.setLen 16, .command .flush].map itemWord = [none, some 0x50] := by decide

/-- The response the host reads: `E_MODE` is 3. -/
theorem test_issue : (issue .flush State.reset).rdata = 0x03 ∧ (issue .decodeBit (dec 0 0)).gotBit = true := by decide

/-- 95_test_vectors.md P2: the words of `ENCODE_BYTE 0x41` are `31 30 31 30 30 30 30 30 31`, those of `ENCODE_EOF`
`30 50`. -/
theorem test_sequences : (encodeByteCommands 0x41).map encode = [0x31, 0x30, 0x31, 0x30, 0x30, 0x30, 0x30, 0x30, 0x31] ∧
    encodeEofCommands.map encode = [0x30, 0x50] := by decide

/-! ### Invariants of the test states -/

theorem enc_forms (n : Word) : (enc n).FormsOk := ⟨rfl, rfl, rfl⟩

theorem passAt_forms (a b n m : Word) : (passAt a b n m).FormsOk := ⟨rfl, rfl, rfl⟩

theorem dec_forms : (dec 1 0xFF).FormsOk := ⟨rfl, rfl, rfl⟩

theorem enc_counts (n : Word) : (enc n).CountsOk := .of_seeds rfl

theorem enc_pass : (enc 4).PassOk := ⟨by decide, by decide, fun _ => by decide, by decide, by decide⟩

/-! ### Witnesses: each statement's hypotheses can be met -/

theorem witness_PowerOnAccessResetsTheEngine : ((enc 4).setPending [.powerOn]).pending = .powerOn :: [] := rfl

theorem witness_UnspecifiedStateIsNeverRead : State.reset.mode = .idle ∧ { State.reset with x1 := 7, pos := 9 }.mode = .idle ∧
    State.reset.len = { State.reset with x1 := 7, pos := 9 }.len ∧ State.reset ≠ { State.reset with x1 := 7, pos := 9 } := by decide

theorem witness_DecodeAndEncodeAgree : Instr.flush.wellFormed = true ∧ decode 0x31 = .ok (.encodeBit true) := by decide

theorem witness_StepRunsTheDecodedCommand : (State.reset.setPending [.write 0 0xABCDEF40]).pending = .write 0 0xABCDEF40 :: [] ∧
    decode ((0xABCDEF40 : Word).setWidth 8) = .ok .decodeBit ∧ Instr.decodeBit.wellFormed = true := by decide

theorem witness_IllegalWordsChangeOnlyResp : (State.reset.setPending [.write 0 0x10000011]).pending = .write 0 0x10000011 :: [] ∧
    (0x10000011 : Word).setWidth 8 ∉ [(0x10 : Byte), 0x20, 0x30, 0x31, 0x40, 0x50] := by decide

theorem witness_LenIsLatchedByInitAlone : (State.reset.setPending [.write 0x0C 5]).pending = .write 0x0C 5 :: [] ∧
    (State.reset.setPending [.read 0x0C]).pending = .read 0x0C :: [] ∧
    Instr.flush ≠ .initEnc ∧ Instr.flush ≠ .initDec := by decide

theorem witness_BufferAccessesAndOtherOffsets : (State.reset.setPending [.write 0x04 5]).pending = .write 0x04 5 :: [] ∧
    (0x04 : Nat) ≠ 0x00 ∧ (0x04 : Nat) ≠ 0x0C ∧ (State.reset.setPending [.read 0x2C]).pending = .read 0x2C :: [] ∧
    0x2C ∉ [0x00, 0x04, 0x08, 0x0C, 0x10, 0x14, 0x18, 0x1C, 0x20, 0x24, 0x28] ∧
    0x02 ∉ [0x00, 0x04, 0x08, 0x0C, 0x10, 0x14, 0x18, 0x1C, 0x20, 0x24, 0x28] := by decide

/-- A store at `POS` itself in a pass, one below `POS` before the next `INIT_DEC`, and a load. -/
theorem witness_BufferStores : (passAt 0 0xFFFFFFFF 2 4).FormsOk ∧
    (passAt 0 0xFFFFFFFF 2 4).KeepsDuty (.store 2 7) [.write 0 0x50] ∧
    (passAt 0 0xFFFFFFFF 2 4).KeepsDuty (.store 1 7) [.write 0x0C 2, .write 0 0x20] ∧
    ((enc 4).setPending [.load 3]).pending = .load 3 :: [] :=
  ⟨passAt_forms .., fun i _ e => by cases e; decide, fun _ _ _ _ => by decide, rfl⟩

theorem witness_RegisterReadsReturnTheirViews : ((enc 4).setPending [.read 0x28]).pending = .read 0x28 :: [] ∧
    ((enc 4).setPending [.read 0x28]).mode ≠ .idle ∧ State.reset.mode = .idle ∧
    0x08 ∉ [0x10, 0x14, 0x18, 0x1C, 0x20, 0x24, 0x28] := by decide

theorem witness_IdleViewsAreFreeValues : (State.reset.setPending [.read 0x20]).pending = .read 0x20 :: [] ∧
    (State.reset.setPending [.read 0x20]).mode = .idle ∧ 0x20 ∈ [0x10, 0x14, 0x18, 0x1C, 0x20, 0x24, 0x28] ∧
    0x28 ∈ [0x10, 0x14, 0x18, 0x1C, 0x20, 0x24, 0x28] := by decide

/-- Nothing pending; a store in `MODE = DEC` at `LIMIT`, which answers, and one below it, which has no move; one below
`LIMIT` before the next `INIT_ENC`, which answers; one below `POS` after an overflow, which has none. -/
theorem witness_EveryCommandAndStepAnswers : State.reset.pending = [] ∧
    ((dec 1 0xFF).mode = .dec ∧ (dec 1 0xFF).limit ≤ 1 ∧ (0 : Word) < (dec 1 0xFF).limit ∧
      passOver [.write 0 0x40, .write 0 0x20] = false ∧ passOver [.read 0x10, .write 0x0C 1, .write 0 0x10] = true) ∧
    ((passAt 0 0xFFFFFFFF 4 4).raiseOverflow.mode = .enc ∧ (3 : Word) < (passAt 0 0xFFFFFFFF 4 4).raiseOverflow.pos ∧
      passOver [] = false) := by decide

/-- 70_reset_and_hazards.md R215: a store into the input of a decompress pass has no move while a `DECODE_BIT` is to
come; before the next `INIT_DEC` it is how the host places the next stream (R212). -/
theorem test_store_in_a_pass :
    step ((dec 4 0xFF).setPending [.store 3 7, .write 0 0x40]) = .refused .bufferInPass ∧
    (after (step ((dec 4 0xFF).setPending [.store 3 7, .write 0x0C 4, .write 0 0x20]))).bufGet 3 = 7 :=
  ⟨rfl, by decide⟩

/-- The three outcomes of an admitted `ENCODE_BIT` or `FLUSH`, and a refused one. -/
theorem witness_ChecksDecideTheResponseInOrder :
    (∃ t, step ((enc 0).setPending [.write 0 0x50]) = .next t ∧ t.resp = ⟨.eOverflow, false⟩) ∧
    (∃ t, step ((enc 1).setPending [.write 0 0x50]) = .next t ∧ t.resp = ⟨.ok, false⟩) ∧
    (∃ t, step ((enc 1).setPending [.write 0 0x40]) = .next t ∧ t.resp = ⟨.eMode, false⟩) :=
  ⟨⟨_, rfl, by decide⟩, ⟨_, rfl, by decide⟩, ⟨_, rfl, by decide⟩⟩

theorem witness_RefusedCommandsChangeOnlyResp : State.reset.mode ≠ .enc ∧ (enc 1).mode ≠ .dec ∧
    { enc 1 with ovf := true }.mode = .enc ∧ { enc 1 with ovf := true }.ovf = true := by decide

theorem witness_InitEncStartsACompressPass : State.reset.len = 0 := rfl

theorem witness_PassInheritsNothing : (enc 4).len = (dec 4 0).len ∧ (enc 4).buf = (dec 4 0).buf ∧
    (enc 4).cfg = (dec 4 0).cfg ∧ (enc 4).pending = (dec 4 0).pending ∧ (enc 4).rdata = (dec 4 0).rdata ∧
    (enc 4).draws = (dec 4 0).draws ∧ (enc 4) ≠ (dec 4 0) := by decide

theorem witness_UpdateMovesTheEstimate : ((enc 4).noteQuery 0x0066 0x8000).FormsOk ∧ Config.default.seedCount < (127 : Byte) :=
  ⟨⟨rfl, rfl, rfl⟩, by decide⟩

/-- `0xFFFFFF1E` meets the hypothesis on a carry. -/
theorem witness_DefaultUpdateStaysInRange : (2 : Int) ^ 24 ≤ ((cellEstimate 0xFFFFFF1E).toNat : Int) +
    updateDelta true (cellSlice 0xFFFFFF1E) (dtEntry Config.default (cellCount 0xFFFFFF1E)) / 256 := by decide

theorem witness_StepKeepsCountsInRange : ((enc 4).setPending [.write 0 0x31]).FormsOk ∧
    ((enc 4).setPending [.write 0 0x31]).CountsOk ∧ ((enc 4).setPending [.write 0 0x31]).mode ≠ .idle ∧
    ∃ t, step ((enc 4).setPending [.write 0 0x31]) = .next t :=
  ⟨⟨rfl, rfl, rfl⟩, .of_seeds rfl, by decide, ⟨_, rfl⟩⟩

theorem witness_PredictorUpdateWritesThree : (enc 4).FormsOk := enc_forms 4

theorem witness_HistoryShiftsInEachBit : (enc 4).FormsOk ∧ (0 : Byte) = (enc 4).pfx ∧ (1 : Byte) ≠ (enc 4).pfx :=
  ⟨enc_forms 4, by decide, by decide⟩

theorem witness_PrefixAdvancesAndWraps : (127 : Byte).toNat ≤ 127 ∧ 128 ≤ (128 : Byte).toNat := by decide

theorem witness_MidpointIsExactAndInside : (0x00FFFFFF : Word) ≤ 0x01000000 ∧ (0x00FFFFFF : Word) < 0x01000000 := by decide

theorem witness_NarrowingSplitsTheInterval : (passAt 0x00FFFFFF 0x01000000 0 4).x1 < (passAt 0x00FFFFFF 0x01000000 0 4).x2 := by decide

theorem witness_CodedBitPhases : (enc 4).FormsOk := enc_forms 4

theorem witness_EmitChecksCapacityFirst : (passAt 0 1 4 4).FormsOk ∧ (passAt 0 1 4 4).limit ≤ (passAt 0 1 4 4).pos ∧
    (passAt 0 1 3 4).FormsOk ∧ (passAt 0 1 3 4).pos < (passAt 0 1 3 4).limit :=
  ⟨passAt_forms .., by decide, passAt_forms .., by decide⟩

theorem witness_NextByteReadsZeroPastTheEnd : (passAt 0 1 3 4).pos < (passAt 0 1 3 4).limit ∧
    (passAt 0 1 4 4).limit ≤ (passAt 0 1 4 4).pos := by decide

theorem witness_RenormEncEmitsTheSharedBytes : (passAt 0x12340000 0x1234FFFF 2 4).FormsOk ∧
    sharedBytes (passAt 0x12340000 0x1234FFFF 2 4).x1 (passAt 0x12340000 0x1234FFFF 2 4).x2 ≤ (passAt 0x12340000 0x1234FFFF 2 4).room ∧
    (passAt 0x12340000 0x1234FFFF 3 4).FormsOk ∧
    (passAt 0x12340000 0x1234FFFF 3 4).room < sharedBytes (passAt 0x12340000 0x1234FFFF 3 4).x1 (passAt 0x12340000 0x1234FFFF 3 4).x2 :=
  ⟨passAt_forms .., by decide, passAt_forms .., by decide⟩

theorem witness_RenormalizationStopsWithinFourRounds : 3 ≤ (passAt 0x12345678 0x12345678 1 4).room ∧
    (passAt 0x12345678 0x12345678 1 4).x1 = (passAt 0x12345678 0x12345678 1 4).x2 ∧
    (∃ t, State.renormEnc maxRounds (passAt 0x12340000 0x1234FFFF 0 4) = .completed t) ∧
    (0x12340000 : Word) ≤ 0x1234FFFF ∧ topByte 0x12340000 = topByte 0x1234FFFF :=
  ⟨by decide, rfl, ⟨_, rfl⟩, by decide, by decide⟩

theorem witness_EncodeBitCompletes : (passAt 0x5E000000 0x5FFFFFFF 3 4).FormsOk ∧ (passAt 0x5E000000 0x5FFFFFFF 3 4).mode = .enc ∧
    (passAt 0x5E000000 0x5FFFFFFF 3 4).ovf = false ∧
    sharedBytes ((passAt 0x5E000000 0x5FFFFFFF 3 4).codeBit false).x1 ((passAt 0x5E000000 0x5FFFFFFF 3 4).codeBit false).x2
      ≤ (passAt 0x5E000000 0x5FFFFFFF 3 4).room :=
  ⟨passAt_forms .., by decide, by decide, by decide⟩

theorem witness_EncodeBitOverflowKeepsPartialEffects : (passAt 0x5E000000 0x5FFFFFFF 4 4).FormsOk ∧
    (passAt 0x5E000000 0x5FFFFFFF 4 4).mode = .enc ∧ (passAt 0x5E000000 0x5FFFFFFF 4 4).ovf = false ∧
    (passAt 0x5E000000 0x5FFFFFFF 4 4).room <
      sharedBytes ((passAt 0x5E000000 0x5FFFFFFF 4 4).codeBit false).x1 ((passAt 0x5E000000 0x5FFFFFFF 4 4).codeBit false).x2 :=
  ⟨passAt_forms .., by decide, by decide, by decide⟩

theorem witness_DecodeBitCompletes : (dec 1 0xFF).mode = .dec ∧ State.reset.mode ≠ .dec := by decide

/-- One byte to write, and two with a shared byte first. -/
theorem witness_FlushCompletes : (passAt 0x48000000 0x7FFFFFFF 3 4).FormsOk ∧ (passAt 0x48000000 0x7FFFFFFF 3 4).mode = .enc ∧
    (passAt 0x48000000 0x7FFFFFFF 3 4).ovf = false ∧
    0 = sharedBytes (passAt 0x48000000 0x7FFFFFFF 3 4).x1 (passAt 0x48000000 0x7FFFFFFF 3 4).x2 ∧
    0 + 1 ≤ (passAt 0x48000000 0x7FFFFFFF 3 4).room ∧
    topByte (passAt 0x48000000 0x7FFFFFFF 3 4).x1 ≠ topByte (passAt 0x48000000 0x7FFFFFFF 3 4).x2 ∧
    1 = sharedBytes (passAt 0x48000000 0x48FFFFFF 2 4).x1 (passAt 0x48000000 0x48FFFFFF 2 4).x2 ∧
    1 + 1 ≤ (passAt 0x48000000 0x48FFFFFF 2 4).room :=
  ⟨passAt_forms .., by decide, by decide, by decide, by decide, by decide, by decide, by decide⟩

theorem witness_FlushOverflowStaysInCompressMode : (passAt 0x48000000 0x7FFFFFFF 4 4).FormsOk ∧
    (passAt 0x48000000 0x7FFFFFFF 4 4).mode = .enc ∧ (passAt 0x48000000 0x7FFFFFFF 4 4).ovf = false ∧
    (passAt 0x48000000 0x7FFFFFFF 4 4).room ≤
      sharedBytes (passAt 0x48000000 0x7FFFFFFF 4 4).x1 (passAt 0x48000000 0x7FFFFFFF 4 4).x2 ∧
    topByte (passAt 0x48000000 0x7FFFFFFF 4 4).x1 ≠ topByte (passAt 0x48000000 0x7FFFFFFF 4 4).x2 :=
  ⟨passAt_forms .., by decide, by decide, by decide, by decide⟩

theorem witness_InitFrame : ∃ t u, exec .initEnc State.reset = .next t ∧ exec .initDec State.reset = .next u :=
  ⟨_, _, rfl, rfl⟩

theorem witness_EncodeBitFrame : (∃ t, exec (.encodeBit false) (passAt 0x5E000000 0x5FFFFFFF 3 4) = .next t ∧ t.resp.code = .ok) ∧
    (passAt 0x5E000000 0x5FFFFFFF 3 4).mode = .enc ∧ ∃ t, exec (.encodeBit false) (dec 1 0xFF) = .next t ∧ (dec 1 0xFF).mode ≠ .enc :=
  ⟨⟨_, rfl, by decide⟩, by decide, _, rfl, by decide⟩

theorem witness_FlushFrame : (∃ t, exec .flush (passAt 0x48000000 0x7FFFFFFF 3 4) = .next t ∧ t.resp.code = .ok) ∧
    ∃ t, exec .flush (passAt 0x48000000 0x7FFFFFFF 4 4) = .next t ∧ t.resp.code ≠ .ok :=
  ⟨⟨_, rfl, by decide⟩, _, rfl, by decide⟩

theorem witness_DecodeBitFrame : (∃ t, exec .decodeBit (dec 1 0xFF) = .next t ∧ t.resp.code = .ok) ∧
    ∃ t, exec .decodeBit (enc 1) = .next t ∧ (enc 1).mode ≠ .dec :=
  ⟨⟨_, rfl, by decide⟩, _, rfl, by decide⟩

/-- Each writer of `MODE`. -/
theorem witness_ModeHasFourWriters : commandIn (.write 0 0x10) = some .initEnc ∧ commandIn (.write 0 0x20) = some .initDec ∧
    commandIn (.write 0 0x50) = some .flush ∧ commandIn .powerOn = none ∧
    ∃ t, step ((enc 1).setPending [.write 0 0x50]) = .next t ∧ t.resp.code = .ok :=
  ⟨by decide, by decide, by decide, rfl, _, rfl, by decide⟩

theorem witness_OverflowFlagIsSticky : restarts (.write 0 0x10) = true ∧ restarts (.write 0 0x31) = false ∧
    { enc 4 with ovf := true }.ovf = true ∧ { enc 4 with ovf := true }.mode = .enc ∧ (enc 0).ovf = false ∧
    ∃ t, step ((enc 0).setPending [.write 0 0x50]) = .next t ∧ t.ovf = true :=
  ⟨by decide, by decide, by decide, by decide, by decide, _, rfl, by decide⟩

theorem witness_CursorNeverDecreasesWithinAPass : ((enc 4).setPending [.write 0 0x50]).PassOk ∧
    ((enc 4).setPending [.write 0 0x50]).mode ≠ .idle ∧ restarts (.write 0 0x50) = false ∧
    ∃ t, step ((enc 4).setPending [.write 0 0x50]) = .next t :=
  ⟨⟨by decide, by decide, fun _ => by decide, by decide, by decide⟩, by decide, by decide, _, rfl⟩

theorem witness_ParametersNeverChange : ∃ t, step State.reset = .next t := ⟨_, rfl⟩

/-- A store at `POS` itself in a compress pass, and a command in a decompress pass. -/
theorem witness_WrittenBytesAreFinal : passOver [.write 0 0x31] = false ∧ (passAt 0 0xFFFFFFFF 2 4).mode = .enc ∧
    (1 : Word) < (passAt 0 0xFFFFFFFF 2 4).pos ∧
    (∃ t, step ((passAt 0 0xFFFFFFFF 2 4).setPending [.store 2 7, .write 0 0x31]) = .next t) ∧
    (dec 4 0xFF).mode = .dec ∧ (3 : Word) < (dec 4 0xFF).limit ∧
    ∃ t, step ((dec 4 0xFF).setPending [.write 0 0x40]) = .next t :=
  ⟨by decide, by decide, by decide, ⟨_, rfl⟩, by decide, by decide, _, rfl⟩

theorem witness_StepKeepsCanonicalForms : ((enc 4).setPending [.store 3 7]).FormsOk ∧
    ∃ t, step ((enc 4).setPending [.store 3 7]) = .next t := ⟨⟨rfl, rfl, rfl⟩, _, rfl⟩

theorem witness_StepKeepsThePassInvariant : (enc 4).PassOk ∧ ∃ t, step (enc 4) = .next t := ⟨enc_pass, _, rfl⟩

theorem witness_IntervalIsOpenBetweenCommands : (∃ t, exec .decodeBit (dec 1 0xFF) = .next t ∧ t.resp.code = .ok) ∧
    topByte (dec 1 0xFF).x1 < topByte (dec 1 0xFF).x2 ∧ (dec 1 0xFF).pos ≤ (dec 1 0xFF).limit :=
  ⟨⟨_, rfl, by decide⟩, by decide, by decide⟩

theorem witness_FlushByteLiesInTheInterval : (passAt 0x48000000 0x7FFFFFFF 3 4).FormsOk ∧
    (passAt 0x48000000 0x7FFFFFFF 3 4).mode = .enc ∧ (passAt 0x48000000 0x7FFFFFFF 3 4).ovf = false ∧
    topByte (passAt 0x48000000 0x7FFFFFFF 3 4).x1 < topByte (passAt 0x48000000 0x7FFFFFFF 3 4).x2 ∧
    (passAt 0x48000000 0x7FFFFFFF 3 4).pos < (passAt 0x48000000 0x7FFFFFFF 3 4).limit ∧
    (∃ t, exec .flush (passAt 0x48000000 0x7FFFFFFF 3 4) = .next t) ∧ (0x48 : Byte) < 0x49 ∧ (0x49 : Byte) ≤ 0x7F :=
  ⟨passAt_forms .., by decide, by decide, by decide, by decide, ⟨_, rfl⟩, by decide, by decide⟩

theorem witness_IntervalShrinks : (passAt 0x00FFFFFF 0x01000000 0 4).x1 < (passAt 0x00FFFFFF 0x01000000 0 4).x2 := by decide

theorem witness_LockstepNeedsOnlyTheModel : (enc 4).FormsOk ∧ (dec 1 0xFF).FormsOk ∧ SameModel (enc 4) (dec 1 0xFF) ∧
    (enc 4).mode = .enc ∧ (enc 4).ovf = false ∧ (dec 1 0xFF).mode = .dec ∧
    ∃ t u, exec (.encodeBit false) (enc 4) = .next t ∧ exec .decodeBit (dec 1 0xFF) = .next u ∧ u.resp.bit = false :=
  ⟨enc_forms 4, dec_forms, ⟨rfl, fun _ => rfl, fun _ => rfl, rfl⟩, by decide, by decide, by decide, _, _, rfl, rfl, by decide⟩

/-- The stream of no bits: `INIT_ENC`, `FLUSH` writes the one byte `FF`. -/
theorem witness_DecoderReproducesTheCodedBits : State.reset.FormsOk ∧ ∃ s0 e f d d0,
    exec .initEnc (State.reset.setLen 4) = .next s0 ∧ encodeBits [] s0 = some e ∧ exec .flush e = .next f ∧
    f.resp.code = .ok ∧ d.cfg = State.reset.cfg ∧ d.len = f.pos ∧ SameBytes d f f.pos.toNat ∧ exec .initDec d = .next d0 :=
  ⟨⟨rfl, rfl, rfl⟩, _, _, _, (execState .flush (enc 4)).setLen 1, _, rfl, rfl, rfl, by decide, rfl, by decide, fun _ _ => rfl, rfl⟩

theorem witness_DecompressInvertsCompress : State.reset.FormsOk ∧ ∃ f, compress [] 4 State.reset = (.count 1, f) ∧
    f.cfg = State.reset.cfg ∧ SameBytes f f 1 ∧ ([] : List Byte).length ≤ 0 :=
  ⟨⟨rfl, rfl, rfl⟩, (compress [] 4 State.reset).2, Prod.ext (by decide) rfl, by decide, fun _ _ => rfl, Nat.le_refl 0⟩

theorem witness_CompressTwice : State.reset.FormsOk ∧ (enc 4).FormsOk ∧ State.reset.cfg = (enc 4).cfg ∧ State.reset ≠ enc 4 :=
  ⟨⟨rfl, rfl, rfl⟩, enc_forms 4, rfl, by decide⟩

theorem witness_CompressIntoSmallBufferGivesAPrefix : State.reset.FormsOk ∧ (∃ f, compress [] 4 State.reset = (.count 1, f)) ∧
    (0 : Word).toNat < 1 :=
  ⟨⟨rfl, rfl, rfl⟩, ⟨(compress [] 4 State.reset).2, Prod.ext (by decide) rfl⟩, by decide⟩

theorem witness_ScriptCommandsWriteCmdThenReadResp :
    (State.reset.setPending (itemAccesses (.command .flush) ++ [])).pending = itemAccesses (.command .flush) ++ [] ∧
    (enc 4).pfx = 0 ∧ (issueAll (encodeByteCommands 0x41) (enc 4)).gotCode .ok = true := by
  decide

theorem witness_CompressIsTheRunOfItsAccesses :
    (State.reset.setPending (compressAccesses [] 4 ++ [])).pending = compressAccesses [] 4 ++ [] ∧
    ∃ f, compress [] 4 ((State.reset.setPending (compressAccesses [] 4 ++ [])).setPending []) = (.count 1, f) :=
  ⟨rfl, (compress [] 4 State.reset).2, Prod.ext (by decide) rfl⟩

theorem witness_EmptyInputDecodesOnesForever : (dec 0 0).mode = .dec ∧ (dec 0 0).x = 0 ∧ (dec 0 0).x1 = 0 ∧
    (dec 0 0).limit ≤ (dec 0 0).pos := by decide

end Sys2Proof.Tests
end

namespace Sys2Proof.Machine

/-! ## One induction for all commands of a pass -/

/-- `ENCODE_BIT`: refused, or the phases of the bit and the compress loop. -/
theorem execState_encodeBit_cases (b : Bool) (s : State) :
    (∃ c, s.encodeRefusal = some c ∧ execState (.encodeBit b) s = s.respond c false) ∨
    (s.mode = .enc ∧ s.ovf = false ∧
      execState (.encodeBit b) s = (State.renormEnc maxRounds (s.codeBit b)).close) := by
  rcases s.encodeRefusal_cases with ⟨_, h⟩ | ⟨_, _, h⟩ | ⟨hm, ho, _⟩
  · exact .inl ⟨_, h, (execState_encode_refused b h).1⟩
  · exact .inl ⟨_, h, (execState_encode_refused b h).1⟩
  · exact .inr ⟨hm, ho, execState_encodeBit b hm ho⟩

/-- `FLUSH`: refused, ended by an overflow of the compress loop, or by the last byte. -/
theorem execState_flush_cases (s : State) :
    (∃ c, s.encodeRefusal = some c ∧ execState .flush s = s.respond c false) ∨
    (s.mode = .enc ∧ s.ovf = false ∧
      ((∃ t, State.renormEnc maxRounds s = .overflowed t ∧ execState .flush s = t) ∨
        ∃ t, State.renormEnc maxRounds s = .completed t ∧ execState .flush s = t.emitLast.close)) := by
  rcases s.encodeRefusal_cases with ⟨_, h⟩ | ⟨_, _, h⟩ | ⟨hm, ho, _⟩
  · exact .inl ⟨_, h, (execState_encode_refused false h).2⟩
  · exact .inl ⟨_, h, (execState_encode_refused false h).2⟩
  · refine .inr ⟨hm, ho, ?_⟩
    rw [execState_flush hm ho]
    cases State.renormEnc maxRounds s with
    | overflowed t => exact .inl ⟨t, rfl, rfl⟩
    | completed t => exact .inr ⟨t, rfl, rfl⟩

/-- The two ways a `FLUSH` ends at the last byte. -/
theorem State.emitLast_close_cases (s : State) :
    (s.limit ≤ s.pos ∧ s.emitLast.close = s.raiseOverflow) ∨
    (s.pos < s.limit ∧
      s.emitLast.close = ((s.bufSet s.pos (topByte s.x2)).advance.setMode .done).respond .ok false) := by
  unfold State.emitLast
  rcases s.emit_cases (topByte s.x2) with ⟨hl, he⟩ | ⟨hl, he⟩ <;> rw [he]
  · exact .inl ⟨hl, rfl⟩
  · exact .inr ⟨hl, rfl⟩

/-- A predicate that every phase of a command of a pass keeps. -/
structure KeptByPhases (P : State → Prop) : Prop where
  respond : ∀ s c b, P s → P (s.respond c b)
  raiseOverflow : ∀ s, P s → P s.raiseOverflow
  codeBit : ∀ s b, P s → P (s.codeBit b)
  emit : ∀ s v, s.pos < s.limit → P s → P (s.bufSet s.pos v).advance
  shiftBounds : ∀ s, P s → P s.shiftBounds
  shiftNeedle : ∀ s, P s → P s.shiftNeedle
  finish : ∀ s, P s → P (s.setMode .done)

namespace KeptByPhases

variable {P : State → Prop} (k : KeptByPhases P)
include k

theorem renormEnc (n : Nat) {s : State} (hs : P s) :
    (∃ t, State.renormEnc n s = .completed t ∧ P t) ∨ ∃ t, State.renormEnc n s = .overflowed t ∧ P t := by
  have round (u : State) (hu : P u) (_ : topByte u.x1 = topByte u.x2) (hroom : u.pos < u.limit) : P u.emitRound :=
    k.shiftBounds _ (k.emit u _ hroom hu)
  rcases State.renormEnc_induct round n s hs with ⟨t, he, ht⟩ | ⟨t, he, ht, _⟩
  · exact .inl ⟨t, he, ht⟩
  · exact .inr ⟨_, he, k.raiseOverflow t ht⟩

theorem emitLast_close {s : State} (hs : P s) : P s.emitLast.close := by
  rcases s.emitLast_close_cases with ⟨_, he⟩ | ⟨hroom, he⟩ <;> rw [he]
  · exact k.raiseOverflow s hs
  · exact k.respond _ _ _ (k.finish _ (k.emit s _ hroom hs))

theorem encodeBit (b : Bool) {s : State} (hs : P s) : P (execState (.encodeBit b) s) := by
  rcases execState_encodeBit_cases b s with ⟨c, _, he⟩ | ⟨_, _, he⟩ <;> rw [he]
  · exact k.respond s c false hs
  · rcases k.renormEnc maxRounds (k.codeBit s b hs) with ⟨t, he, ht⟩ | ⟨t, he, ht⟩ <;> rw [he]
    · exact k.respond t _ _ ht
    · exact ht

theorem decodeBit {s : State} (hs : P s) : P (execState .decodeBit s) := by
  rcases s.decodeRefusal_cases with ⟨_, h⟩ | ⟨hm, _⟩
  · rw [execState_decode_refused h]
    exact k.respond s _ _ hs
  · rw [execState_decodeBit hm]
    have round (u : State) (hu : P u) (_ : topByte u.x1 = topByte u.x2) : P u.consumeRound :=
      k.shiftNeedle _ (k.shiftBounds u hu)
    exact k.respond _ _ _ (State.renormDec_induct round maxRounds _ (k.codeBit s _ hs))

theorem flush {s : State} (hs : P s) : P (execState .flush s) := by
  rcases execState_flush_cases s with ⟨c, _, he⟩ | ⟨_, _, ⟨t, hr, he⟩ | ⟨t, hr, he⟩⟩ <;> rw [he]
  · exact k.respond s c false hs
  all_goals
    rcases k.renormEnc maxRounds hs with ⟨u, hu, hP⟩ | ⟨u, hu, hP⟩ <;> rw [hr] at hu <;> cases hu
  · exact hP
  · exact k.emitLast_close hP

/-- Every command but `INIT_*` is made of the phases. -/
theorem of_not_init {i : Instr} (hne : i ≠ .initEnc) (hnd : i ≠ .initDec) {s : State} (hs : P s) :
    P (execState i s) := by
  cases i with
  | initEnc => exact absurd rfl hne
  | initDec => exact absurd rfl hnd
  | encodeBit b => exact k.encodeBit b hs
  | decodeBit => exact k.decodeBit hs
  | flush => exact k.flush hs

theorem initEnc {s : State} (start : P (s.startPass .enc)) : P (execState .initEnc s) := k.respond _ _ _ start

theorem initDec {s : State} (start : P (s.startPass .dec)) : P (execState .initDec s) :=
  k.respond _ _ _ (k.shiftNeedle _ (k.shiftNeedle _ (k.shiftNeedle _ (k.shiftNeedle _ start))))

/-- Every command keeps what the opening of a pass and the phases keep. -/
theorem command (start : ∀ s m, P s → P (s.startPass m)) (i : Instr) {s : State} (hs : P s) :
    P (execState i s) := by
  by_cases hne : i = .initEnc
  · exact hne ▸ k.initEnc (start s _ hs)
  by_cases hnd : i = .initDec
  · exact hnd ▸ k.initDec (start s _ hs)
  exact k.of_not_init hne hnd hs

end KeptByPhases

/-! ## The canonical forms -/

theorem State.FormsOk.shiftNeedle {s : State} (hs : s.FormsOk) : s.shiftNeedle.FormsOk := by
  rw [s.shiftNeedle_frame]
  exact hs.congr rfl rfl rfl rfl

theorem keptByPhases_formsOk : KeptByPhases State.FormsOk where
  respond _ _ _ hs := hs.congr rfl rfl rfl rfl
  raiseOverflow _ hs := hs.congr rfl rfl rfl rfl
  codeBit _ b hs := hs.codeBit b
  emit s v _ hs := (hs.bufSet s.pos v).congr rfl rfl rfl rfl
  shiftBounds _ hs := hs.congr rfl rfl rfl rfl
  shiftNeedle _ hs := hs.shiftNeedle
  finish _ hs := hs.congr rfl rfl rfl rfl

/-- Every command keeps the canonical forms. -/
theorem State.FormsOk.command {s : State} (hs : s.FormsOk) (i : Instr) : (execState i s).FormsOk :=
  keptByPhases_formsOk.command (fun _ m hs => hs.startPass m) i hs

/-- Every access keeps the canonical forms. -/
theorem State.FormsOk.access {s : State} (hs : s.FormsOk) (a : HostAccess) : (afterAccess a s).FormsOk :=
  afterAccess_induct (P := fun _ t => t.FormsOk) s
    (command := hs.command)
    (illegal := hs.congr rfl rfl rfl rfl)
    (len := fun _ => hs.congr rfl rfl rfl rfl)
    (ignored := hs)
    (answer := fun _ _ => hs.congr rfl rfl rfl rfl)
    (store := hs.bufSet)
    (power := hs.powerOn)
    a

theorem State.FormsOk.setPending {s : State} (hs : s.FormsOk) (rest : List HostAccess) : (s.setPending rest).FormsOk :=
  hs.congr rfl rfl rfl rfl

/-- Settles O50: a step waits or makes one access, and every access keeps the forms. -/
theorem stepKeepsCanonicalForms : Obligations.StepKeepsCanonicalForms := by
  intro s t hs hstep
  rcases step_cases hstep with ⟨_, rfl⟩ | ⟨a, rest, _, _, rfl⟩
  · exact hs
  · exact (hs.setPending rest).access a

/-- Settles O52: no entry is listed at reset, and the pass and count invariants speak of the other modes. -/
theorem invariantsHoldAtReset : Obligations.InvariantsHoldAtReset := by
  refine ⟨⟨rfl, rfl, rfl⟩, ?_, State.CountsOk.of_seeds rfl⟩
  constructor <;> simp [State.reset, State.Coding]

/-! ## What an access does -/

/-- The block lists each register at its own offset and nothing else (10_state.md R20). -/
theorem regAt_eq_some_iff {offset : Nat} {r : Reg} : regAt offset = some r ↔ offset = regOffset r := by
  constructor
  · intro h
    unfold regAt at h
    split at h <;> cases h <;> rfl
  · rintro rfl
    cases r <;> rfl

/-- The state after a write, by the offset. -/
theorem afterAccess_write (offset : Nat) (v : Word) (s : State) :
    afterAccess (.write offset v) s =
      if offset = 0x00 then afterCommand v s else if offset = 0x0C then s.setLen v else s := by
  simp only [afterAccess, regAt_eq_some_iff, regOffset]

/-- The command a write issues. -/
theorem commandIn_write (offset : Nat) (v : Word) (i : Instr) :
    commandIn (.write offset v) = some i ↔ offset = 0x00 ∧ commandOf v = .ok i := by
  cases offset with
  | zero =>
    simp only [commandIn]
    cases commandOf v <;> simp
  | succ n => simp [commandIn]

/-- Everything an access can be: a command, power-on reset, or one that changes no register of the engine but `RESP`
and `LEN`. -/
theorem afterAccess_cases (a : HostAccess) (s : State) :
    (∃ i, commandIn a = some i ∧ a ≠ .powerOn ∧ afterAccess a s = execState i s) ∨
    (a = .powerOn ∧ afterAccess a s = s.powerOn) ∨
    (commandIn a = none ∧ a ≠ .powerOn ∧ ∃ resp len buf rdata draws,
      afterAccess a s = { s with resp := resp, len := len, buf := buf, rdata := rdata, draws := draws }) := by
  cases a with
  | write offset v =>
    rw [afterAccess_write]
    cases hi : commandIn (.write offset v) with
    | some i =>
      obtain ⟨rfl, hv⟩ := (commandIn_write offset v i).mp hi
      exact .inl ⟨i, rfl, nofun, by simp [afterCommand, hv]⟩
    | none =>
      refine .inr (.inr ⟨rfl, nofun, ?_⟩)
      split
      · subst offset
        unfold afterCommand
        cases hv : commandOf v with
        | ok i => simp [(commandIn_write 0 v i).mpr ⟨rfl, hv⟩] at hi
        | error e => exact ⟨_, _, _, _, _, rfl⟩
      · split <;> exact ⟨_, _, _, _, _, rfl⟩
  | read offset =>
    refine .inr (.inr ⟨rfl, nofun, ?_⟩)
    simp only [afterAccess, State.hostRead]
    cases regAt offset <;> exact ⟨_, _, _, _, _, rfl⟩
  | store index v => exact .inr (.inr ⟨rfl, nofun, _, _, _, _, _, rfl⟩)
  | load index => exact .inr (.inr ⟨rfl, nofun, _, _, _, _, _, rfl⟩)
  | powerOn => exact .inr (.inl ⟨rfl, rfl⟩)

/-- What a step that takes an access off the list answers. -/
theorem eq_afterAccess_of_step {s t : State} {a : HostAccess} {rest : List HostAccess} (hp : s.pending = a :: rest)
    (h : step s = .next t) : t = afterAccess a (s.setPending rest) := by
  rcases step_cases h with ⟨hnil, _⟩ | ⟨a', rest', hp', _, ht⟩
  · rw [hp] at hnil
    cases hnil
  · rw [hp] at hp'
    cases hp'
    exact ht

/-- An access that issues a command is that command. -/
theorem afterAccess_of_commandIn {a : HostAccess} {i : Instr} (h : commandIn a = some i) (s : State) :
    afterAccess a s = execState i s := by
  rcases afterAccess_cases a s with ⟨j, hj, _, he⟩ | ⟨rfl, _⟩ | ⟨hn, _⟩
  · rw [h] at hj
    cases hj
    exact he
  · cases h
  · rw [h] at hn
    cases hn

/-- A step on a command word runs the command, with the access taken off the list. -/
theorem step_command {s : State} {a : HostAccess} {rest : List HostAccess} {i : Instr} (hp : s.pending = a :: rest)
    (hi : commandIn a = some i) : step s = exec i (s.setPending rest) := by
  have hstore (index : Word) (v : Byte) : a ≠ .store index v := by
    rintro rfl
    cases hi
  rw [step_cons hp (State.keepsDuty_of_no_store hstore), afterAccess_of_commandIn hi, exec_eq_execState]

/-- The command word of a command, as its bits stand in the opcode table, decodes to it. -/
theorem commandOf_tableWord_encode (i : Instr) : commandOf (tableWord 8 (encode i).toNat) = .ok i := by
  cases i with
  | encodeBit b => cases b <;> rfl
  | _ => rfl

/-- Settles O6: a write of a command word is its command, and `withFetchWord` puts such a write first. -/
theorem stepRunsTheDecodedCommand : Obligations.StepRunsTheDecodedCommand := by
  constructor
  · intro s v rest i hp hv _
    exact step_command hp ((commandIn_write 0x00 v i).mpr ⟨rfl, hv⟩)
  · intro s i
    exact step_command (s := s.withFetchWord 8 (encode i).toNat) (rest := s.pending) rfl
      ((commandIn_write _ _ i).mpr ⟨rfl, commandOf_tableWord_encode i⟩)

/-- Settles O1: the reset values, as `State.reset` lists them. -/
theorem resetFlagsAndHostRegisters : Obligations.ResetFlagsAndHostRegisters :=
  ⟨rfl, rfl, rfl, rfl, by decide, by decide, rfl⟩

/-- Settles O2: the access is always answered, by `State.powerOn`. -/
theorem powerOnAccessResetsTheEngine : Obligations.PowerOnAccessResetsTheEngine := by
  intro s rest hp
  exact ⟨_, step_cons hp (State.keepsDuty_of_no_store nofun), rfl, rfl, rfl, rfl, rfl, rfl, rfl⟩

/-! ## Reads of the register block -/

/-- A read of a register answers its word. -/
theorem State.hostRead_regOffset (s : State) (r : Reg) :
    s.hostRead (regOffset r) = s.answer (s.regWord r) (s.drawsOn r) := by
  simp only [State.hostRead, regAt_eq_some_iff.mpr rfl]

/-- A read at an offset that lists no register answers 0. -/
theorem State.hostRead_unlisted (s : State) {offset : Nat} (h : ∀ r, offset ≠ regOffset r) :
    s.hostRead offset = s.answer 0 false := by
  have hnone : regAt offset = none := by
    cases hr : regAt offset with
    | none => rfl
    | some r => exact absurd (regAt_eq_some_iff.mp hr) (h r)
  simp only [State.hostRead, hnone]

/-- A read is a step. -/
theorem step_read {s : State} {offset : Nat} {rest : List HostAccess} (hp : s.pending = .read offset :: rest) :
    step s = .next ((s.hostRead offset).setPending rest) := by
  rw [step_cons hp (State.keepsDuty_of_no_store nofun)]
  simp only [afterAccess, State.hostRead]
  cases regAt offset <;> rfl

/-- `RESP` as a number (10_state.md R22). -/
theorem respWord_toNat (r : Resp) : (respWord r).toNat = (codeBits r.code).toNat + 16 * r.bit.toNat := by
  obtain ⟨c, b⟩ := r
  cases c <;> cases b <;> rfl

/-- `STATUS` as a number (10_state.md R23). -/
theorem statusWord_toNat (m : Mode) (ovf : Bool) : (statusWord m ovf).toNat = (modeBits m).toNat + 4 * ovf.toNat := by
  cases m <;> cases ovf <;> rfl

/-- Outside `IDLE` a view is its register, zero-extended. -/
theorem State.viewOf_toNat {s : State} (hm : s.mode ≠ .idle) {w : Nat} (v : BitVec w) (hw : w ≤ 32) :
    (s.viewOf v).toNat = v.toNat := by
  simp only [State.viewOf, if_neg hm, BitVec.toNat_setWidth_of_le hw]

/-- A view of a whole word. -/
theorem State.viewOf_word {s : State} (hm : s.mode ≠ .idle) (v : Word) : s.viewOf v = v :=
  BitVec.eq_of_toNat_eq (State.viewOf_toNat hm v (Nat.le_refl 32))

/-- In every `MODE` a view reads 0 above the width of its register. -/
theorem State.viewOf_lt (s : State) {w : Nat} (v : BitVec w) (hw : w ≤ 32) : (s.viewOf v).toNat < 2 ^ w := by
  unfold State.viewOf
  split <;> (rw [BitVec.toNat_setWidth_of_le hw]; exact BitVec.isLt _)

/-- A read draws a free value exactly at a view in `IDLE`. -/
theorem State.drawsOn_eq_true_iff (s : State) (r : Reg) : s.drawsOn r = true ↔ isView r = true ∧ s.mode = .idle := by
  simp [State.drawsOn]

theorem isView_iff (r : Reg) : isView r = true ↔ regOffset r ∈ [0x10, 0x14, 0x18, 0x1C, 0x20, 0x24, 0x28] := by
  cases r <;> decide

/-- Settles O10: a read of a listed register answers `regWord`, which is read off register by register. -/
theorem registerReadsReturnTheirViews : Obligations.RegisterReadsReturnTheirViews := by
  intro s off rest hp
  rw [step_read hp]
  by_cases hoff : ∃ r, off = regOffset r
  · obtain ⟨r, rfl⟩ := hoff
    rw [State.hostRead_regOffset, ← isView_iff]
    refine ⟨s.regWord r, fun h => ?_, ?_⟩
    · have hd : s.drawsOn r = false := by
        rw [← Bool.not_eq_true, State.drawsOn_eq_true_iff]
        tauto
      rw [hd]
      rfl
    · cases r <;> simp +contextual [regOffset, State.regWord, respWord_toNat, statusWord_toNat, State.viewOf_word,
        State.viewOf_toNat]
  · simp only [not_exists] at hoff
    rw [State.hostRead_unlisted _ hoff]
    refine ⟨0, fun _ => rfl, fun h => absurd h (hoff .resp), fun h => absurd h (hoff .status),
      fun h => absurd h (hoff .len), fun _ => ⟨fun h => absurd h (hoff .pos), fun h => absurd h (hoff .x1),
        fun h => absurd h (hoff .x2), fun h => absurd h (hoff .x), fun h => absurd h (hoff .pfx),
        fun h => absurd h (hoff .lastctx), fun h => absurd h (hoff .lastp)⟩⟩

/-- Settles O11: the free value is cut to the width of the view. -/
theorem idleViewsAreFreeValues : Obligations.IdleViewsAreFreeValues := by
  intro s off rest hp hm hoff
  obtain ⟨r, rfl, hr⟩ : ∃ r, off = regOffset r ∧ isView r = true := by
    simp only [List.mem_cons, List.not_mem_nil, or_false] at hoff
    rcases hoff with rfl | rfl | rfl | rfl | rfl | rfl | rfl
    exacts [⟨.pos, rfl, rfl⟩, ⟨.x1, rfl, rfl⟩, ⟨.x2, rfl, rfl⟩, ⟨.x, rfl, rfl⟩, ⟨.pfx, rfl, rfl⟩,
      ⟨.lastctx, rfl, rfl⟩, ⟨.lastp, rfl, rfl⟩]
  refine ⟨s.regWord r, ?_, ?_⟩
  · rw [step_read hp, State.hostRead_regOffset, (s.drawsOn_eq_true_iff r).mpr ⟨hr, hm⟩]
    rfl
  · have pfx := s.viewOf_lt s.pfx (by decide)
    have lastctx := s.viewOf_lt s.lastctx (by decide)
    have lastp := s.viewOf_lt s.lastp (by decide)
    cases r <;> simp_all [regOffset, State.regWord]

/-- Settles O9: the accesses that run no command, one by one, by what each does to the state. -/
theorem bufferAccessesAndOtherOffsets : Obligations.BufferAccessesAndOtherOffsets := by
  refine ⟨?_, ?_, ?_, ?_⟩
  · intro s off v rest hp hcmd hlen
    rw [step_cons hp (State.keepsDuty_of_no_store nofun), afterAccess_write, if_neg hcmd, if_neg hlen]
  · intro s off rest hp hoff
    rw [step_read hp]
    rcases hoff with rfl | hoff
    · rfl
    · have hunlisted (r : Reg) : off ≠ regOffset r := by
        rintro rfl
        cases r <;> simp [regOffset] at hoff
      rw [State.hostRead_unlisted _ hunlisted]
      rfl
  · intro s index v rest hs hp hd
    refine ⟨_, step_cons hp hd, ?_, ?_, rfl⟩
    · exact State.bufGet_bufSet_same _ index v (hs.setPending rest)
    · intro a ha
      exact State.bufGet_bufSet_other _ v ha
  · intro s index rest hp
    refine ⟨(s.bufGet index).setWidth 32, BitVec.toNat_setWidth_of_le (by decide), ?_⟩
    rw [step_cons hp (State.keepsDuty_of_no_store nofun)]
    rfl

/-! ## The flags after a command -/

@[simp] theorem State.shiftNeedle_mode (s : State) : s.shiftNeedle.mode = s.mode := by rw [s.shiftNeedle_frame]
@[simp] theorem State.shiftNeedle_ovf (s : State) : s.shiftNeedle.ovf = s.ovf := by rw [s.shiftNeedle_frame]
@[simp] theorem State.shiftNeedle_limit (s : State) : s.shiftNeedle.limit = s.limit := by rw [s.shiftNeedle_frame]
@[simp] theorem State.shiftNeedle_len (s : State) : s.shiftNeedle.len = s.len := by rw [s.shiftNeedle_frame]
@[simp] theorem State.preload_mode (s : State) : s.preload.mode = s.mode := by simp [State.preload]
@[simp] theorem State.preload_ovf (s : State) : s.preload.ovf = s.ovf := by simp [State.preload]
@[simp] theorem State.preload_limit (s : State) : s.preload.limit = s.limit := by simp [State.preload]
@[simp] theorem State.preload_len (s : State) : s.preload.len = s.len := by simp [State.preload]

/-- No refusal answers `OK`. -/
theorem State.encodeRefusal_ne_ok {s : State} {c : Code} (h : s.encodeRefusal = some c) : c ≠ .ok := by
  rintro rfl
  rcases s.encodeRefusal_cases with ⟨_, he⟩ | ⟨_, _, he⟩ | ⟨_, _, he⟩ <;> rw [he] at h <;> cases h

/-- How an admitted `ENCODE_BIT` or `FLUSH` may end, `m` being the `MODE` it leaves where its bytes fit. -/
def State.EncodeEnds (s : State) (m : Mode) (t : State) : Prop :=
  (t.resp = ⟨.ok, false⟩ ∧ t.ovf = s.ovf ∧ t.mode = m) ∨
  (t.resp = ⟨.eOverflow, false⟩ ∧ t.ovf = true ∧ t.mode = s.mode ∧ s.limit ≤ t.pos)

/-- How the compress loop ends, for the flags and the cursor. -/
theorem State.renormEnc_flags (n : Nat) (s : State) :
    (∃ t, State.renormEnc n s = .completed t ∧ t.mode = s.mode ∧ t.ovf = s.ovf ∧ t.limit = s.limit) ∨
    ∃ t : State, State.renormEnc n s = .overflowed t.raiseOverflow ∧ t.mode = s.mode ∧ s.limit ≤ t.pos := by
  have round (u : State) (hu : u.mode = s.mode ∧ u.ovf = s.ovf ∧ u.limit = s.limit)
      (_ : topByte u.x1 = topByte u.x2) (_ : u.pos < u.limit) :
      u.emitRound.mode = s.mode ∧ u.emitRound.ovf = s.ovf ∧ u.emitRound.limit = s.limit := hu
  rcases State.renormEnc_induct round n s ⟨rfl, rfl, rfl⟩ with h | ⟨t, he, ⟨hm, _, hl⟩, _, hfull⟩
  · exact .inl h
  · exact .inr ⟨t, he, hm, hl ▸ hfull⟩

/-- How `ENCODE_BIT` ends. -/
theorem execState_encodeBit_ends (b : Bool) (s : State) :
    (∃ c, s.encodeRefusal = some c ∧ execState (.encodeBit b) s = s.respond c false) ∨
    (s.mode = .enc ∧ s.EncodeEnds s.mode (execState (.encodeBit b) s)) := by
  rcases execState_encodeBit_cases b s with h | ⟨hm, _, he⟩
  · exact .inl h
  · refine .inr ⟨hm, ?_⟩
    rcases (s.codeBit b).renormEnc_flags maxRounds with ⟨t, hr, htm, hto, _⟩ | ⟨t, hr, htm, hfull⟩ <;> rw [he, hr]
    · exact .inl ⟨rfl, by simpa [Emission.close] using hto, by simpa [Emission.close] using htm⟩
    · exact .inr ⟨rfl, rfl, by simpa [Emission.close] using htm, by simpa [Emission.close] using hfull⟩

/-- How `FLUSH` ends. -/
theorem execState_flush_ends (s : State) :
    (∃ c, s.encodeRefusal = some c ∧ execState .flush s = s.respond c false) ∨
    (s.mode = .enc ∧ s.EncodeEnds .done (execState .flush s)) := by
  rcases execState_flush_cases s with h | ⟨hm, _, h⟩
  · exact .inl h
  · refine .inr ⟨hm, ?_⟩
    rcases s.renormEnc_flags maxRounds with ⟨t, hr, htm, hto, htl⟩ | ⟨t, hr, htm, hfull⟩
    · obtain ⟨_, hr', _⟩ | ⟨t', hr', he⟩ := h <;> rw [hr] at hr' <;> cases hr'
      rcases t.emitLast_close_cases with ⟨hfull, hc⟩ | ⟨_, hc⟩ <;> rw [he, hc]
      · exact .inr ⟨rfl, rfl, htm, htl ▸ hfull⟩
      · exact .inl ⟨rfl, hto, rfl⟩
    · obtain ⟨_, hr', he⟩ | ⟨_, hr', _⟩ := h <;> rw [hr] at hr' <;> cases hr'
      rw [he]
      exact .inr ⟨rfl, rfl, htm, hfull⟩

/-- `DECODE_BIT` changes neither flag. -/
theorem execState_decodeBit_flags (s : State) :
    (execState .decodeBit s).mode = s.mode ∧ (execState .decodeBit s).ovf = s.ovf := by
  rcases s.decodeRefusal_cases with ⟨_, h⟩ | ⟨hm, _⟩
  · rw [execState_decode_refused h]
    exact ⟨rfl, rfl⟩
  · rw [execState_decodeBit hm, State.renormDec_frame]
    simp

/-- `MODE` after a command (10_state.md R17). -/
theorem execState_mode (i : Instr) (s : State) :
    (execState i s).mode =
      if i = .initEnc then .enc
      else if i = .initDec then .dec
      else if i = .flush ∧ (execState i s).resp.code = .ok then .done
      else s.mode := by
  cases i with
  | initEnc => rfl
  | initDec => simp [execState_initDec]
  | encodeBit b =>
    rcases execState_encodeBit_ends b s with ⟨c, _, he⟩ | ⟨_, ⟨_, _, hm⟩ | ⟨_, _, hm, _⟩⟩
    · simp [he]
    · simp [hm]
    · simp [hm]
  | decodeBit => simp [execState_decodeBit_flags]
  | flush =>
    rcases execState_flush_ends s with ⟨c, hc, he⟩ | ⟨_, ⟨hr, _, hm⟩ | ⟨hr, _, hm, _⟩⟩
    · simp [he, State.encodeRefusal_ne_ok hc]
    · simp [hr, hm]
    · simp [hr, hm]

/-- Settles O45: of the accesses only the commands of `execState_mode` and power-on reset touch `MODE`. -/
theorem modeHasFourWriters : Obligations.ModeHasFourWriters := by
  refine ⟨⟨rfl, rfl, rfl, rfl⟩, fun s t a rest hp hstep => ?_⟩
  rw [eq_afterAccess_of_step hp hstep]
  rcases afterAccess_cases a (s.setPending rest) with ⟨i, hi, hne, he⟩ | ⟨rfl, he⟩ | ⟨hi, hne, _, _, _, _, _, he⟩
  · simp only [he, hi, hne, if_false, Option.some.injEq]
    exact execState_mode i _
  · rw [he, if_pos rfl]
    rfl
  · simp [he, hi, hne]

/-- `OVF`, once set, is kept by every phase. -/
theorem keptByPhases_ovf : KeptByPhases fun s => s.ovf = true := by
  constructor <;> simp

/-- What a command that sets `OVF` is, and where it leaves the engine (10_state.md R18). -/
theorem execState_sets_ovf {i : Instr} {s : State} (h0 : s.ovf = false) (h1 : (execState i s).ovf = true) :
    s.mode = .enc ∧ (execState i s).resp = ⟨.eOverflow, false⟩ ∧ s.limit ≤ (execState i s).pos ∧
      ((∃ b, i = .encodeBit b) ∨ i = .flush) := by
  cases i with
  | initEnc => cases h1
  | initDec => simp [execState_initDec] at h1
  | encodeBit b =>
    rcases execState_encodeBit_ends b s with ⟨c, _, he⟩ | ⟨hm, ⟨_, ho, _⟩ | ⟨hr, _, _, hfull⟩⟩
    · simp [he, h0] at h1
    · simp [ho, h0] at h1
    · exact ⟨hm, hr, hfull, .inl ⟨b, rfl⟩⟩
  | decodeBit => simp [execState_decodeBit_flags, h0] at h1
  | flush =>
    rcases execState_flush_ends s with ⟨c, _, he⟩ | ⟨hm, ⟨_, ho, _⟩ | ⟨hr, _, _, hfull⟩⟩
    · simp [he, h0] at h1
    · simp [ho, h0] at h1
    · exact ⟨hm, hr, hfull, .inr rfl⟩

/-- While `OVF = 1` both encode commands are refused (60_exceptions.md R184). -/
theorem State.encodeRefusal_of_ovf {s : State} (ho : s.ovf = true) :
    ∃ c, s.encodeRefusal = some c ∧ (s.mode = .enc → c = .eOverflow) := by
  rcases s.encodeRefusal_cases with ⟨hm, h⟩ | ⟨_, _, h⟩ | ⟨_, ho', _⟩
  · exact ⟨_, h, fun e => absurd e hm⟩
  · exact ⟨_, h, fun _ => rfl⟩
  · rw [ho] at ho'
    cases ho'

theorem restarts_iff (a : HostAccess) :
    restarts a = true ↔ a = .powerOn ∨ commandIn a = some .initEnc ∨ commandIn a = some .initDec := by
  simp [restarts, or_assoc]

theorem restarts_eq_false_iff (a : HostAccess) :
    restarts a = false ↔ a ≠ .powerOn ∧ commandIn a ≠ some .initEnc ∧ commandIn a ≠ some .initDec := by
  rw [← Bool.not_eq_true, restarts_iff, not_or, not_or]

/-- Settles O46: a command that sets `OVF` is one of `execState_sets_ovf`; while it is 1, both are refused. -/
theorem overflowFlagIsSticky : Obligations.OverflowFlagIsSticky := by
  constructor
  · intro s t a rest hp hstep
    rw [eq_afterAccess_of_step hp hstep, restarts_iff, restarts_eq_false_iff]
    rcases afterAccess_cases a (s.setPending rest) with ⟨i, hi, hne, he⟩ | ⟨rfl, he⟩ | ⟨hi, hne, _, _, _, _, _, he⟩
    · simp only [he, hi, hne, false_or, not_false_eq_true, true_and, ne_eq, Option.some.injEq]
      refine ⟨?_, fun ⟨hne, hnd⟩ ho => keptByPhases_ovf.of_not_init hne hnd ho,
        execState_sets_ovf (s := s.setPending rest)⟩
      rintro (rfl | rfl)
      · rfl
      · simp [execState_initDec]
    · simp [he]
    · simp [he, hi, hne]
  · intro s t ho hexec
    obtain ⟨c, hc, henc⟩ := s.encodeRefusal_of_ovf ho
    have ht : t = s.respond c false := by
      rcases hexec with ⟨b, h⟩ | h <;> rw [execState_of_exec h]
      · exact (execState_encode_refused b hc).1
      · exact (execState_encode_refused false hc).2
    subst ht
    exact ⟨rfl, State.encodeRefusal_ne_ok hc, fun hm => by simp [henc hm]⟩

/-! ## The cursor within a pass -/

/-- The cursor has not gone back behind `start`, nor past `LIMIT`, which is still `limit` (10_state.md R15). -/
def State.CursorFrom (start limit : Word) (s : State) : Prop :=
  s.limit = limit ∧ start.toNat ≤ s.pos.toNat ∧ s.pos.toNat ≤ s.limit.toNat

/-- Inside the buffer the cursor advances without wrapping. -/
theorem State.advance_pos_toNat {s : State} (h : s.pos < s.limit) : s.advance.pos.toNat = s.pos.toNat + 1 := by
  rw [State.advance_pos]
  bv_omega

theorem State.CursorFrom.advance {start limit : Word} {s : State} (hs : s.CursorFrom start limit)
    (hroom : s.pos < s.limit) : s.advance.CursorFrom start limit := by
  obtain ⟨hl, hge, _⟩ := hs
  have hlt : s.pos.toNat < s.limit.toNat := hroom
  refine ⟨hl, ?_, ?_⟩ <;> rw [State.advance_pos_toNat hroom]
  · omega
  · exact hlt

theorem keptByPhases_cursorFrom (start limit : Word) : KeptByPhases (State.CursorFrom start limit) where
  respond _ _ _ hs := hs
  raiseOverflow _ hs := hs
  codeBit s b hs := by simpa [State.CursorFrom] using hs
  emit s v hroom hs := State.CursorFrom.advance (s := s.bufSet s.pos v) hs hroom
  shiftBounds _ hs := hs
  shiftNeedle s hs := by
    rcases s.shiftNeedle_cases with ⟨hroom, he⟩ | ⟨_, he⟩ <;> rw [he]
    · exact hs.advance hroom
    · exact hs
  finish _ hs := hs

/-- Settles O47: an access that does not restart is a command made of phases, or leaves `LIMIT` and `POS` alone. -/
theorem cursorNeverDecreasesWithinAPass : Obligations.CursorNeverDecreasesWithinAPass := by
  intro s t a rest hs hm hp hstep hrestarts
  have start : (s.setPending rest).CursorFrom s.pos s.limit := ⟨rfl, Nat.le_refl _, hs.cursor hm⟩
  obtain ⟨hpower, hne, hnd⟩ := (restarts_eq_false_iff a).mp hrestarts
  rw [eq_afterAccess_of_step hp hstep]
  rcases afterAccess_cases a (s.setPending rest) with ⟨i, hi, _, he⟩ | ⟨ha, _⟩ | ⟨_, _, _, _, _, _, _, he⟩
  · rw [hi, ne_eq, Option.some.injEq] at hne hnd
    rw [he]
    exact (keptByPhases_cursorFrom s.pos s.limit).of_not_init hne hnd start
  · exact absurd ha hpower
  · rw [he]
    exact start

/-! ## `LEN` and `LIMIT` -/

/-- No phase touches `LIMIT` or `LEN`. -/
theorem keptByPhases_limit_len (limit len : Word) : KeptByPhases fun s => s.limit = limit ∧ s.len = len := by
  constructor <;> simp

/-- The same function of the state at either end of a phase. -/
def Emission.map (f : State → State) : Emission → Emission
  | .completed s => .completed (f s)
  | .overflowed s => .overflowed (f s)

theorem State.codeBit_setLen (s : State) (b : Bool) (n : Word) : (s.setLen n).codeBit b = (s.codeBit b).setLen n := by
  cases b <;> rfl

theorem State.shiftNeedle_setLen (s : State) (n : Word) : (s.setLen n).shiftNeedle = s.shiftNeedle.setLen n := by
  by_cases h : s.pos < s.limit <;>
    simp only [State.shiftNeedle, State.nextByte, State.setLen_pos, State.setLen_limit, h, if_true, if_false] <;> rfl

theorem State.renormEnc_setLen (k : Nat) (s : State) (n : Word) :
    State.renormEnc k (s.setLen n) = (State.renormEnc k s).map (·.setLen n) := by
  induction k generalizing s with
  | zero => rfl
  | succ k ih =>
    have round : (s.setLen n).emitRound = s.emitRound.setLen n := rfl
    simp only [State.renormEnc_succ, State.setLen_x1, State.setLen_x2, State.setLen_pos, State.setLen_limit, round, ih]
    split
    · split <;> rfl
    · rfl

theorem State.renormDec_setLen (k : Nat) (s : State) (n : Word) :
    State.renormDec k (s.setLen n) = (State.renormDec k s).setLen n := by
  induction k generalizing s with
  | zero => rfl
  | succ k ih =>
    have shift : (s.setLen n).shiftBounds = s.shiftBounds.setLen n := rfl
    simp only [State.renormDec, State.setLen_x1, State.setLen_x2, shift, State.shiftNeedle_setLen, ih]
    split <;> rfl

theorem State.emitLast_close_setLen (s : State) (n : Word) :
    (s.setLen n).emitLast.close = s.emitLast.close.setLen n := by
  rcases s.emitLast_close_cases with ⟨h, he⟩ | ⟨h, he⟩ <;>
    rcases (s.setLen n).emitLast_close_cases with ⟨h', he'⟩ | ⟨h', he'⟩ <;>
    rw [he, he']
  · rfl
  · exact absurd h' (BitVec.not_lt.mpr h)
  · exact absurd h (BitVec.not_lt.mpr h')
  · rfl

/-- A command of a pass does not see `LEN` (70_reset_and_hazards.md R214). -/
theorem execState_setLen {i : Instr} (hne : i ≠ .initEnc) (hnd : i ≠ .initDec) (s : State) (n : Word) :
    execState i (s.setLen n) = (execState i s).setLen n := by
  cases i with
  | initEnc => exact absurd rfl hne
  | initDec => exact absurd rfl hnd
  | encodeBit b =>
    rcases execState_encodeBit_cases b s with ⟨c, h, he⟩ | ⟨hm, ho, he⟩ <;> rw [he]
    · exact (execState_encode_refused (s := s.setLen n) b h).1
    · rw [execState_encodeBit (s := s.setLen n) b hm ho, State.codeBit_setLen, State.renormEnc_setLen]
      cases State.renormEnc maxRounds (s.codeBit b) <;> rfl
  | decodeBit =>
    rcases s.decodeRefusal_cases with ⟨_, h⟩ | ⟨hm, _⟩
    · rw [execState_decode_refused h]
      exact execState_decode_refused (s := s.setLen n) h
    · have bit : (s.setLen n).decodedBit = s.decodedBit := rfl
      rw [execState_decodeBit hm, execState_decodeBit (s := s.setLen n) hm, bit, State.codeBit_setLen,
        State.renormDec_setLen]
      rfl
  | flush =>
    rcases execState_flush_cases s with ⟨c, h, he⟩ | ⟨hm, ho, ⟨t, hr, he⟩ | ⟨t, hr, he⟩⟩ <;> rw [he]
    · exact (execState_encode_refused (s := s.setLen n) false h).2
    · rw [execState_flush (s := s.setLen n) hm ho, State.renormEnc_setLen, hr]
      rfl
    · rw [execState_flush (s := s.setLen n) hm ho, State.renormEnc_setLen, hr]
      exact t.emitLast_close_setLen n

/-- Settles O8: `INIT_*` copy `LEN` when they open the pass, and no phase of another command sees or changes it. -/
theorem lenIsLatchedByInitAlone : Obligations.LenIsLatchedByInitAlone := by
  refine ⟨rfl, ?_, ?_, ?_, ?_⟩
  · intro s n rest hp
    exact step_cons hp (State.keepsDuty_of_no_store nofun)
  · intro s rest hp
    exact step_read hp
  · intro s
    refine ⟨_, _, exec_eq_execState _ s, exec_eq_execState _ s, ?_⟩
    simp [execState_initEnc, execState_initDec]
  · intro i s n hne hnd
    refine ⟨_, exec_eq_execState i s, ?_, (keptByPhases_limit_len s.limit s.len).of_not_init hne hnd ⟨rfl, rfl⟩⟩
    rw [exec_eq_execState, execState_setLen hne hnd]

/-! ## The state that power-on reset leaves unspecified -/

/-- Opening a pass overwrites everything but `RESP`, `LEN`, `BUF`, the parameters and the host's side. -/
theorem State.startPass_congr {s t : State} (m : Mode) (hresp : s.resp = t.resp) (hlen : s.len = t.len)
    (hbuf : s.buf = t.buf) (hcfg : s.cfg = t.cfg) (hpending : s.pending = t.pending) (hrdata : s.rdata = t.rdata)
    (hdraws : s.draws = t.draws) : s.startPass m = t.startPass m := by
  simp only [State.startPass, hresp, hlen, hbuf, hcfg, hpending, hrdata, hdraws]

/-- In `IDLE` every command but `INIT_*` is refused. -/
theorem execState_of_idle {i : Instr} (hne : i ≠ .initEnc) (hnd : i ≠ .initDec) {s : State} (hm : s.mode = .idle) :
    execState i s = s.respond .eMode false := by
  have encode : s.encodeRefusal = some .eMode := by simp [State.encodeRefusal, hm]
  have decode : s.decodeRefusal = some .eMode := by simp [State.decodeRefusal, hm]
  cases i with
  | initEnc => exact absurd rfl hne
  | initDec => exact absurd rfl hnd
  | encodeBit b => exact (execState_encode_refused b encode).1
  | decodeBit => exact execState_decode_refused decode
  | flush => exact (execState_encode_refused false encode).2

/-- In `IDLE` a view does not show its register (10_state.md R25). -/
theorem State.viewOf_idle {s t : State} (hs : s.mode = .idle) (ht : t.mode = .idle) (hdraws : s.draws = t.draws)
    {w : Nat} (v v' : BitVec w) : s.viewOf v = t.viewOf v' := by
  simp only [State.viewOf, hs, ht, hdraws, if_true]

/-- Settles O3: opening a pass overwrites what reset leaves unspecified, and in `IDLE` nothing else reads it. -/
theorem unspecifiedStateIsNeverRead : Obligations.UnspecifiedStateIsNeverRead := by
  intro s t hs ht hlen hbuf hcfg hovf hresp hpending hrdata hdraws
  have start (m : Mode) := State.startPass_congr m hresp hlen hbuf hcfg hpending hrdata hdraws
  have views {w : Nat} (v v' : BitVec w) := State.viewOf_idle hs ht hdraws v v'
  refine ⟨?_, ?_, fun i hne hnd => ⟨?_, ?_⟩, fun r => ?_⟩
  · simp only [exec_eq_execState, execState_initEnc, start]
  · simp only [exec_eq_execState, execState_initDec, start]
  · rw [exec_eq_execState, execState_of_idle hne hnd hs]
  · rw [exec_eq_execState, execState_of_idle hne hnd ht]
  · cases r with
    | cmd => rfl
    | resp => exact congrArg respWord hresp
    | status => simp only [State.regWord, hs, ht, hovf]
    | len => exact hlen
    | _ => exact views _ _

end Sys2Proof.Machine

namespace Sys2Proof.Machine

/-! ## The bytes of a pass -/

@[simp] theorem State.shiftNeedle_buf (s : State) : s.shiftNeedle.buf = s.buf := by rw [s.shiftNeedle_frame]
@[simp] theorem State.preload_buf (s : State) : s.preload.buf = s.buf := by simp [State.preload]

/-- Two states with one buffer read alike. -/
theorem State.bufGet_congr {s t : State} (h : t.buf = s.buf) (j : Word) : t.bufGet j = s.bufGet j := by
  simp only [State.bufGet, h]

/-- `BUF` is written by an encode command in `ENC` alone. -/
theorem execState_buf_or (i : Instr) (s : State) :
    (execState i s).buf = s.buf ∨ (s.mode = .enc ∧ i ≠ .initEnc ∧ i ≠ .initDec) := by
  cases i with
  | initEnc => exact .inl rfl
  | initDec => exact .inl (by simp [execState_initDec])
  | encodeBit b =>
    rcases execState_encodeBit_cases b s with ⟨c, _, he⟩ | ⟨hm, _⟩
    · exact .inl (by simp [he])
    · exact .inr ⟨hm, nofun, nofun⟩
  | decodeBit =>
    left
    rcases s.decodeRefusal_cases with ⟨_, h⟩ | ⟨hm, _⟩
    · simp [execState_decode_refused h]
    · rw [execState_decodeBit hm, State.renormDec_frame]
      simp
  | flush =>
    rcases execState_flush_cases s with ⟨c, _, he⟩ | ⟨hm, _⟩
    · exact .inl (by simp [he])
    · exact .inr ⟨hm, nofun, nofun⟩

/-- The byte `v` stands at `j`, behind the cursor. -/
def State.WroteByte (j : Word) (v : Byte) (s : State) : Prop :=
  j < s.pos ∧ s.bufGet j = v

theorem State.WroteByte.advance {j : Word} {v : Byte} {s : State} (hs : s.WroteByte j v) (hroom : s.pos < s.limit) :
    s.advance.WroteByte j v := by
  obtain ⟨hj, hv⟩ := hs
  refine ⟨?_, hv⟩
  rw [State.advance_pos]
  bv_omega

/-- The cursor only moves on, and a byte is emitted at the cursor. -/
theorem keptByPhases_wroteByte (j : Word) (v : Byte) : KeptByPhases (State.WroteByte j v) where
  respond _ _ _ hs := hs
  raiseOverflow _ hs := hs
  codeBit s b hs := by simpa [State.WroteByte, State.bufGet] using hs
  emit s b hroom hs := by
    obtain ⟨hj, hv⟩ := hs
    refine State.WroteByte.advance (s := s.bufSet s.pos b) ⟨hj, ?_⟩ hroom
    rw [State.bufGet_bufSet_other s b (BitVec.ne_of_lt hj), hv]
  shiftBounds _ hs := hs
  shiftNeedle s hs := by
    rcases s.shiftNeedle_cases with ⟨hroom, he⟩ | ⟨_, he⟩ <;> rw [he]
    · exact hs.advance hroom
    · exact hs
  finish _ hs := hs

/-- A command leaves the bytes that belong to the pass as they are (20_memory.md R50). -/
theorem execState_bufGet_of_owns (i : Instr) {s : State} {j : Word} (h : s.owns j = true) :
    (execState i s).bufGet j = s.bufGet j := by
  rcases execState_buf_or i s with hbuf | ⟨hm, hne, hnd⟩
  · exact State.bufGet_congr hbuf j
  · have written : s.WroteByte j (s.bufGet j) := ⟨by simpa [State.owns, hm] using h, rfl⟩
    exact ((keptByPhases_wroteByte j _).of_not_init hne hnd written).2

/-- An access leaves the bytes that belong to the pass as they are, unless it stores one of them. -/
theorem afterAccess_bufGet_of_owns {a : HostAccess} {s : State} {j : Word} (h : s.owns j = true)
    (hstore : ∀ v, a ≠ .store j v) : (afterAccess a s).bufGet j = s.bufGet j := by
  cases a with
  | write offset v =>
    rw [afterAccess_write]
    split
    · unfold afterCommand
      cases commandOf v with
      | ok i => exact execState_bufGet_of_owns i h
      | error e => rfl
    · split <;> rfl
  | read offset =>
    simp only [afterAccess, State.hostRead]
    cases regAt offset <;> rfl
  | store index v =>
    refine State.bufGet_bufSet_other s v ?_
    rintro rfl
    exact hstore v rfl
  | load index => rfl
  | powerOn => rfl

/-- No step changes a byte that belongs to the pass, save the host's store once the pass is over. -/
theorem bufGet_of_owns_of_step {s t : State} {a : HostAccess} {rest : List HostAccess} (hp : s.pending = a :: rest)
    (hstep : step s = .next t) (hover : (∀ index v, a ≠ .store index v) ∨ passOver rest = false) {j : Word}
    (h : s.owns j = true) : t.bufGet j = s.bufGet j := by
  have hstore (v : Byte) : a ≠ .store j v := by
    rintro rfl
    rcases hover with hno | hover
    · exact hno j v rfl
    · have hrefused : ¬s.KeepsDuty (.store j v) rest := fun hd => by simpa [hover] using hd j v rfl h
      rw [step_refused hp hrefused] at hstep
      cases hstep
  rw [eq_afterAccess_of_step hp hstep]
  exact afterAccess_bufGet_of_owns (s := s.setPending rest) h hstore

/-- Settles O49: the bytes it speaks of are the ones that belong to the pass. -/
theorem writtenBytesAreFinal : Obligations.WrittenBytesAreFinal := by
  intro s t a rest hp hstep hover
  refine ⟨fun hm j hj => ?_, fun hm j hj => ?_⟩ <;> refine bufGet_of_owns_of_step hp hstep hover ?_
  · rcases hm with hm | hm <;> simpa [State.owns, hm] using hj
  · simpa [State.owns, hm] using hj

end Sys2Proof.Machine

namespace Sys2Proof

/-! ## Command words -/

/-- A word whose `Z` is `000` is made of its other two fields (30_encoding.md R60). -/
theorem eq_packWord_of_wordZ {w : Byte} (hz : wordZ w = 0) : w = packWord (wordOpc w) (wordB w) := by
  revert w
  decide

/-- A command without operand is decoded where bit 0 is 0. -/
theorem noOperand_eq_ok_iff (w : Byte) (i j : Instr) : noOperand w i = .ok j ↔ wordB w = false ∧ i = j := by
  unfold noOperand
  cases wordB w <;> simp

theorem decode_encode (i : Instr) : decode (encode i) = .ok i := by
  cases i with
  | encodeBit b => cases b <;> rfl
  | _ => rfl

/-- The opcode map gives a command to its own word alone. -/
theorem decodeOpc_ok {w : Byte} {i : Instr} (h : decodeOpc w = .ok i) : packWord (wordOpc w) (wordB w) = encode i := by
  have field {n : Nat} (hn : (wordOpc w).toNat = n) : wordOpc w = BitVec.ofNat 4 n := by
    rw [← hn, BitVec.ofNat_toNat, BitVec.setWidth_eq]
  unfold decodeOpc at h
  split at h
  case h_3 hopc =>
    cases h
    rw [field hopc]
    rfl
  case h_6 => cases h
  all_goals
    rename_i hopc
    obtain ⟨hb, rfl⟩ := (noOperand_eq_ok_iff _ _ _).mp h
    rw [field hopc, hb]
    rfl

/-- A word decodes to a command exactly when it is that command's word. -/
theorem decode_eq_ok_iff (w : Byte) (i : Instr) : decode w = .ok i ↔ w = encode i := by
  constructor
  · intro h
    unfold decode at h
    split at h
    · rename_i hz
      rw [eq_packWord_of_wordZ hz, decodeOpc_ok h]
    · cases h
  · rintro rfl
    exact decode_encode i

/-- Settles O4: the two directions of `decode_eq_ok_iff`. -/
theorem decodeAndEncodeAgree : Obligations.DecodeAndEncodeAgree :=
  ⟨fun i _ => decode_encode i, fun w i => (decode_eq_ok_iff w i).mp⟩

/-- The row of `ENCODE_BIT`, whose mask leaves bit 0 out. -/
theorem and_encodeBit_mask_iff (w : Byte) (b : Bool) :
    w &&& 0xFE = 0x30 ∧ w.getLsbD 0 = b ↔ w = encode (.encodeBit b) := by
  revert w b
  decide

/-- Settles O5: a full mask leaves the word as it is, so `match` is the command's word. -/
theorem commandWordsMatchTheirMasks : Obligations.CommandWordsMatchTheirMasks := by
  intro w
  have full : w &&& 0xFF = w := BitVec.and_allOnes
  simp only [decode_eq_ok_iff, full]
  exact ⟨Iff.rfl, Iff.rfl, fun b => (and_encodeBit_mask_iff w b).symm, Iff.rfl, Iff.rfl⟩

end Sys2Proof

namespace Sys2Proof.Machine

/-! ## A script is the run of its accesses -/

/-- An access does not see those still to arrive, and does not change them. -/
theorem afterAccess_setPending (a : HostAccess) (s : State) (p : List HostAccess) :
    afterAccess a (s.setPending p) = (afterAccess a s).setPending p := by
  cases a with
  | write offset v =>
    simp only [afterAccess_write]
    split
    · unfold afterCommand
      cases commandOf v with
      | ok i => exact execState_setPending i s p
      | error e => rfl
    · split <;> rfl
  | read offset =>
    simp only [afterAccess, State.hostRead]
    cases regAt offset with
    | none => rfl
    | some r => cases r <;> rfl
  | store index v => rfl
  | load index => rfl
  | powerOn => rfl

theorem runAccesses_append (as bs : List HostAccess) (s : State) :
    runAccesses (as ++ bs) s = runAccesses bs (runAccesses as s) := List.foldl_append

/-- Accesses that are no stores take one step each. -/
theorem core_run_accesses {as : List HostAccess} (hno : ∀ a ∈ as, ∀ index v, a ≠ .store index v) {s : State}
    {rest : List HostAccess} (hp : s.pending = as ++ rest) :
    core.run as.length s = .next (runAccesses as (s.setPending rest)) := by
  induction as generalizing s with
  | nil =>
    obtain rfl : s.pending = rest := hp
    rfl
  | cons a as ih =>
    have ha := hno a List.mem_cons_self
    have hstep : core.step s = .next (afterAccess a (s.setPending (as ++ rest))) :=
      step_cons hp (State.keepsDuty_of_no_store ha)
    have hw : (afterAccess a (s.setPending (as ++ rest))).pending = as ++ rest := by
      rw [afterAccess_setPending]
      rfl
    simp only [List.length_cons, Host.Core.run, hstep, ih (fun b hb => hno b (List.mem_cons_of_mem a hb)) hw]
    rw [afterAccess_setPending a s (as ++ rest)]
    simp only [runAccesses, List.foldl_cons, runAccess_eq ha, afterAccess_setPending a s rest]
    rfl

/-- The accesses of a script are writes of `CMD` and `LEN` and reads of `RESP`. -/
theorem scriptAccesses_no_store (items : List ScriptItem) :
    ∀ a ∈ scriptAccesses items, ∀ index v, a ≠ .store index v := by
  intro a ha index v
  obtain ⟨item, _, hitem⟩ := List.mem_flatMap.mp ha
  rintro rfl
  cases item <;> simp [itemAccesses] at hitem

theorem compressAccesses_no_store (data : List Byte) (cap : Word) :
    ∀ a ∈ compressAccesses data cap, ∀ index v, a ≠ .store index v := by
  intro a ha
  rcases List.mem_append.mp ha with hscript | hread
  · exact scriptAccesses_no_store _ a hscript
  · rw [List.mem_singleton.mp hread]
    exact nofun

/-- A sequence that ends on `OK` was not stopped: it is the run of its accesses. -/
theorem issueAll_eq_runAccesses {is : List Instr} {s : State} (h : (issueAll is s).gotCode .ok = true) :
    issueAll is s = runAccesses (scriptAccesses (is.map .command)) s := by
  induction is generalizing s with
  | nil => rfl
  | cons i is ih =>
    by_cases hi : (issue i s).gotCode .ok = true
    · rw [issueAll, if_pos hi] at h ⊢
      exact ih h
    · rw [issueAll, if_neg hi] at h
      exact absurd h hi

/-- A `COMPRESS` that gives a count is the run of its accesses. -/
theorem compress_count_eq_runAccesses {data : List Byte} {cap : Word} {s f : State} {n : Nat}
    (h : compress data cap s = (.count n, f)) : f = runAccesses (compressAccesses data cap) s := by
  simp only [compress] at h
  split at h
  · rename_i hok
    cases h
    rw [issueAll_eq_runAccesses hok, compressAccesses, runAccesses_append]
    rfl
  · split at h <;> cases h

/-! ## `PREFIX` along a sequence of encoded bits -/

/-- An `ENCODE_BIT` that answers `OK` advances `PREFIX`. -/
theorem execState_encodeBit_pfx {b : Bool} {s : State} (hok : (execState (.encodeBit b) s).resp.code = .ok) :
    (execState (.encodeBit b) s).pfx = prefixNext s.pfx b := by
  rcases execState_encodeBit_cases b s with ⟨c, hc, he⟩ | ⟨_, _, he⟩
  · rw [he] at hok
    exact absurd hok (State.encodeRefusal_ne_ok hc)
  · rw [he] at hok ⊢
    cases hr : State.renormEnc maxRounds (s.codeBit b) with
    | completed t =>
      rw [State.renormEnc_frame hr]
      exact s.codeBit_pfx b
    | overflowed t =>
      rw [hr, State.renormEnc_frame_overflow hr] at hok
      cases hok

/-- Bits that all answer `OK` advance `PREFIX` one by one. -/
theorem issueAll_encodeBit_pfx {bs : List Bool} {s : State}
    (hok : (issueAll (bs.map .encodeBit) s).gotCode .ok = true) :
    (issueAll (bs.map .encodeBit) s).pfx = bs.foldl prefixNext s.pfx := by
  induction bs generalizing s with
  | nil => rfl
  | cons b bs ih =>
    rw [List.map_cons, issueAll] at hok ⊢
    by_cases hi : (issue (.encodeBit b) s).gotCode .ok = true
    · rw [if_pos hi] at hok ⊢
      have hcode : (execState (.encodeBit b) s).resp.code = .ok := by simpa [gotCode_issue] using hi
      have hpfx : (issue (.encodeBit b) s).pfx = prefixNext s.pfx b := by
        rw [issue_eq]
        exact execState_encodeBit_pfx hcode
      rw [ih hok, hpfx, List.foldl_cons]
    · rw [if_neg hi] at hok
      exact absurd hok hi

/-- Below 128 `PREFIX` takes the bit in at the bottom (41_predictor.md R105). -/
theorem prefixNext_toNat_of_lt {k : Byte} (b : Bool) (h : k.toNat < 128) :
    (prefixNext k b).toNat = 2 * k.toNat + b.toNat := by
  have hb := b.toNat_lt
  rw [prefixNext, if_neg (by omega), BitVec.toNat_ofNat]
  omega

/-- From 128 on `PREFIX` wraps to 0. -/
theorem prefixNext_eq_zero_of_le {k : Byte} (b : Bool) (h : 128 ≤ k.toNat) : prefixNext k b = 0 := by
  rw [prefixNext, if_pos (by omega)]

/-- A `PREFIX` that makes a number of exactly 9 bits with the bits to come is wrapped by the last of them. -/
theorem foldl_prefixNext_eq_zero {bs : List Bool} {k : Byte} (hlo : 256 ≤ k.toNat * 2 ^ bs.length)
    (hhi : (k.toNat + 1) * 2 ^ bs.length ≤ 512) : bs.foldl prefixNext k = 0 := by
  induction bs generalizing k with
  | nil =>
    have hk := k.isLt
    simp only [List.length_nil, pow_zero] at hlo
    omega
  | cons b bs ih =>
    simp only [List.length_cons, pow_succ] at hlo hhi
    rw [List.foldl_cons]
    by_cases hk : k.toNat < 128
    · have hb := b.toNat_lt
      apply ih <;> rw [prefixNext_toNat_of_lt b hk] <;> nlinarith [Nat.two_pow_pos bs.length]
    · have hlast : 2 ^ bs.length < 2 ^ 1 := by nlinarith
      have hnil : bs = [] := by simpa using (Nat.pow_lt_pow_iff_right one_lt_two).mp hlast
      rw [hnil, prefixNext_eq_zero_of_le b (by omega)]
      rfl

/-- The nine bits of a byte lead `PREFIX` from 0 back to 0 (41_predictor.md R106). -/
theorem foldl_prefixNext_symbolBits (v : Byte) : (symbolBits v).foldl prefixNext 0 = 0 := by
  have hfirst : prefixNext 0 true = 1 := rfl
  rw [symbolBits, List.foldl_cons, hfirst]
  exact foldl_prefixNext_eq_zero (by decide : 256 ≤ 1 * 2 ^ 8) (by decide : (1 + 1) * 2 ^ 8 ≤ 512)

/-- A command of a script is two steps: the command, then the read of its response. -/
theorem step_step_of_command {s : State} {i : Instr} {rest : List HostAccess}
    (hp : s.pending = itemAccesses (.command i) ++ rest) :
    ∃ w, step s = .next w ∧ step w = .next (issue i (s.setPending rest)) := by
  have hwrite : commandIn (.write 0x00 (commandWord i)) = some i :=
    (commandIn_write _ _ i).mpr ⟨rfl, commandOf_commandWord i⟩
  refine ⟨_, (step_command hp hwrite).trans (exec_eq_execState i _), ?_⟩
  rw [issue_eq, execState_setPending, execState_setPending]
  exact step_read (s := (execState i s).setPending (.read 0x04 :: rest)) rfl

/-- Settles O60: a script is the run of its accesses, and `PREFIX` wraps with the ninth bit of a byte. -/
theorem scriptCommandsWriteCmdThenReadResp : Obligations.ScriptCommandsWriteCmdThenReadResp := by
  refine ⟨fun _ _ => ⟨rfl, rfl⟩, ?_, fun _ => rfl, ?_, ?_⟩
  · intro s i rest hp
    obtain ⟨w, hw, ht⟩ := step_step_of_command hp
    refine ⟨_, w, _, exec_eq_execState i _, hw, ht, ?_, ?_, rfl⟩ <;> rw [issue_eq]
    · rfl
    · exact respWord_toNat _
  · intro s v hs hok
    have hpfx := issueAll_encodeBit_pfx hok
    rw [hs, foldl_prefixNext_symbolBits] at hpfx
    exact hpfx
  · intro s f data cap n rest hp hc
    rw [compress_count_eq_runAccesses hc]
    exact core_run_accesses (compressAccesses_no_store data cap) hp

end Sys2Proof.Machine

namespace Sys2Proof.Machine

/-! ## The fields of a cell as numbers (40_estimator.md R80) -/

theorem cellCount_toNat (c : Word) : (cellCount c).toNat = c.toNat % 2 ^ 8 := by
  simp [cellCount]

theorem cellEstimate_toNat (c : Word) : (cellEstimate c).toNat = c.toNat / 2 ^ 8 := by
  rw [cellEstimate, BitVec.extractLsb'_toNat, Nat.shiftRight_eq_div_pow]
  omega

theorem cellProb_toNat (c : Word) : (cellProb c).toNat = c.toNat / 2 ^ 16 := by
  rw [cellProb, BitVec.extractLsb'_toNat, Nat.shiftRight_eq_div_pow]
  omega

theorem cellSlice_toNat (c : Word) : (cellSlice c).toNat = c.toNat / 2 ^ 14 := by
  rw [cellSlice, BitVec.extractLsb'_toNat, Nat.shiftRight_eq_div_pow]
  omega

/-- The slice is the estimate without its six lowest bits. -/
theorem cellSlice_eq_cellEstimate_div (c : Word) : (cellSlice c).toNat = (cellEstimate c).toNat / 2 ^ 6 := by
  rw [cellSlice_toNat, cellEstimate_toNat]
  omega

/-! ## The two parts of an update (40_estimator.md R85) -/

/-- Below the limit the count does not wrap, so the cell steps up by one without a carry. -/
theorem countUp_toNat (limit : Byte) (c : Word) :
    (countUp limit c).toNat = if (cellCount c).toNat < limit.toNat then c.toNat + 1 else c.toNat := by
  have hlimit := limit.isLt
  have hone : (1 : Word).toNat = 1 := rfl
  simp only [countUp, BitVec.lt_def]
  split
  · simp only [cellCount_toNat, BitVec.toNat_add, hone] at *
    omega
  · rfl

/-- The count steps up to the limit and stays there. -/
theorem cellCount_countUp_toNat (limit : Byte) (c : Word) :
    (cellCount (countUp limit c)).toNat =
      if (cellCount c).toNat < limit.toNat then (cellCount c).toNat + 1 else (cellCount c).toNat := by
  have hlimit := limit.isLt
  simp only [cellCount_toNat, countUp_toNat]
  split <;> omega

theorem cellEstimate_countUp (limit : Byte) (c : Word) : cellEstimate (countUp limit c) = cellEstimate c := by
  have hlimit := limit.isLt
  apply BitVec.eq_of_toNat_eq
  simp only [cellEstimate_toNat, countUp_toNat, cellCount_toNat]
  split <;> omega

/-- Clearing the low byte of a word is shifting it out and back. -/
theorem and_not_lowByte (x : Word) : x &&& (0xFFFFFF00 : Word) = x >>> 8 <<< 8 := by
  ext i hi
  interval_cases i <;> simp

/-- Clearing the low byte of `delta` rounds it down to a multiple of 256. -/
theorem updateStep_toNat (delta : Int) : ((updateStep delta).toNat : Int) = 256 * (delta / 256 % 2 ^ 24) := by
  rw [updateStep, and_not_lowByte, BitVec.toNat_shiftLeft, BitVec.toNat_ushiftRight, BitVec.toNat_ofInt,
    Nat.shiftRight_eq_div_pow, Nat.shiftLeft_eq]
  omega

theorem cellCount_add_updateStep (c : Word) (delta : Int) : cellCount (c + updateStep delta) = cellCount c := by
  have hstep := updateStep_toNat delta
  apply BitVec.eq_of_toNat_eq
  rw [cellCount_toNat, cellCount_toNat, BitVec.toNat_add]
  omega

theorem cellEstimate_add_updateStep (c : Word) (delta : Int) :
    ((cellEstimate (c + updateStep delta)).toNat : Int) = ((cellEstimate c).toNat + delta / 256) % 2 ^ 24 := by
  have hstep := updateStep_toNat delta
  rw [cellEstimate_toNat, cellEstimate_toNat, BitVec.toNat_add]
  omega

/-- An update moves the count as `countUp` does. -/
theorem cellCount_updateCell (cfg : Config) (bit : Bool) (limit : Byte) (c : Word) :
    cellCount (updateCell cfg bit limit c) = cellCount (countUp limit c) :=
  cellCount_add_updateStep _ _

/-- An update moves the estimate by `floor(delta / 256)`, modulo `2^24`. -/
theorem cellEstimate_updateCell_toNat (cfg : Config) (bit : Bool) (limit : Byte) (c : Word) :
    ((cellEstimate (updateCell cfg bit limit c)).toNat : Int) =
      ((cellEstimate c).toNat + updateDelta bit (cellSlice c) (dtEntry cfg (cellCount c)) / 256) % 2 ^ 24 := by
  rw [updateCell, cellEstimate_add_updateStep, cellEstimate_countUp]

/-! ## The count invariant (40_estimator.md R86) -/

/-- Every count of `PT` lies in `[SEED_COUNT, ADAPT_LIMIT]`: what `State.CountsOk` says outside `IDLE`. -/
def State.CountsInRange (s : State) : Prop :=
  ∀ ctx : Half, s.cfg.seedCount ≤ cellCount (s.ptGet ctx) ∧ cellCount (s.ptGet ctx) ≤ s.cfg.adaptLimit

/-- A count in the range stays there when it steps up to the upper bound. -/
theorem cellCount_countUp_mem {lo limit : Byte} {c : Word} (hlo : lo ≤ cellCount c) (hlimit : cellCount c ≤ limit) :
    lo ≤ cellCount (countUp limit c) ∧ cellCount (countUp limit c) ≤ limit := by
  simp only [BitVec.le_def, cellCount_countUp_toNat] at *
  split <;> omega

theorem State.CountsInRange.codeBit {s : State} (hs : s.CountsInRange) (hforms : s.FormsOk) (b : Bool) :
    (s.codeBit b).CountsInRange := by
  intro ctx
  rw [s.codeBit_cfg]
  by_cases hctx : ctx = s.context
  · obtain ⟨hlo, hhi⟩ := hs s.context
    rw [hctx, s.ptGet_codeBit_same b hforms, cellCount_updateCell]
    exact cellCount_countUp_mem hlo hhi
  · rw [s.ptGet_codeBit_other b hctx]
    exact hs ctx

/-- Of the phases only the coding of a bit writes `PT`. -/
theorem keptByPhases_countsInRange : KeptByPhases fun s => s.FormsOk ∧ s.CountsInRange where
  respond s c b := fun ⟨hforms, hs⟩ => ⟨keptByPhases_formsOk.respond s c b hforms, hs⟩
  raiseOverflow s := fun ⟨hforms, hs⟩ => ⟨keptByPhases_formsOk.raiseOverflow s hforms, hs⟩
  codeBit s b := fun ⟨hforms, hs⟩ => ⟨hforms.codeBit b, hs.codeBit hforms b⟩
  emit s v hroom := fun ⟨hforms, hs⟩ => ⟨keptByPhases_formsOk.emit s v hroom hforms, hs⟩
  shiftBounds s := fun ⟨hforms, hs⟩ => ⟨keptByPhases_formsOk.shiftBounds s hforms, hs⟩
  shiftNeedle s := fun ⟨hforms, hs⟩ => ⟨hforms.shiftNeedle, by rw [s.shiftNeedle_frame]; exact hs⟩
  finish s := fun ⟨hforms, hs⟩ => ⟨keptByPhases_formsOk.finish s hforms, hs⟩

/-- Opening a pass makes every cell its seed. -/
theorem State.CountsInRange.startPass (s : State) {m : Mode} (hm : m ≠ .idle) : (s.startPass m).CountsInRange :=
  State.CountsOk.of_seeds (s := s.startPass m) rfl hm

/-- Every command keeps the count invariant: `INIT_*` establishes it, and in `IDLE` the others are refused. -/
theorem State.CountsOk.command {s : State} (hs : s.CountsOk) (hforms : s.FormsOk) (i : Instr) :
    (execState i s).CountsOk := by
  have start {m : Mode} (hm : m ≠ .idle) : (s.startPass m).FormsOk ∧ (s.startPass m).CountsInRange :=
    ⟨hforms.startPass m, .startPass s hm⟩
  intro hmode
  by_cases hne : i = .initEnc
  · exact hne ▸ (keptByPhases_countsInRange.initEnc (start nofun)).2
  by_cases hnd : i = .initDec
  · exact hnd ▸ (keptByPhases_countsInRange.initDec (start nofun)).2
  by_cases hidle : s.mode = .idle
  · rw [execState_of_idle hne hnd hidle] at hmode
    exact absurd hidle hmode
  · exact (keptByPhases_countsInRange.of_not_init hne hnd ⟨hforms, hs hidle⟩).2

theorem State.CountsOk.access {s : State} (hs : s.CountsOk) (hforms : s.FormsOk) (a : HostAccess) :
    (afterAccess a s).CountsOk := by
  rcases afterAccess_cases a s with ⟨i, _, _, he⟩ | ⟨_, he⟩ | ⟨_, _, _, _, _, _, _, he⟩ <;> rw [he]
  · exact hs.command hforms i
  · exact State.CountsOk.of_seeds rfl
  · exact hs

/-- Settles O23: a step waits or makes one access, and every access keeps the invariant. -/
theorem stepKeepsCountsInRange : Obligations.StepKeepsCountsInRange := by
  intro s t hforms hs hstep
  rcases step_cases hstep with ⟨_, rfl⟩ | ⟨a, rest, _, _, rfl⟩
  · exact hs
  · exact State.CountsOk.access (s := s.setPending rest) hs (hforms.setPending rest) a

/-! ## Queries and updates of the estimator -/

/-- Settles O20: the returned bits are `cellProb_toNat`; the rest is what `State.noteQuery` writes. -/
theorem predictReturnsTheTopBits : Obligations.PredictReturnsTheTopBits :=
  fun s ctx => ⟨cellProb_toNat (s.ptGet ctx), rfl, rfl⟩

/-- Settles O21: one cell is written, whose two fields `countUp` and `updateStep` move apart from each other. -/
theorem updateMovesTheEstimate : Obligations.UpdateMovesTheEstimate := by
  intro s bit limit hs
  have hsame : (s.estUpdate bit limit).ptGet s.lastctx = updateCell s.cfg bit limit (s.ptGet s.lastctx) :=
    s.ptGet_ptSet_same _ _ hs
  refine ⟨_, _, _, rfl, rfl, rfl, ?_, ?_, fun a ha => s.ptGet_ptSet_other _ ha, rfl⟩ <;> rw [hsame]
  · rw [cellCount_updateCell, cellCount_countUp_toNat]
  · rw [cellEstimate_updateCell_toNat, updateDelta, cellSlice_toNat]

/-! ## The default parameters (40_estimator.md R81, R83, R87; log 4) -/

/-- The quotients fall with the count, so the first one bounds them. -/
theorem reciprocal_le (n : Nat) : 16384 / (2 * n + 3) ≤ 5461 :=
  Nat.div_le_div_left (a := 16384) (Nat.le_add_left 3 _) (by decide)

theorem dtEntry_default_toNat (n : Byte) : (dtEntry Config.default n).toNat = 16384 / (2 * n.toNat + 3) :=
  Nat.mod_eq_of_lt ((reciprocal_le _).trans_lt (by decide))

theorem dtEntry_default_le (n : Byte) : (dtEntry Config.default n).toNat ≤ 5461 :=
  dtEntry_default_toNat n ▸ reciprocal_le _

/-- Settles O18: no quotient exceeds the 13 bits of an entry. -/
theorem reciprocalTableFormula : Obligations.ReciprocalTableFormula :=
  fun n => ⟨dtEntry_default_toNat n, (dtEntry_default_le n).trans (by decide)⟩

/-- From a count of 31 on the default rate is below 256. -/
theorem count_le_of_rate_ge {n : Byte} (h : 256 ≤ (dtEntry Config.default n).toNat) : n.toNat ≤ 30 := by
  rw [dtEntry_default_toNat, Nat.le_div_iff_mul_le (by omega)] at h
  omega

/-- The weight of a history is between 3, of no 1 bit, and 13, of eight of which two count double. -/
theorem seedWeight_bounds (h : Byte) : 3 ≤ seedWeight h ∧ seedWeight h ≤ 13 := by
  have bit (i : Nat) : (h.getLsbD i).toNat ≤ 1 := Bool.toNat_le _
  refine ⟨Nat.le_add_left _ _, ?_⟩
  unfold seedWeight
  linarith [bit 0, bit 1, bit 2, bit 3, bit 4, bit 5, bit 6, bit 7]

/-- An estimate `w * 2^20` stands in the top four bits of its cell. -/
theorem packCell_weight (w : Nat) (k : Byte) :
    packCell (BitVec.ofNat 24 (w * 2 ^ 20)) k = (BitVec.ofNat 32 w <<< 28) ||| k.setWidth 32 := by
  have hshift : (BitVec.ofNat 24 (w * 2 ^ 20)).setWidth 32 <<< 8 = BitVec.ofNat 32 w <<< 28 := by
    apply BitVec.eq_of_toNat_eq
    simp only [BitVec.toNat_shiftLeft, BitVec.toNat_setWidth, BitVec.toNat_ofNat, Nat.shiftLeft_eq]
    omega
  rw [packCell, hshift]

/-- Settles O19: the weight is `seedWeight` of the low byte of the context. -/
theorem seedFormula : Obligations.SeedFormula := by
  intro ctx
  obtain ⟨hlo, hhi⟩ := seedWeight_bounds (BitVec.ofNat 8 ctx.toNat)
  refine ⟨seedWeight (BitVec.ofNat 8 ctx.toNat), ?_, hlo, hhi, packCell_weight _ _⟩
  simp [seedWeight]

/-- At any rate of 13 bits a 0 bit takes at most `32 * slice` off an estimate that is at least `64 * slice`. -/
theorem estimate_of_zero_bit_nonneg (c : Word) (rate : Rate) :
    0 ≤ ((cellEstimate c).toNat : Int) + updateDelta false (cellSlice c) rate / 256 := by
  have hrate := rate.isLt
  have hslice := cellSlice_eq_cellEstimate_div c
  have hprod : (cellSlice c).toNat * rate.toNat ≤ (cellSlice c).toNat * 2 ^ 13 := Nat.mul_le_mul_left _ hrate.le
  have hdelta : updateDelta false (cellSlice c) rate = -((cellSlice c).toNat * rate.toNat : Nat) := by
    simp [updateDelta]
  omega

/-- A 1 bit adds less than `22 * d` to an estimate at least `64 * d - 63` away from the carry, `d` being the distance of
the slice to its target `2^18`: so a carry needs `d = 1`. -/
theorem carry_of_one_bit {c : Word} {rate : Rate} (hrate : rate.toNat ≤ 5461)
    (hcarry : (2 : Int) ^ 24 ≤ ((cellEstimate c).toNat : Int) + updateDelta true (cellSlice c) rate / 256) :
    (cellSlice c).toNat = 2 ^ 18 - 1 ∧ 256 ≤ rate.toNat ∧ 2 ^ 24 - 21 ≤ (cellEstimate c).toNat := by
  have hestimate := (cellEstimate c).isLt
  have hslice := cellSlice_eq_cellEstimate_div c
  obtain ⟨d, hd⟩ : ∃ d, (cellSlice c).toNat + d = 2 ^ 18 := ⟨_, Nat.add_sub_of_le (cellSlice c).isLt.le⟩
  have hdelta : updateDelta true (cellSlice c) rate = (d * rate.toNat : Nat) := by
    have hd' : (2 : Int) ^ 18 - (cellSlice c).toNat = d := by omega
    rw [updateDelta, Bool.toNat_true, Nat.cast_one, one_mul, hd', Nat.cast_mul]
  have hprod : d * rate.toNat ≤ d * 5461 := Nat.mul_le_mul_left _ hrate
  obtain rfl : d = 1 := by omega
  omega

/-- Settles O22: the bounds on either bit, at the default rates; the two fixed points are evaluated. -/
theorem defaultUpdateStaysInRange : Obligations.DefaultUpdateStaysInRange := by
  refine ⟨fun c => estimate_of_zero_bit_nonneg c _, fun c hcarry => ?_, by decide, by decide⟩
  obtain ⟨hslice, hrate, hestimate⟩ := carry_of_one_bit (dtEntry_default_le _) hcarry
  exact ⟨hslice, count_le_of_rate_ge hrate, hestimate⟩

/-! ## The parameters -/

theorem keptByPhases_cfg (cfg : Config) : KeptByPhases fun s => s.cfg = cfg where
  respond _ _ _ hs := hs
  raiseOverflow _ hs := hs
  codeBit s b hs := (s.codeBit_cfg b).trans hs
  emit _ _ _ hs := hs
  shiftBounds _ hs := hs
  shiftNeedle s hs := by rw [s.shiftNeedle_frame]; exact hs
  finish _ hs := hs

/-- No access changes the parameters: every phase of a command keeps them, and power-on reset does. -/
theorem afterAccess_cfg (a : HostAccess) (s : State) : (afterAccess a s).cfg = s.cfg := by
  rcases afterAccess_cases a s with ⟨i, _, _, he⟩ | ⟨_, he⟩ | ⟨_, _, _, _, _, _, _, he⟩ <;> rw [he]
  · exact (keptByPhases_cfg s.cfg).command (fun _ _ hs => hs) i rfl
  · rfl

/-- Settles O48: `DT` is read off the configuration, which no access changes. -/
theorem parametersNeverChange : Obligations.ParametersNeverChange := by
  intro s t hstep
  have hcfg : t.cfg = s.cfg := by
    rcases step_cases hstep with ⟨_, rfl⟩ | ⟨a, rest, _, _, rfl⟩
    · rfl
    · exact afterAccess_cfg a (s.setPending rest)
  exact ⟨hcfg, fun n => by rw [hcfg]⟩

end Sys2Proof.Machine

namespace Sys2Proof.Machine

/-! ## The context (41_predictor.md R101) -/

/-- The context is the concatenation that R101 writes. -/
theorem contextOf_eq_append (k h : Byte) : contextOf k h = k ++ h := by
  rw [contextOf, BitVec.append_def, BitVec.shiftLeftZeroExtend_eq, BitVec.setWidth'_eq]

theorem contextOf_toNat (k h : Byte) : (contextOf k h).toNat = 256 * k.toNat + h.toNat := by
  rw [contextOf_eq_append, BitVec.toNat_append, ← Nat.shiftLeft_add_eq_or_of_lt h.isLt, Nat.shiftLeft_eq, mul_comm]

/-- Settles O24: the two parts of a concatenation of `PREFIX` and its history entry. -/
theorem contextIsPrefixThenHistory : Obligations.ContextIsPrefixThenHistory := by
  intro s
  refine ⟨contextOf_toNat _ _, s.context.isLt, ?_, ?_⟩ <;> rw [State.context, contextOf_eq_append]
  · exact BitVec.extractLsb'_append_eq_left
  · exact BitVec.extractLsb'_append_eq_right

/-! ## The history and `PREFIX` after one bit (41_predictor.md R104, R105) -/

theorem historyNext_toNat (h : Byte) (b : Bool) : (historyNext h b).toNat = (2 * h.toNat + b.toNat) % 256 :=
  BitVec.toNat_ofNat _ _

/-- The rotate rule is a shift that takes the bit in at the bottom. -/
theorem historyNext_eq_shiftConcat (h : Byte) (b : Bool) : historyNext h b = h.shiftConcat b := by
  apply BitVec.eq_of_toNat_eq
  rw [historyNext_toNat, BitVec.toNat_shiftConcat, Nat.shiftLeft_eq, pow_one, mul_comm]

theorem prefixNext_toNat (k : Byte) (b : Bool) :
    (prefixNext k b).toNat = if 256 ≤ 2 * k.toNat + b.toNat then 0 else 2 * k.toNat + b.toNat := by
  have hb := b.toNat_lt
  by_cases hk : k.toNat < 128
  · rw [prefixNext_toNat_of_lt b hk, if_neg (by omega)]
  · rw [prefixNext_eq_zero_of_le b (by omega), if_pos (by omega)]
    rfl

/-! ## What an update writes (41_predictor.md R103) -/

theorem State.ptGet_predUpdate_same (s : State) (b : Bool) (hs : s.FormsOk) :
    (s.predUpdate b).ptGet s.lastctx = updateCell s.cfg b s.cfg.adaptLimit (s.ptGet s.lastctx) :=
  s.ptGet_ptSet_same _ _ hs

theorem State.ptGet_predUpdate_other (s : State) (b : Bool) {a : Half} (h : a ≠ s.lastctx) :
    (s.predUpdate b).ptGet a = s.ptGet a :=
  s.ptGet_ptSet_other _ h

theorem State.histGet_predUpdate_same (s : State) (b : Bool) (hs : s.FormsOk) :
    (s.predUpdate b).histGet s.pfx = historyNext (s.histGet s.pfx) b :=
  s.histGet_histSet_same _ _ hs

theorem State.histGet_predUpdate_other (s : State) (b : Bool) {k : Byte} (h : k ≠ s.pfx) :
    (s.predUpdate b).histGet k = s.histGet k :=
  s.histGet_histSet_other _ h

/-- Settles O25: a read of each table after its one write, and the two rules as numbers. -/
theorem predictorUpdateWritesThree : Obligations.PredictorUpdateWritesThree := by
  intro s b hs
  refine ⟨_, rfl, s.ptGet_predUpdate_same b hs, fun _ => s.ptGet_predUpdate_other b, ?_,
    fun _ => s.histGet_predUpdate_other b, prefixNext_toNat s.pfx b, rfl⟩
  rw [s.histGet_predUpdate_same b hs, historyNext_toNat]

/-! ## Bits taken in one by one -/

/-- The number `n` followed by the binary digits `bs`, the most significant first. -/
def pushBits (n : Nat) (bs : List Bool) : Nat := bs.foldl (fun m b => 2 * m + b.toNat) n

theorem pushBits_concat (n : Nat) (bs : List Bool) (b : Bool) :
    pushBits n (bs ++ [b]) = 2 * pushBits n bs + b.toNat := List.foldl_concat _ _ _ _

/-- A history entry holds the low eight digits of all it has taken in. -/
theorem foldl_historyNext_toNat (bs : List Bool) (h : Byte) :
    (bs.foldl historyNext h).toNat = pushBits h.toNat bs % 256 := by
  induction bs using List.reverseRecOn with
  | nil => exact (Nat.mod_eq_of_lt h.isLt).symm
  | append_singleton bs b ih =>
    rw [List.foldl_concat, historyNext_toNat, ih, pushBits_concat]
    omega

/-- `PREFIX` takes in every digit while the number of them fits eight bits. -/
theorem foldl_prefixNext_toNat {bs : List Bool} {k : Byte} (hk : (k.toNat + 1) * 2 ^ bs.length ≤ 256) :
    (bs.foldl prefixNext k).toNat = pushBits k.toNat bs := by
  induction bs generalizing k with
  | nil => rfl
  | cons b bs ih =>
    rw [List.length_cons, pow_succ] at hk
    have hb := b.toNat_lt
    have hlt : k.toNat < 128 := by nlinarith [Nat.two_pow_pos bs.length]
    have hnext := prefixNext_toNat_of_lt b hlt
    rw [List.foldl_cons, ih (by rw [hnext]; nlinarith), hnext]
    rfl

/-- The first `j` data bits of a byte are its digits from bit 7 down. -/
theorem take_byteBits (v : Byte) {j : Nat} (hj : j ≤ 8) :
    (byteBits v).take j = (List.range j).map fun i => v.getLsbD (7 - i) := by
  have hall : byteBits v = (List.range 8).map fun i => v.getLsbD (7 - i) := rfl
  rw [hall, ← List.map_take, List.take_range, min_eq_left hj]

/-- The first `j` data bits of a byte are a quotient of it. -/
theorem pushBits_take_byteBits (n : Nat) (v : Byte) {j : Nat} (hj : j ≤ 8) :
    pushBits n ((byteBits v).take j) = n * 2 ^ j + v.toNat / 2 ^ (8 - j) := by
  rw [take_byteBits v hj]
  induction j with
  | zero => simpa [pushBits] using v.isLt
  | succ j ih =>
    have hdigit : (v.getLsbD (7 - j)).toNat = v.toNat / 2 ^ (7 - j) % 2 := Nat.toNat_testBit _ _
    have hexp : 8 - (j + 1) = 7 - j := Nat.add_sub_add_right 7 1 j
    have hquot : v.toNat / 2 ^ (8 - j) = v.toNat / 2 ^ (7 - j) / 2 := by
      rw [Nat.div_div_eq_div_mul, ← pow_succ]
      congr 2
      omega
    rw [List.range_succ, List.map_append, List.map_singleton, pushBits_concat, ih (by omega), hdigit, hquot,
      hexp, pow_succ, ← mul_assoc]
    omega

/-- Settles O26: the entry is a shift register eight bits wide. -/
theorem historyShiftsInEachBit : Obligations.HistoryShiftsInEachBit := by
  refine ⟨fun h b => ⟨historyNext_toNat h b, ?_, fun i hi => ?_⟩, fun h v => ?_, fun s b k hs => ?_⟩
  · simp [historyNext_eq_shiftConcat]
  · have hi' : i + 1 < 8 := by omega
    rw [historyNext_eq_shiftConcat, BitVec.getLsbD_shiftConcat, decide_eq_true hi', if_neg i.succ_ne_zero,
      Bool.true_and, Nat.add_sub_cancel]
  · have hbits : pushBits h.toNat (byteBits v) = h.toNat * 256 + v.toNat / 1 :=
      pushBits_take_byteBits h.toNat v le_rfl
    apply BitVec.eq_of_toNat_eq
    rw [foldl_historyNext_toNat, hbits]
    omega
  · split
    case isTrue hk => rw [hk, s.histGet_predUpdate_same b hs]
    case isFalse hk => exact s.histGet_predUpdate_other b hk

/-- Settles O27: after the continuation bit `PREFIX` is 1, and takes in the data bits behind that 1. -/
theorem prefixAdvancesAndWraps : Obligations.PrefixAdvancesAndWraps := by
  refine ⟨fun k b => ⟨fun hk => prefixNext_toNat_of_lt b (by omega), prefixNext_eq_zero_of_le b⟩, rfl,
    fun v => ⟨foldl_prefixNext_symbolBits v, fun j hj hj8 => ?_⟩⟩
  obtain ⟨j, rfl⟩ := Nat.exists_eq_add_of_le' hj
  have hfirst : prefixNext 0 true = 1 := rfl
  have hfits : ((1 : Byte).toNat + 1) * 2 ^ ((byteBits v).take j).length ≤ 256 := by
    have hlen : ((byteBits v).take j).length ≤ 7 := (List.length_take_le _ _).trans (by omega)
    exact Nat.mul_le_mul_left 2 (Nat.pow_le_pow_right two_pos hlen)
  rw [symbolBits, List.take_succ_cons, List.foldl_cons, hfirst, foldl_prefixNext_toNat hfits,
    pushBits_take_byteBits _ v (by omega), Nat.add_sub_cancel]
  simp

end Sys2Proof.Machine

namespace Sys2Proof.Machine

/-! ## Bytes and shifts of a word (20_memory.md R40) -/

theorem topByte_toNat (v : Word) : (topByte v).toNat = v.toNat / 2 ^ 24 := by
  simp only [topByte, BitVec.extractLsb'_toNat, Nat.shiftRight_eq_div_pow]
  omega

theorem wordByte_toNat (v : Word) (j : Nat) : (wordByte v j).toNat = v.toNat / 2 ^ (24 - 8 * j) % 2 ^ 8 := by
  rw [wordByte, BitVec.toNat_setWidth, BitVec.toNat_ushiftRight, Nat.shiftRight_eq_div_pow]

theorem wordByte_zero (v : Word) : wordByte v 0 = topByte v := by
  apply BitVec.eq_of_toNat_eq
  rw [wordByte_toNat, topByte_toNat]
  omega

theorem shiftZero_toNat (v : Word) : (shiftZero v).toNat = v.toNat % 2 ^ 24 * 2 ^ 8 := by
  rw [shiftZero, BitVec.toNat_shiftLeft, Nat.shiftLeft_eq]
  omega

theorem shiftByte_toNat (v : Word) (b : Byte) : (shiftByte v b).toNat = v.toNat % 2 ^ 24 * 2 ^ 8 + b.toNat := by
  rw [shiftByte, BitVec.toNat_or, ← shiftZero, shiftZero_toNat, BitVec.toNat_setWidth_of_le (by omega),
    ← Nat.shiftLeft_eq, Nat.shiftLeft_add_eq_or_of_lt b.isLt]

theorem shiftZero_eq_shiftByte (v : Word) : shiftZero v = shiftByte v 0 := by
  apply BitVec.eq_of_toNat_eq
  simp [shiftZero_toNat, shiftByte_toNat]

/-- A shift moves every byte one place up. -/
theorem wordByte_shiftByte (v : Word) (b : Byte) {j : Nat} (hj : j < 3) :
    wordByte (shiftByte v b) j = wordByte v (j + 1) := by
  have hb := b.isLt
  apply BitVec.eq_of_toNat_eq
  rw [wordByte_toNat, wordByte_toNat, shiftByte_toNat]
  interval_cases j <;> omega

/-- The byte a shift takes in is the last one. -/
theorem wordByte_shiftByte_last (v : Word) (b : Byte) : wordByte (shiftByte v b) 3 = b := by
  have hb := b.isLt
  apply BitVec.eq_of_toNat_eq
  rw [wordByte_toNat, shiftByte_toNat]
  omega

/-- A word is the number its four bytes write. -/
theorem word_toNat_eq_bytes (v : Word) :
    v.toNat = (wordByte v 0).toNat * 2 ^ 24 + (wordByte v 1).toNat * 2 ^ 16 + (wordByte v 2).toNat * 2 ^ 8
      + (wordByte v 3).toNat := by
  simp only [wordByte_toNat]
  omega

theorem word_ext {v w : Word} (h : ∀ j, j < 4 → wordByte v j = wordByte w j) : v = w := by
  apply BitVec.eq_of_toNat_eq
  rw [word_toNat_eq_bytes v, word_toNat_eq_bytes w, h 0 (by omega), h 1 (by omega), h 2 (by omega), h 3 (by omega)]

/-- A word is its top byte and its low 24 bits. -/
theorem toNat_eq_topByte_add (v : Word) : v.toNat = (topByte v).toNat * 2 ^ 24 + v.toNat % 2 ^ 24 := by
  rw [topByte_toNat]
  omega

theorem lt_of_topByte_lt {v w : Word} (h : topByte v < topByte w) : v < w := by
  rw [BitVec.lt_def, topByte_toNat, topByte_toNat] at h
  rw [BitVec.lt_def]
  omega

theorem topByte_lt_of_le {v w : Word} (h : v ≤ w) (hne : topByte v ≠ topByte w) : topByte v < topByte w := by
  have hne' : (topByte v).toNat ≠ (topByte w).toNat := fun e => hne (BitVec.eq_of_toNat_eq e)
  rw [topByte_toNat, topByte_toNat] at hne'
  rw [BitVec.le_def] at h
  rw [BitVec.lt_def, topByte_toNat, topByte_toNat]
  omega

/-- Words with one top byte stay in order when it is shifted out, whatever comes in after them. -/
theorem shiftByte_le_shiftByte {v w : Word} (htop : topByte v = topByte w) (h : v ≤ w) {a b : Byte} (hab : a ≤ b) :
    shiftByte v a ≤ shiftByte w b := by
  have hv := toNat_eq_topByte_add v
  have hw := toNat_eq_topByte_add w
  rw [BitVec.le_def] at *
  rw [shiftByte_toNat, shiftByte_toNat]
  rw [htop] at hv
  omega

/-- And they were in order before it if they are after it. -/
theorem le_of_shiftByte_le {v w : Word} (htop : topByte v = topByte w) {a b : Byte}
    (h : shiftByte v a ≤ shiftByte w b) : v ≤ w := by
  have hv := toNat_eq_topByte_add v
  have hw := toNat_eq_topByte_add w
  have hb := b.isLt
  rw [BitVec.le_def, shiftByte_toNat, shiftByte_toNat] at h
  rw [BitVec.le_def]
  rw [htop] at hv
  omega

/-- A round turns the width `w` of the interval into `256 w + 255` (42_coder.md R127). -/
theorem shiftByte_sub_shiftZero {v w : Word} (htop : topByte v = topByte w) (h : v ≤ w) :
    (shiftByte w 0xFF).toNat - (shiftZero v).toNat = 256 * (w.toNat - v.toNat) + 255 := by
  have hv := toNat_eq_topByte_add v
  have hw := toNat_eq_topByte_add w
  have hones : (0xFF : Byte).toNat = 255 := rfl
  rw [BitVec.le_def] at h
  rw [shiftByte_toNat, shiftZero_toNat, hones]
  rw [htop] at hv
  omega

/-! ## The bounds after `k` rounds -/

@[simp] theorem lowShifted_zero (v : Word) : lowShifted v 0 = v := by simp [lowShifted]
@[simp] theorem highShifted_zero (v : Word) : highShifted v 0 = v := by simp [highShifted]

theorem lowShifted_succ (v : Word) (k : Nat) : lowShifted v (k + 1) = shiftZero (lowShifted v k) := by
  rw [lowShifted, lowShifted, shiftZero, ← BitVec.shiftLeft_add, Nat.mul_succ]

theorem highShifted_succ (v : Word) (k : Nat) : highShifted v (k + 1) = shiftByte (highShifted v k) 0xFF := by
  have hones (i : Nat) : (0xFF : Byte).getLsbD i = decide (i < 8) := Nat.testBit_two_pow_sub_one 8 i
  apply BitVec.eq_of_getLsbD_eq
  intro i hi
  simp only [highShifted, shiftByte, BitVec.getLsbD_or, BitVec.getLsbD_shiftLeft, BitVec.getLsbD_setWidth,
    BitVec.getLsbD_ofNat, Nat.testBit_two_pow_sub_one, hones, hi, decide_true, Bool.true_and]
  grind

/-- After `k` rounds byte `k` of a bound is its top byte. -/
theorem wordByte_highShifted (v : Word) {k j : Nat} (h : k + j < 4) :
    wordByte (highShifted v k) j = wordByte v (k + j) := by
  induction k generalizing j with
  | zero => rw [highShifted_zero, Nat.zero_add]
  | succ k ih => rw [highShifted_succ, wordByte_shiftByte _ _ (by omega), ih (by omega)]; congr 1; omega

theorem topByte_highShifted (v : Word) {k : Nat} (hk : k < 4) : topByte (highShifted v k) = wordByte v k := by
  rw [← wordByte_zero, wordByte_highShifted v hk, Nat.add_zero]

/-! ## The bytes two words share (42_coder.md R127) -/

theorem sharedBytes_eq_zero {v w : Word} (h : topByte v ≠ topByte w) : sharedBytes v w = 0 := by
  rw [sharedBytes, wordByte_zero, wordByte_zero, if_pos h]

theorem topByte_eq_of_sharedBytes_pos {v w : Word} (h : 0 < sharedBytes v w) : topByte v = topByte w := by
  by_contra hne
  rw [sharedBytes_eq_zero hne] at h
  exact absurd h (Nat.lt_irrefl 0)

/-- A round removes one shared byte: what it shifts in at the bottom differs. -/
theorem sharedBytes_succ {v w : Word} (h : topByte v = topByte w) :
    sharedBytes v w = sharedBytes (shiftZero v) (shiftByte w 0xFF) + 1 := by
  have hv {j : Nat} (hj : j < 3) : wordByte (shiftZero v) j = wordByte v (j + 1) := by
    rw [shiftZero_eq_shiftByte, wordByte_shiftByte v 0 hj]
  have hlast : wordByte (shiftZero v) 3 ≠ wordByte (shiftByte w 0xFF) 3 := by
    rw [shiftZero_eq_shiftByte, wordByte_shiftByte_last, wordByte_shiftByte_last]
    decide
  unfold sharedBytes
  rw [wordByte_zero, wordByte_zero, if_neg (not_not_intro h), if_pos hlast]
  simp only [hv, wordByte_shiftByte, Nat.reduceLT, Nat.reduceAdd]
  split_ifs <;> rfl

theorem sharedBytes_le (v w : Word) : sharedBytes v w ≤ 4 := by
  unfold sharedBytes
  split_ifs <;> decide

theorem wordByte_eq_of_lt_sharedBytes {v w : Word} {j : Nat} (h : j < sharedBytes v w) :
    wordByte v j = wordByte w j := by
  unfold sharedBytes at h
  split_ifs at h <;> interval_cases j <;> simp_all

theorem sharedBytes_eq_four_iff (v w : Word) : sharedBytes v w = 4 ↔ v = w := by
  constructor
  · intro h
    exact word_ext fun j hj => wordByte_eq_of_lt_sharedBytes (h ▸ hj)
  · rintro rfl
    simp [sharedBytes]

end Sys2Proof.Machine

namespace Sys2Proof.Machine

/-! ## The midpoint and the two parts (42_coder.md R121, R122) -/

/-- The two-term form is the exact quotient: the high half of the width contributes `p` times itself. -/
theorem twoTerm_eq_div (r p : Nat) : (r >>> 16) * p + (((r % 65536) * p) >>> 16) = r * p / 65536 := by
  have hsplit : r * p = r % 65536 * p + 65536 * (r / 65536 * p) := by
    rw [← mul_assoc, ← add_mul, Nat.mod_add_div]
  rw [hsplit, Nat.add_mul_div_left _ _ (by decide), Nat.shiftRight_eq_div_pow, Nat.shiftRight_eq_div_pow, add_comm]

/-- A part of the width in the proportion `p / 65536`, `p` being a half, is below it. -/
theorem mul_half_div_le (r : Nat) (p : Half) : r * p.toNat / 65536 ≤ r ∧ (0 < r → r * p.toNat / 65536 < r) := by
  have hp : p.toNat < 65536 := p.isLt
  refine ⟨Nat.div_le_of_le_mul (by nlinarith), fun hr => (Nat.div_lt_iff_lt_mul (by decide)).mpr ?_⟩
  exact (Nat.mul_lt_mul_left hr).mpr hp

theorem midpoint_toNat {x1 x2 : Word} (p : Half) (h : x1 ≤ x2) :
    (midpoint x1 x2 p).toNat = x1.toNat + (x2.toNat - x1.toNat) * p.toNat / 65536 := by
  have hx2 := x2.isLt
  have hpart := (mul_half_div_le (x2.toNat - x1.toNat) p).1
  rw [BitVec.le_def] at h
  simp only [midpoint]
  rw [BitVec.toNat_sub_of_le h, add_assoc, twoTerm_eq_div, BitVec.toNat_ofNat]
  omega

/-- The midpoint lies in the interval, and below its upper end where it has two values. -/
theorem midpoint_mem {x1 x2 : Word} (p : Half) (h : x1 ≤ x2) :
    x1 ≤ midpoint x1 x2 p ∧ midpoint x1 x2 p ≤ x2 ∧ (x1 < x2 → midpoint x1 x2 p < x2) := by
  obtain ⟨hle, hlt⟩ := mul_half_div_le (x2.toNat - x1.toNat) p
  have hmid := midpoint_toNat p h
  simp only [BitVec.le_def, BitVec.lt_def] at *
  omega

/-- Settles O28: the exact quotient is at most the width, and below it where that is positive. -/
theorem midpointIsExactAndInside : Obligations.MidpointIsExactAndInside :=
  fun _ _ p h => ⟨midpoint_toNat p h, midpoint_mem p h⟩

/-- Above the midpoint of an open interval there is another value. -/
theorem midpoint_succ {x1 x2 : Word} (p : Half) (h : x1 < x2) :
    (midpoint x1 x2 p + 1).toNat = (midpoint x1 x2 p).toNat + 1 ∧ midpoint x1 x2 p + 1 ≤ x2 := by
  obtain ⟨_, _, hlt⟩ := midpoint_mem p (BitVec.le_of_lt h)
  have hlt := hlt h
  constructor <;> bv_omega

/-- Settles O29: the midpoint ends the lower part, and its successor starts the upper one. -/
theorem narrowingSplitsTheInterval : Obligations.NarrowingSplitsTheInterval := by
  intro s p h
  obtain ⟨hge, _⟩ := midpoint_mem p (BitVec.le_of_lt h)
  obtain ⟨hsucc, hle⟩ := midpoint_succ p h
  exact ⟨_, rfl, rfl, rfl, hsucc, hge, hle⟩

/-! ## A coded bit before renormalization (42_coder.md R135) -/

/-- What the phases of a coded bit leave alone. -/
theorem State.codeBit_frame (s : State) (b : Bool) :
    s.codeBit b = { s with
      x1 := (s.codeBit b).x1, x2 := (s.codeBit b).x2, lastctx := (s.codeBit b).lastctx, lastp := (s.codeBit b).lastp
      pt := (s.codeBit b).pt, hist := (s.codeBit b).hist, pfx := (s.codeBit b).pfx } := by
  cases b <;> rfl

/-- Settles O30: the phases write one cell, one history entry and the registers they name. -/
theorem codedBitPhases : Obligations.CodedBitPhases := by
  intro s b hs
  exact ⟨_, _, rfl, rfl, s.codeBit_lastctx b, s.codeBit_lastp b, s.codeBit_x1 b, s.codeBit_x2 b,
    s.ptGet_codeBit_same b hs, s.histGet_codeBit_same b hs, s.codeBit_pfx b, fun _ => s.ptGet_codeBit_other b,
    fun _ => s.histGet_codeBit_other b, s.codeBit_frame b⟩

/-- Each bit narrows an open interval to a non-empty part of it. -/
theorem State.codeBit_bounds {s : State} (h : s.x1 < s.x2) (b : Bool) :
    s.x1 ≤ (s.codeBit b).x1 ∧ (s.codeBit b).x1 ≤ (s.codeBit b).x2 ∧ (s.codeBit b).x2 ≤ s.x2 := by
  obtain ⟨hge, hle, _⟩ := midpoint_mem s.predPredict.1 (BitVec.le_of_lt h)
  obtain ⟨hsucc, hsuccle⟩ := midpoint_succ s.predPredict.1 h
  rw [s.codeBit_x1, s.codeBit_x2]
  cases b
  · refine ⟨?_, hsuccle, BitVec.le_refl _⟩
    rw [BitVec.le_def] at hge
    rw [if_neg Bool.false_ne_true, State.split, BitVec.le_def, hsucc]
    omega
  · exact ⟨BitVec.le_refl _, hge, hle⟩

/-- And strictly shrinks it. -/
theorem State.codeBit_width_lt {s : State} (h : s.x1 < s.x2) (b : Bool) :
    (s.codeBit b).x2.toNat - (s.codeBit b).x1.toNat < s.x2.toNat - s.x1.toNat := by
  obtain ⟨hge, _, hlt⟩ := midpoint_mem s.predPredict.1 (BitVec.le_of_lt h)
  obtain ⟨hsucc, _⟩ := midpoint_succ s.predPredict.1 h
  have hlt := hlt h
  rw [s.codeBit_x1, s.codeBit_x2]
  rw [BitVec.le_def] at hge
  rw [BitVec.lt_def] at h hlt
  cases b
  · rw [if_neg Bool.false_ne_true, if_neg Bool.false_ne_true, State.split, hsucc]
    omega
  · rw [if_pos rfl, if_pos rfl, State.split]
    omega

/-! ## Byte output and byte input (42_coder.md R123, R124) -/

/-- Settles O31: the two ways a byte emit ends. -/
theorem emitChecksCapacityFirst : Obligations.EmitChecksCapacityFirst := by
  intro s v hs
  rcases s.emit_cases v with ⟨hfull, he⟩ | ⟨hroom, he⟩
  · exact ⟨fun _ => he, fun h => absurd hfull (BitVec.not_le.mpr h)⟩
  · exact ⟨fun h => absurd hroom (BitVec.not_lt.mpr h), fun _ => ⟨_, he, s.bufGet_bufSet_same s.pos v hs,
      fun a => s.bufGet_bufSet_other v, State.advance_pos_toNat (s := s.bufSet s.pos v) hroom, rfl⟩⟩

/-- Settles O32: the two branches of the cursor check. -/
theorem nextByteReadsZeroPastTheEnd : Obligations.NextByteReadsZeroPastTheEnd := by
  intro s
  exact ⟨fun h => ⟨if_pos h, State.advance_pos_toNat h⟩, fun h => if_neg (BitVec.not_lt.mpr h)⟩

end Sys2Proof.Machine

namespace Sys2Proof.Machine

/-! ## The closed forms, field by field -/

section
variable (s : State) (k : Nat) (buf : List Host.Cell)

@[simp] theorem State.consumed_x1 : (s.consumed k).x1 = lowShifted s.x1 k := rfl
@[simp] theorem State.consumed_x2 : (s.consumed k).x2 = highShifted s.x2 k := rfl
@[simp] theorem State.consumed_x : (s.consumed k).x = s.needleAfter k := rfl
@[simp] theorem State.consumed_pos : (s.consumed k).pos = s.pos + BitVec.ofNat 32 (min k s.room) := rfl
@[simp] theorem State.consumed_limit : (s.consumed k).limit = s.limit := rfl
@[simp] theorem State.consumed_mode : (s.consumed k).mode = s.mode := rfl

@[simp] theorem State.emitted_x1 : (s.emitted k buf).x1 = lowShifted s.x1 k := rfl
@[simp] theorem State.emitted_x2 : (s.emitted k buf).x2 = highShifted s.x2 k := rfl
@[simp] theorem State.emitted_pos : (s.emitted k buf).pos = s.pos + BitVec.ofNat 32 k := rfl
@[simp] theorem State.emitted_limit : (s.emitted k buf).limit = s.limit := rfl

end

/-! ## The decompress loop in closed form (42_coder.md R126) -/

/-- The state after `k` bytes were consumed into the needle, the bounds not shifted. -/
def State.fed (s : State) (k : Nat) : State :=
  { s with x := s.needleAfter k, pos := s.pos + BitVec.ofNat 32 (min k s.room) }

theorem State.room_pos_iff (s : State) : 0 < s.room ↔ s.pos < s.limit := by
  rw [State.room, BitVec.lt_def, Nat.sub_pos_iff_lt]

/-- The cursor moves on over the bytes there are. -/
theorem State.pos_add_toNat (s : State) {k : Nat} (h : k ≤ s.room) :
    (s.pos + BitVec.ofNat 32 k).toNat = s.pos.toNat + k := by
  have hl := s.limit.isLt
  have hp := s.pos.isLt
  rw [State.room] at h
  rw [BitVec.toNat_add, BitVec.toNat_ofNat]
  omega

theorem State.fed_pos_toNat (s : State) (k : Nat) : (s.fed k).pos.toNat = s.pos.toNat + min k s.room :=
  s.pos_add_toNat (min_le_right _ _)

theorem State.inputByte_of_lt {s : State} {j : Nat} (h : j < s.room) :
    s.inputByte j = cellsGet bufDefault s.buf (s.pos.toNat + j) := by
  rw [State.room] at h
  exact if_pos (by omega)

theorem State.inputByte_of_le {s : State} {j : Nat} (h : s.room ≤ j) : s.inputByte j = 0 := by
  rw [State.room] at h
  exact if_neg (by omega)

theorem State.fed_room (s : State) (k : Nat) : (s.fed k).room = s.room - k := by
  have hpos := s.fed_pos_toNat k
  have hlimit : (s.fed k).limit = s.limit := rfl
  rw [State.room, hlimit, hpos, State.room]
  omega

/-- What is still to come after `k` bytes are the bytes from the `k`-th on. -/
theorem State.fed_inputByte (s : State) (k j : Nat) : (s.fed k).inputByte j = s.inputByte (k + j) := by
  have hroom := s.fed_room k
  by_cases h : k + j < s.room
  · have hpos := s.fed_pos_toNat k
    rw [State.inputByte_of_lt h, State.inputByte_of_lt (by omega), hpos, min_eq_left (by omega), add_assoc]
    rfl
  · rw [State.inputByte_of_le (s := s) (by omega), State.inputByte_of_le (by omega)]

/-- One byte is consumed: `NEXTBYTE` as the input byte at the cursor. -/
theorem State.shiftNeedle_eq_fed (s : State) : s.shiftNeedle = s.fed 1 := by
  rcases s.shiftNeedle_cases with ⟨h, he⟩ | ⟨h, he⟩ <;> rw [he] <;> rw [← s.room_pos_iff] at h
  · simp only [State.fed, State.needleAfter, State.inputByte_of_lt h, min_eq_left (show 1 ≤ s.room from h)]
    rfl
  · have hroom : s.room = 0 := by omega
    simp [State.fed, State.needleAfter, State.inputByte_of_le, hroom, State.setX]

theorem State.fed_succ (s : State) (k : Nat) : s.fed (k + 1) = (s.fed k).shiftNeedle := by
  rw [State.shiftNeedle_eq_fed]
  have hx : (s.fed k).needleAfter 1 = s.needleAfter (k + 1) := by
    simp only [State.needleAfter, State.fed_inputByte]
    rfl
  have hpos : (s.fed (k + 1)).pos = (s.fed k).pos + BitVec.ofNat 32 (min 1 (s.fed k).room) := by
    apply BitVec.eq_of_toNat_eq
    have hk := s.fed_pos_toNat k
    have hroom := s.fed_room k
    rw [s.fed_pos_toNat, (s.fed k).pos_add_toNat (min_le_right _ _), hk, hroom]
    omega
  rw [State.fed.eq_1 (s.fed k), ← hpos, hx]
  rfl

theorem State.shiftNeedle_iterate (s : State) (k : Nat) : State.shiftNeedle^[k] s = s.fed k := by
  induction k with
  | zero => simp [State.fed, State.needleAfter]
  | succ k ih => rw [Function.iterate_succ_apply', ih, State.fed_succ]

/-- A needle is consumed whatever the bounds are. -/
theorem State.shiftNeedle_setBounds (s : State) (v w : Word) :
    ((s.setX1 v).setX2 w).shiftNeedle = (s.shiftNeedle.setX1 v).setX2 w := by
  rw [State.shiftNeedle_eq_fed, State.shiftNeedle_eq_fed]
  rfl

theorem State.consumed_eq_fed (s : State) (k : Nat) :
    s.consumed k = ((s.fed k).setX1 (lowShifted s.x1 k)).setX2 (highShifted s.x2 k) := rfl

theorem State.consumed_succ (s : State) (k : Nat) : s.consumed (k + 1) = (s.consumed k).consumeRound := by
  have hshift : (s.consumed k).shiftBounds =
      ((s.fed k).setX1 (lowShifted s.x1 (k + 1))).setX2 (highShifted s.x2 (k + 1)) := by
    rw [lowShifted_succ, highShifted_succ]
    rfl
  rw [State.consumeRound, hshift, State.shiftNeedle_setBounds, ← State.fed_succ, State.consumed_eq_fed]

theorem State.consumed_zero (s : State) : s.consumed 0 = s := by
  simp [State.consumed, State.needleAfter]

theorem State.consumeRound_iterate (s : State) (k : Nat) : State.consumeRound^[k] s = s.consumed k := by
  induction k with
  | zero => exact s.consumed_zero.symm
  | succ k ih => rw [Function.iterate_succ_apply', ih, State.consumed_succ]

@[simp] theorem State.consumeRound_x1 (s : State) : s.consumeRound.x1 = shiftZero s.x1 := by
  rw [State.consumeRound, State.shiftNeedle_frame]
  rfl

@[simp] theorem State.consumeRound_x2 (s : State) : s.consumeRound.x2 = shiftByte s.x2 0xFF := by
  rw [State.consumeRound, State.shiftNeedle_frame]
  rfl

/-- The loop runs as many rounds as the bounds share leading bytes, if it may. -/
theorem State.renormDec_eq_consumed (n : Nat) (s : State) :
    State.renormDec n s = s.consumed (min n (sharedBytes s.x1 s.x2)) := by
  rw [← State.consumeRound_iterate]
  induction n generalizing s with
  | zero => rw [Nat.zero_min]; rfl
  | succ n ih =>
    rw [State.renormDec]
    by_cases htop : topByte s.x1 = topByte s.x2
    · rw [if_pos htop, ← State.consumeRound, ih, sharedBytes_succ htop, Nat.add_min_add_right,
        Function.iterate_succ_apply, s.consumeRound_x1, s.consumeRound_x2]
    · rw [if_neg htop, sharedBytes_eq_zero htop, Nat.min_zero]
      rfl

/-- Settles O34: the bounds never share more bytes than the rounds allowed. -/
theorem renormDecConsumesAsManyBytes : Obligations.RenormDecConsumesAsManyBytes := by
  intro s
  rw [State.renormDec_eq_consumed, maxRounds, min_eq_right (sharedBytes_le _ _)]

/-! ## The compress loop in closed form (42_coder.md R125) -/

theorem State.emitRound_room (s : State) (h : s.pos < s.limit) : s.emitRound.room + 1 = s.room := by
  have hpos : s.emitRound.pos.toNat = s.pos.toNat + 1 := State.advance_pos_toNat h
  rw [State.room, hpos, s.emitRound_limit, State.room]
  rw [BitVec.lt_def] at h
  omega

/-- The loop emits the leading bytes the bounds share, as many as it may; where there is room for fewer it emits those
and overflows. -/
theorem State.renormEnc_eq_iterate (n : Nat) (s : State) :
    State.renormEnc n s =
      if min n (sharedBytes s.x1 s.x2) ≤ s.room then
        .completed (State.emitRound^[min n (sharedBytes s.x1 s.x2)] s)
      else .overflowed (State.emitRound^[s.room] s).raiseOverflow := by
  induction n generalizing s with
  | zero => simp [State.renormEnc]
  | succ n ih =>
    rw [State.renormEnc_succ]
    by_cases htop : topByte s.x1 = topByte s.x2
    · rw [if_pos htop, sharedBytes_succ htop, Nat.add_min_add_right]
      by_cases hfull : s.limit ≤ s.pos
      · have hroom : s.room = 0 := Nat.sub_eq_zero_of_le hfull
        rw [if_pos hfull, hroom, if_neg (by omega)]
        rfl
      · rw [if_neg hfull, ih, ← s.emitRound_room (by simpa using hfull)]
        rw [Function.iterate_succ_apply, Function.iterate_succ_apply]
        exact if_congr Nat.add_le_add_iff_right.symm rfl rfl
    · rw [if_neg htop, sharedBytes_eq_zero htop, Nat.min_zero, if_pos (Nat.zero_le _)]
      rfl

theorem State.renormEnc_fits {s : State} (h : sharedBytes s.x1 s.x2 ≤ s.room) :
    State.renormEnc maxRounds s = .completed (State.emitRound^[sharedBytes s.x1 s.x2] s) := by
  rw [State.renormEnc_eq_iterate, maxRounds, min_eq_right (sharedBytes_le _ _), if_pos h]

theorem State.renormEnc_overflows {s : State} (h : s.room < sharedBytes s.x1 s.x2) :
    State.renormEnc maxRounds s = .overflowed (State.emitRound^[s.room] s).raiseOverflow := by
  rw [State.renormEnc_eq_iterate, maxRounds, min_eq_right (sharedBytes_le _ _), if_neg (Nat.not_le.mpr h)]

/-- The state after `k` emitting rounds. -/
theorem State.emitRound_iterate (s : State) (k : Nat) :
    State.emitRound^[k] s = s.emitted k (State.emitRound^[k] s).buf := by
  induction k with
  | zero => simp [State.emitted]
  | succ k ih =>
    rw [Function.iterate_succ_apply']
    generalize (State.emitRound^[k] s) = u at ih
    have hpos : s.pos + BitVec.ofNat 32 (k + 1) = s.pos + BitVec.ofNat 32 k + 1 := by
      rw [BitVec.ofNat_add, ← BitVec.add_assoc]
      rfl
    rw [State.emitted, lowShifted_succ, highShifted_succ, hpos, ih]
    rfl

theorem State.FormsOk.emitRound {s : State} (hs : s.FormsOk) : s.emitRound.FormsOk :=
  (hs.bufSet s.pos (topByte s.x2)).congr rfl rfl rfl rfl

theorem State.FormsOk.emitRounds {s : State} (hs : s.FormsOk) (k : Nat) : (State.emitRound^[k] s).FormsOk :=
  Function.Iterate.rec State.FormsOk hs (fun _ => State.FormsOk.emitRound) k

/-- The round after `k` rounds stores the top byte of the upper bound at the cursor. -/
theorem State.emitRound_iterate_succ_buf (s : State) {k : Nat} (hk : k ≤ s.room) :
    (State.emitRound^[k + 1] s).buf =
      cellsSet bufDefault (State.emitRound^[k] s).buf (s.pos.toNat + k) (topByte (highShifted s.x2 k)) := by
  rw [Function.iterate_succ_apply', State.emitRound_buf, State.emitRound_iterate]
  rw [← s.pos_add_toNat hk]
  rfl

/-- Rounds leave every byte alone but those they emit. -/
theorem State.emitRound_iterate_buf_other (s : State) {k : Nat} (hk : k ≤ s.room) {a : Nat}
    (ha : a < s.pos.toNat ∨ s.pos.toNat + k ≤ a) :
    cellsGet bufDefault (State.emitRound^[k] s).buf a = cellsGet bufDefault s.buf a := by
  induction k with
  | zero => rfl
  | succ k ih =>
    rw [s.emitRound_iterate_succ_buf (by omega), cellsGet_set_other _ _ (by omega), ih (by omega) (by omega)]

/-- The bytes that rounds emit are the leading ones of the upper bound. -/
theorem State.emitRound_iterate_storesBytes {s : State} (hs : s.FormsOk) {k : Nat} (hk : k ≤ s.room) (hk4 : k ≤ 4) :
    StoresBytes s.buf (State.emitRound^[k] s).buf s.pos s.x2 k := by
  refine ⟨?_, fun a => s.emitRound_iterate_buf_other hk⟩
  induction k with
  | zero => exact fun j hj => absurd hj (Nat.not_lt_zero j)
  | succ k ih =>
    intro j hj
    rw [s.emitRound_iterate_succ_buf (by omega), cellsGet_set _ _ _ _ (hs.emitRounds k).1]
    split
    case isTrue h => rw [topByte_highShifted s.x2 (by omega), Nat.add_left_cancel h]
    case isFalse h => exact ih (by omega) (by omega) j (by omega)

/-- Settles O33: the rounds run are as many as the bounds share, or as fit. -/
theorem renormEncEmitsTheSharedBytes : Obligations.RenormEncEmitsTheSharedBytes := by
  intro s hs
  have hshared := sharedBytes_le s.x1 s.x2
  constructor <;> intro h
  · refine ⟨_, ?_, State.emitRound_iterate_storesBytes hs h hshared⟩
    rw [State.renormEnc_fits h, ← State.emitRound_iterate]
  · refine ⟨_, ?_, State.emitRound_iterate_storesBytes hs le_rfl (by omega)⟩
    rw [State.renormEnc_overflows h, State.raiseOverflow, ← State.emitRound_iterate]

end Sys2Proof.Machine

namespace Sys2Proof.Machine

/-! ## How the loops end (42_coder.md R127) -/

theorem lowShifted_succ_inner (v : Word) (k : Nat) : lowShifted v (k + 1) = lowShifted (shiftZero v) k := by
  induction k with
  | zero => rw [lowShifted_succ, lowShifted_zero, lowShifted_zero]
  | succ k ih => rw [lowShifted_succ, ih, lowShifted_succ]

theorem highShifted_succ_inner (v : Word) (k : Nat) : highShifted v (k + 1) = highShifted (shiftByte v 0xFF) k := by
  induction k with
  | zero => rw [highShifted_succ, highShifted_zero, highShifted_zero]
  | succ k ih => rw [highShifted_succ, ih, highShifted_succ]

/-- Bounds in order stay in order while the bytes they share are shifted out. -/
theorem lowShifted_le_highShifted {v w : Word} {k : Nat} (hk : k ≤ sharedBytes v w) (h : v ≤ w) :
    lowShifted v k ≤ highShifted w k := by
  induction k generalizing v w with
  | zero => rwa [lowShifted_zero, highShifted_zero]
  | succ k ih =>
    have htop : topByte v = topByte w := topByte_eq_of_sharedBytes_pos (by omega)
    rw [sharedBytes_succ htop] at hk
    rw [lowShifted_succ_inner, highShifted_succ_inner, shiftZero_eq_shiftByte]
    rw [shiftZero_eq_shiftByte] at hk
    exact ih (by omega) (shiftByte_le_shiftByte htop h (by decide))

/-- Once the shared bytes are shifted out the top bytes differ. -/
theorem topByte_shifted_ne (v w : Word) :
    topByte (lowShifted v (sharedBytes v w)) ≠ topByte (highShifted w (sharedBytes v w)) := by
  generalize hk : sharedBytes v w = k
  induction k generalizing v w with
  | zero =>
    rw [lowShifted_zero, highShifted_zero]
    intro htop
    simp [sharedBytes_succ htop] at hk
  | succ k ih =>
    have htop : topByte v = topByte w := topByte_eq_of_sharedBytes_pos (by omega)
    rw [sharedBytes_succ htop, Nat.add_right_cancel_iff] at hk
    rw [lowShifted_succ_inner, highShifted_succ_inner]
    exact ih _ _ hk

/-- Ordered bounds end apart. -/
theorem topByte_shifted_lt {v w : Word} (h : v ≤ w) :
    topByte (lowShifted v (sharedBytes v w)) < topByte (highShifted w (sharedBytes v w)) :=
  topByte_lt_of_le (lowShifted_le_highShifted le_rfl h) (topByte_shifted_ne v w)

theorem State.renormEnc_completed {s t : State} (h : State.renormEnc maxRounds s = .completed t) :
    sharedBytes s.x1 s.x2 ≤ s.room ∧ t = State.emitRound^[sharedBytes s.x1 s.x2] s := by
  by_cases hfits : sharedBytes s.x1 s.x2 ≤ s.room
  · rw [State.renormEnc_fits hfits] at h
    cases h
    exact ⟨hfits, rfl⟩
  · rw [State.renormEnc_overflows (Nat.not_le.mp hfits)] at h
    cases h

/-- How either loop leaves the bounds. -/
theorem bounds_after_rounds {v w v' w' : Word} (hlow : v' = lowShifted v (sharedBytes v w))
    (hhigh : w' = highShifted w (sharedBytes v w)) :
    topByte v' ≠ topByte w' ∧ (v ≤ w → topByte v' < topByte w' ∧ v' < w') := by
  subst hlow hhigh
  exact ⟨topByte_shifted_ne v w, fun h => ⟨topByte_shifted_lt h, lt_of_topByte_lt (topByte_shifted_lt h)⟩⟩

/-- A fourth round always changes the bounds: the last byte is not both all zeros and all ones. -/
theorem ne_of_three_and_four_rounds {v : Word} {s t : State} (hs1 : s.x1 = lowShifted v 3)
    (hs2 : s.x2 = highShifted v 3) (ht1 : t.x1 = lowShifted v 4) (ht2 : t.x2 = highShifted v 4) : s ≠ t := by
  rintro rfl
  have hlow := hs1.symm.trans ht1
  have hhigh := hs2.symm.trans ht2
  have hzero : lowShifted v 4 = 0 := BitVec.shiftLeft_eq_zero (le_refl 32)
  have hhigh' (k : Nat) : highShifted v k = lowShifted v k ||| BitVec.ofNat 32 (2 ^ (8 * k) - 1) := rfl
  rw [hhigh', hhigh', hlow, hzero] at hhigh
  exact absurd hhigh (by decide)

/-- Three rounds and four differ in number exactly when all four bytes are shared. -/
theorem min_three_eq_min_four_iff (v w : Word) :
    min 3 (sharedBytes v w) = min 4 (sharedBytes v w) ↔ v ≠ w := by
  have hle := sharedBytes_le v w
  rw [ne_eq, ← sharedBytes_eq_four_iff]
  omega

theorem State.renormDec_three_ne_four_iff (s : State) : State.renormDec 3 s ≠ State.renormDec 4 s ↔ s.x1 = s.x2 := by
  have hthree : min 3 4 = 3 := rfl
  rw [State.renormDec_eq_consumed, State.renormDec_eq_consumed, ne_eq, not_iff_comm, ← ne_eq,
    ← min_three_eq_min_four_iff]
  refine ⟨fun h => by rw [h], fun h => ?_⟩
  rw [min_three_eq_min_four_iff]
  intro heq
  rw [(sharedBytes_eq_four_iff _ _).mpr heq, hthree, min_self] at h
  refine ne_of_three_and_four_rounds (v := s.x1) ?_ ?_ ?_ ?_ h <;> simp [heq]

theorem State.renormEnc_three_ne_four_iff {s : State} (hroom : 3 ≤ s.room) :
    State.renormEnc 3 s ≠ State.renormEnc 4 s ↔ s.x1 = s.x2 := by
  have hthree : min 3 4 = 3 := rfl
  rw [State.renormEnc_eq_iterate, State.renormEnc_eq_iterate, if_pos (by omega), ne_eq, not_iff_comm, ← ne_eq,
    ← min_three_eq_min_four_iff]
  refine ⟨fun h => by rw [← h, if_pos (by omega)], fun h => ?_⟩
  rw [min_three_eq_min_four_iff]
  intro heq
  rw [(sharedBytes_eq_four_iff _ _).mpr heq, hthree, min_self] at h
  split at h
  · rw [State.emitRound_iterate s 3, State.emitRound_iterate s 4, Emission.completed.injEq] at h
    refine ne_of_three_and_four_rounds (v := s.x1) ?_ ?_ ?_ ?_ h <;> simp [heq]
  · cases h

/-- Settles O35: no more rounds run than the bounds share bytes, and the shared bytes are at most four. -/
theorem renormalizationStopsWithinFourRounds : Obligations.RenormalizationStopsWithinFourRounds := by
  refine ⟨fun s n => ?_, fun s => ⟨s.renormDec_three_ne_four_iff, State.renormEnc_three_ne_four_iff⟩,
    fun v w => ⟨sharedBytes_le v w, sharedBytes_eq_four_iff v w⟩, fun s t h => ?_, fun s t h => ?_,
    fun v w h htop => shiftByte_sub_shiftZero htop h⟩
  · have hmin (m : Nat) : min (maxRounds + m) (sharedBytes s.x1 s.x2) = sharedBytes s.x1 s.x2 :=
      min_eq_right ((sharedBytes_le _ _).trans (Nat.le_add_right 4 m))
    have hmin0 := hmin 0
    rw [Nat.add_zero] at hmin0
    constructor
    · rw [State.renormEnc_eq_iterate, State.renormEnc_eq_iterate, hmin, hmin0]
    · rw [State.renormDec_eq_consumed, State.renormDec_eq_consumed, hmin, hmin0]
  · obtain ⟨_, ht⟩ := State.renormEnc_completed h
    rw [State.emitRound_iterate] at ht
    exact bounds_after_rounds (congrArg State.x1 ht) (congrArg State.x2 ht)
  · rw [renormDecConsumesAsManyBytes] at h
    exact bounds_after_rounds (congrArg State.x1 h.symm) (congrArg State.x2 h.symm)

end Sys2Proof.Machine

namespace Sys2Proof.Machine

/-! ## `INIT_ENC` and `INIT_DEC` (42_coder.md R130, R131) -/

/-- Settles O15: what the opening of a pass writes; with `LEN = 0` the cursor is at the limit. -/
theorem initEncStartsACompressPass : Obligations.InitEncStartsACompressPass := by
  intro s
  refine ⟨_, rfl, rfl, fun _ => rfl, fun _ => rfl, fun hlen v => ?_⟩
  exact if_pos (show s.len ≤ 0 by rw [hlen]; exact BitVec.le_refl 0)

/-- The needle holds the last four bytes consumed, the first of them most significant. -/
theorem State.wordByte_needleAfter (s : State) (n : Nat) {j : Nat} (hj : j < 4) :
    wordByte (s.needleAfter (n + 4)) j = s.inputByte (n + j) := by
  simp only [State.needleAfter]
  interval_cases j <;> simp [wordByte_shiftByte, wordByte_shiftByte_last]

theorem State.preload_eq_fed (s : State) : s.preload = s.fed 4 := s.shiftNeedle_iterate 4

/-- The input bytes of a pass just opened are those of the buffer, up to `LEN`. -/
theorem State.startPass_inputByte (s : State) (m : Mode) (j : Nat) :
    (s.startPass m).inputByte j = if j < s.len.toNat then cellsGet bufDefault s.buf j else 0 := by
  simp [State.inputByte]

/-- Settles O16: the preload consumes four bytes of the pass just opened. -/
theorem initDecPreloadsTheNeedle : Obligations.InitDecPreloadsTheNeedle := by
  intro s
  have hfed : (s.startPass .dec).preload = (s.startPass .dec).fed 4 := State.preload_eq_fed _
  refine ⟨((s.startPass .dec).fed 4).respond .ok false, ?_, rfl, ?_, fun j hj => ?_, fun _ => rfl, fun _ => rfl⟩
  · rw [exec_eq_execState, execState_initDec, hfed]
  · rw [State.respond_pos, State.fed_pos_toNat]
    simp [State.room]
  · rw [← s.startPass_inputByte .dec j, ← Nat.zero_add j, ← State.wordByte_needleAfter _ 0 hj, Nat.zero_add]
    rfl

/-- Settles O41: opening a pass and consuming bytes write none of what it lists. -/
theorem initFrame : Obligations.InitFrame := by
  rintro i s t (rfl | rfl) hexec <;> rw [execState_of_exec hexec]
  · exact ⟨rfl, fun _ => rfl, rfl, rfl, rfl, rfl⟩
  · rw [execState_initDec, State.preload_eq_fed]
    exact ⟨rfl, fun _ => rfl, rfl, rfl, rfl, rfl⟩

/-! ## `ENCODE_BIT` and `FLUSH` in closed form (42_coder.md R132, R134) -/

@[simp] theorem State.codeBit_room (s : State) (b : Bool) : (s.codeBit b).room = s.room := by simp [State.room]

theorem execState_encodeBit_fits {s : State} {b : Bool} (hm : s.mode = .enc) (ho : s.ovf = false)
    (hfits : sharedBytes (s.codeBit b).x1 (s.codeBit b).x2 ≤ s.room) :
    execState (.encodeBit b) s =
      (State.emitRound^[sharedBytes (s.codeBit b).x1 (s.codeBit b).x2] (s.codeBit b)).respond .ok false := by
  rw [execState_encodeBit b hm ho, State.renormEnc_fits (by rwa [s.codeBit_room])]
  rfl

theorem execState_encodeBit_overflows {s : State} {b : Bool} (hm : s.mode = .enc) (ho : s.ovf = false)
    (hfull : s.room < sharedBytes (s.codeBit b).x1 (s.codeBit b).x2) :
    execState (.encodeBit b) s = (State.emitRound^[s.room] (s.codeBit b)).raiseOverflow := by
  rw [execState_encodeBit b hm ho, State.renormEnc_overflows (by rwa [s.codeBit_room]), s.codeBit_room]
  rfl

/-- An `ENCODE_BIT` that answers `OK` was admitted and had room for its bytes. -/
theorem encodeBit_ok_admitted {s : State} {b : Bool} (hok : (execState (.encodeBit b) s).resp.code = .ok) :
    s.mode = .enc ∧ s.ovf = false ∧ sharedBytes (s.codeBit b).x1 (s.codeBit b).x2 ≤ s.room := by
  rcases execState_encodeBit_cases b s with ⟨c, hc, he⟩ | ⟨hm, ho, _⟩
  · rw [he] at hok
    exact absurd hok (State.encodeRefusal_ne_ok hc)
  · refine ⟨hm, ho, Nat.le_of_not_lt fun hfull => ?_⟩
    rw [execState_encodeBit_overflows hm ho hfull] at hok
    cases hok

/-- Settles O36: the loop completes with the shared bytes emitted. -/
theorem encodeBitCompletes : Obligations.EncodeBitCompletes := by
  intro s b hs hm ho hfits
  have hstores := State.emitRound_iterate_storesBytes (hs.codeBit b) (by rwa [s.codeBit_room]) (sharedBytes_le _ _)
  rw [s.codeBit_buf, s.codeBit_pos] at hstores
  refine ⟨_, ?_, hstores⟩
  rw [exec_eq_execState, execState_encodeBit_fits hm ho hfits, State.respond, ← State.emitRound_iterate]

/-- Emitting moves the cursor towards the limit. -/
theorem State.emitRound_iterate_room (s : State) {k : Nat} (hk : k ≤ s.room) :
    (State.emitRound^[k] s).room = s.room - k := by
  have hpos := s.pos_add_toNat hk
  rw [s.emitRound_iterate k, State.room, s.emitted_limit, s.emitted_pos, hpos, State.room]
  omega

theorem execState_flush_overflows {s : State} (hm : s.mode = .enc) (ho : s.ovf = false)
    (hfull : s.room ≤ sharedBytes s.x1 s.x2) :
    execState .flush s = (State.emitRound^[s.room] s).raiseOverflow := by
  rw [execState_flush hm ho]
  rcases Nat.lt_or_eq_of_le hfull with hlt | heq
  · rw [State.renormEnc_overflows hlt]
  · rw [State.renormEnc_fits heq.ge, ← heq]
    rcases (State.emitRound^[s.room] s).emitLast_close_cases with ⟨_, he⟩ | ⟨hroom, _⟩
    · exact he
    · rw [← State.room_pos_iff, s.emitRound_iterate_room le_rfl] at hroom
      omega

/-- The last byte is stored as the next round would store it; the bounds are not shifted after it. -/
theorem execState_flush_fits {s : State} (hm : s.mode = .enc) (ho : s.ovf = false)
    (hfits : sharedBytes s.x1 s.x2 + 1 ≤ s.room) :
    execState .flush s =
      { s.emitted (sharedBytes s.x1 s.x2) (State.emitRound^[sharedBytes s.x1 s.x2 + 1] s).buf with
        pos := s.pos + BitVec.ofNat 32 (sharedBytes s.x1 s.x2 + 1), mode := .done, resp := ⟨.ok, false⟩ } := by
  have hle : sharedBytes s.x1 s.x2 ≤ s.room := by omega
  rw [execState_flush hm ho, State.renormEnc_fits hle]
  generalize sharedBytes s.x1 s.x2 = k at *
  rcases (State.emitRound^[k] s).emitLast_close_cases with ⟨hfull, _⟩ | ⟨_, he⟩
  · rw [← BitVec.not_lt, ← State.room_pos_iff, s.emitRound_iterate_room hle] at hfull
    omega
  · have hpos : s.pos + BitVec.ofNat 32 (k + 1) = s.pos + BitVec.ofNat 32 k + 1 := by
      rw [BitVec.ofNat_add, ← BitVec.add_assoc]
      rfl
    rw [hpos, Function.iterate_succ_apply', State.emitRound_buf]
    refine he.trans ?_
    rw [State.emitRound_iterate]
    rfl

/-- Settles O39: the shared bytes and one more fit. -/
theorem flushCompletes : Obligations.FlushCompletes := by
  rintro s k hs hm ho rfl hfits
  have hle4 := sharedBytes_le s.x1 s.x2
  obtain ⟨hshared, _⟩ := State.emitRound_iterate_storesBytes hs (by omega) hle4
  refine ⟨(State.emitRound^[sharedBytes s.x1 s.x2 + 1] s).buf, ?_, fun j hj => ?_, ?_, fun a ha => ?_, fun htop => ?_⟩
  · rw [exec_eq_execState, execState_flush_fits hm ho hfits]
  · rw [s.emitRound_iterate_succ_buf (by omega), cellsGet_set_other _ _ (by omega)]
    exact hshared j hj
  · rw [s.emitRound_iterate_succ_buf (by omega)]
    exact cellsGet_set_same _ _ _ (hs.emitRounds _).1
  · exact s.emitRound_iterate_buf_other hfits (by omega)
  · rw [sharedBytes_eq_zero htop]
    simp

/-- Settles O40: what is emitted before the overflow is all there is room for. -/
theorem flushOverflowStaysInCompressMode : Obligations.FlushOverflowStaysInCompressMode := by
  intro s hs hm ho hfull
  have hle4 := sharedBytes_le s.x1 s.x2
  rw [exec_eq_execState, execState_flush_overflows hm ho hfull]
  refine ⟨⟨_, ?_, State.emitRound_iterate_storesBytes hs le_rfl (by omega)⟩, fun htop => ?_⟩
  · rw [State.raiseOverflow, ← State.emitRound_iterate]
  · rw [sharedBytes_eq_zero htop] at hfull
    rw [Nat.le_zero.mp hfull]
    rfl

/-! ## What the commands leave unchanged -/

/-- The two forms of an admitted `ENCODE_BIT` differ in how many bytes they emit, and in the flags. -/
theorem execState_encodeBit_admitted {s : State} (b : Bool) (hm : s.mode = .enc) (ho : s.ovf = false) :
    ∃ resp ovf, (resp.code = .ok → ovf = s.ovf) ∧ execState (.encodeBit b) s =
      { State.emitRound^[min (sharedBytes (s.codeBit b).x1 (s.codeBit b).x2) s.room] (s.codeBit b) with
        resp := resp, ovf := ovf } := by
  by_cases hfits : sharedBytes (s.codeBit b).x1 (s.codeBit b).x2 ≤ s.room
  · refine ⟨⟨.ok, false⟩, s.ovf, fun _ => rfl, ?_⟩
    rw [execState_encodeBit_fits hm ho hfits, min_eq_left hfits, State.emitRound_iterate]
    simp [State.respond, State.emitted]
  · refine ⟨⟨.eOverflow, false⟩, true, nofun, ?_⟩
    rw [execState_encodeBit_overflows hm ho (by omega), min_eq_right (by omega)]
    rfl

/-- Where the encode commands are refused. -/
theorem State.not_admitted_of_encodeRefusal {s : State} {c : Code} (h : s.encodeRefusal = some c) :
    ¬(s.mode = .enc ∧ s.ovf = false) := by
  rintro ⟨hm, ho⟩
  rcases s.encodeRefusal_cases with ⟨hm', _⟩ | ⟨_, ho', _⟩ | ⟨_, _, he⟩
  · exact hm' hm
  · rw [ho] at ho'
    cases ho'
  · rw [he] at h
    cases h

/-- Settles O42: an admitted bit writes its two table entries, then emits; a refused one stores nothing. -/
theorem encodeBitFrame : Obligations.EncodeBitFrame := by
  intro b s t hexec
  rw [execState_of_exec hexec]
  rcases execState_encodeBit_cases b s with ⟨c, hc, he⟩ | ⟨hm, ho, _⟩
  · refine ⟨0, (if_neg (State.not_admitted_of_encodeRefusal hc)).symm, ?_⟩
    rw [he]
    simp [State.ptGet, State.histGet, State.respond]
  · obtain ⟨resp, ovf, hovf, he⟩ := execState_encodeBit_admitted b hm ho
    refine ⟨_, (if_pos ⟨hm, ho⟩).symm, ?_⟩
    rw [he]
    generalize hk : min (sharedBytes (s.codeBit b).x1 (s.codeBit b).x2) s.room = k
    have hroom : k ≤ (s.codeBit b).room := by rw [s.codeBit_room]; omega
    have hbuf (a : Nat) := (s.codeBit b).emitRound_iterate_buf_other (a := a) hroom
    have hpos := (s.codeBit b).pos_add_toNat hroom
    rw [s.codeBit_pos] at hbuf hpos
    rw [s.codeBit_buf] at hbuf
    rw [State.emitRound_iterate]
    refine ⟨hbuf, ?_, fun a => s.ptGet_codeBit_other b, fun k => s.histGet_codeBit_other b, s.codeBit_x b,
      s.codeBit_limit b, s.codeBit_len b, s.codeBit_mode b, s.codeBit_cfg b, s.codeBit_pending b, s.codeBit_rdata b,
      s.codeBit_draws b, hovf, fun h => ?_⟩
    · rw [← hpos, ← s.codeBit_pos b]
      rfl
    · simp [hm, ho] at h

/-- The forms of an admitted `FLUSH`: it emits as many bytes as it needs, or as fit. -/
theorem execState_flush_admitted {s : State} (hm : s.mode = .enc) (ho : s.ovf = false) :
    ∃ x1 x2 mode resp ovf, (resp.code ≠ .ok → mode = s.mode) ∧ (resp.code = .ok → ovf = s.ovf) ∧
      execState .flush s =
        { s.emitted (min (sharedBytes s.x1 s.x2 + 1) s.room)
            (State.emitRound^[min (sharedBytes s.x1 s.x2 + 1) s.room] s).buf with
          x1 := x1, x2 := x2, mode := mode, resp := resp, ovf := ovf } := by
  by_cases hfits : sharedBytes s.x1 s.x2 + 1 ≤ s.room
  · refine ⟨lowShifted s.x1 (sharedBytes s.x1 s.x2), highShifted s.x2 (sharedBytes s.x1 s.x2), .done, ⟨.ok, false⟩,
      s.ovf, fun h => absurd rfl h, fun _ => rfl, ?_⟩
    rw [execState_flush_fits hm ho hfits, min_eq_left hfits]
    rfl
  · refine ⟨lowShifted s.x1 s.room, highShifted s.x2 s.room, s.mode, ⟨.eOverflow, false⟩, true, fun _ => rfl, nofun, ?_⟩
    rw [execState_flush_overflows hm ho (by omega), min_eq_right (by omega), State.emitRound_iterate]
    rfl

/-- Settles O43: an admitted `FLUSH` only emits and sets the flags; a refused one stores nothing. -/
theorem flushFrame : Obligations.FlushFrame := by
  intro s t hexec
  rw [execState_of_exec hexec]
  rcases execState_flush_cases s with ⟨c, hc, he⟩ | ⟨hm, ho, _⟩
  · refine ⟨0, (if_neg (State.not_admitted_of_encodeRefusal hc)).symm, ?_⟩
    rw [he]
    simp [State.respond]
  · obtain ⟨x1, x2, mode, resp, ovf, hmode, hovf, he⟩ := execState_flush_admitted hm ho
    refine ⟨_, (if_pos ⟨hm, ho⟩).symm, ?_⟩
    rw [he]
    have hroom : min (sharedBytes s.x1 s.x2 + 1) s.room ≤ s.room := min_le_right _ _
    refine ⟨fun a => s.emitRound_iterate_buf_other hroom, s.pos_add_toNat hroom, rfl, rfl, rfl, rfl, rfl, rfl, rfl, rfl,
      rfl, rfl, rfl, rfl, hmode, hovf, fun h => ?_⟩
    simp [hm, ho] at h

/-! ## `DECODE_BIT` (42_coder.md R133) -/

theorem execState_decodeBit_consumed {s : State} (hm : s.mode = .dec) :
    execState .decodeBit s =
      { (s.codeBit s.decodedBit).consumed
          (sharedBytes (s.codeBit s.decodedBit).x1 (s.codeBit s.decodedBit).x2) with
        resp := ⟨.ok, s.decodedBit⟩ } := by
  rw [execState_decodeBit hm, renormDecConsumesAsManyBytes]
  rfl

theorem execState_decodeBit_of_mode_ne {s : State} (hm : s.mode ≠ .dec) :
    execState .decodeBit s = s.respond .eMode false :=
  execState_decode_refused (if_pos hm)

/-- Settles O38: the bit is the comparison of the needle with the midpoint. -/
theorem decodeBitCompletes : Obligations.DecodeBitCompletes := by
  refine ⟨fun s hm => ?_, fun s hm => ⟨s.decodedBit, decide_eq_true_iff, ?_⟩⟩
  · rw [exec_eq_execState, execState_decodeBit_of_mode_ne hm]
    rfl
  · rw [exec_eq_execState, execState_decodeBit_consumed hm]

/-- Settles O44: of the phases of a decoded bit none writes `BUF`, and the tables are written at one entry each. -/
theorem decodeBitFrame : Obligations.DecodeBitFrame := by
  intro s t hexec
  rw [execState_of_exec hexec]
  by_cases hm : s.mode = .dec
  · rw [execState_decodeBit_consumed hm]
    generalize s.decodedBit = b
    exact ⟨fun _ => State.bufGet_congr (s.codeBit_buf b) _, fun a => s.ptGet_codeBit_other b,
      fun k => s.histGet_codeBit_other b, s.codeBit_limit b, s.codeBit_len b, s.codeBit_mode b, s.codeBit_ovf b,
      s.codeBit_cfg b, s.codeBit_pending b, s.codeBit_rdata b, s.codeBit_draws b, fun h => absurd hm h⟩
  · rw [execState_decodeBit_of_mode_ne hm]
    exact ⟨fun _ => rfl, fun _ _ => rfl, fun _ _ => rfl, rfl, rfl, rfl, rfl, rfl, rfl, rfl, rfl, fun _ => rfl⟩

/-- Settles O59: a needle of 0 is at or below every midpoint, and stays 0 on zero bytes. -/
theorem emptyInputDecodesOnesForever : Obligations.EmptyInputDecodesOnesForever := by
  intro s hm hx hx1 hend
  have hbit : s.decodedBit = true := decide_eq_true (by rw [hx]; exact Nat.zero_le _)
  have hroom : (s.codeBit true).room = 0 := by rw [s.codeBit_room]; exact Nat.sub_eq_zero_of_le hend
  have hneedle (k : Nat) : (s.codeBit true).needleAfter k = 0 := by
    induction k with
    | zero => rw [State.needleAfter, s.codeBit_x, hx]
    | succ k ih => rw [State.needleAfter, ih, State.inputByte_of_le (by omega)]; rfl
  refine ⟨_, exec_eq_execState _ _, ?_⟩
  rw [execState_decodeBit_consumed hm, hbit]
  simp [hm, hx1, hroom, hneedle, lowShifted, hend]

end Sys2Proof.Machine

namespace Sys2Proof.Machine

/-! ## The interval and the cursor after each command (42_coder.md R136) -/

/-- A bit coded between bounds whose top bytes differ leaves bounds whose top bytes differ, once renormalized. -/
theorem State.codeBit_apart {s : State} (h : topByte s.x1 < topByte s.x2) (b : Bool) :
    topByte (lowShifted (s.codeBit b).x1 (sharedBytes (s.codeBit b).x1 (s.codeBit b).x2)) <
      topByte (highShifted (s.codeBit b).x2 (sharedBytes (s.codeBit b).x1 (s.codeBit b).x2)) := by
  obtain ⟨_, hle, _⟩ := State.codeBit_bounds (lt_of_topByte_lt h) b
  exact topByte_shifted_lt hle

/-- An `ENCODE_BIT` that answers `OK` keeps the top bytes apart. -/
theorem execState_encodeBit_apart {s : State} {b : Bool} (h : topByte s.x1 < topByte s.x2)
    (hok : (execState (.encodeBit b) s).resp.code = .ok) :
    topByte (execState (.encodeBit b) s).x1 < topByte (execState (.encodeBit b) s).x2 := by
  obtain ⟨hm, ho, hfits⟩ := encodeBit_ok_admitted hok
  rw [execState_encodeBit_fits hm ho hfits, State.emitRound_iterate]
  exact s.codeBit_apart h b

/-- An admitted `DECODE_BIT` keeps the top bytes apart. -/
theorem execState_decodeBit_apart {s : State} (hm : s.mode = .dec) (h : topByte s.x1 < topByte s.x2) :
    topByte (execState .decodeBit s).x1 < topByte (execState .decodeBit s).x2 := by
  rw [execState_decodeBit_consumed hm]
  exact s.codeBit_apart h _

theorem State.startPass_apart (s : State) (m : Mode) : topByte (s.startPass m).x1 < topByte (s.startPass m).x2 := by
  rw [s.startPass_x1, s.startPass_x2]
  decide

theorem State.startPass_cursorFrom (s : State) (m : Mode) : (s.startPass m).CursorFrom 0 s.len :=
  ⟨rfl, le_rfl, Nat.zero_le _⟩

/-- Opening a pass opens the full interval, with the cursor inside the buffer. -/
theorem execState_initDec_bounds (s : State) :
    (execState .initDec s).x1 = 0x00000000 ∧ (execState .initDec s).x2 = 0xFFFFFFFF ∧
      (execState .initDec s).pos ≤ (execState .initDec s).limit := by
  have hcursor := (keptByPhases_cursorFrom 0 s.len).initDec (s.startPass_cursorFrom .dec)
  obtain ⟨_, _, hle⟩ := hcursor
  refine ⟨?_, ?_, hle⟩ <;> rw [execState_initDec, State.preload_eq_fed] <;> rfl

/-! ## The invariants of a pass -/

/-- The invariants of a pass speak of the bounds, the needle, the cursor and the flags alone. -/
theorem State.PassOk.congr {s t : State} (hs : s.PassOk) (hx1 : t.x1 = s.x1) (hx2 : t.x2 = s.x2) (hx : t.x = s.x)
    (hpos : t.pos = s.pos) (hlimit : t.limit = s.limit) (hmode : t.mode = s.mode) (hovf : t.ovf = s.ovf) :
    t.PassOk := by
  constructor
  · rw [hmode, hpos, hlimit]; exact hs.cursor
  · rw [hmode, hx1, hx2]; exact hs.ordered
  · rw [State.Coding, hmode, hovf, hx1, hx2]; exact hs.apart
  · rw [hmode, hovf, hpos, hlimit]; exact hs.full
  · rw [hmode, hx]; exact hs.needle

/-- A pass without failure. -/
theorem State.PassOk.of_apart {s : State} (hcursor : s.pos ≤ s.limit) (hapart : topByte s.x1 < topByte s.x2)
    (hovf : s.ovf = false) (hneedle : s.mode = .enc ∨ s.mode = .done → s.x = 0) : s.PassOk where
  cursor _ := hcursor
  ordered _ := BitVec.le_of_lt (lt_of_topByte_lt hapart)
  apart _ := hapart
  full h := by rw [hovf] at h; cases h
  needle := hneedle

/-- A compress pass after an overflow. -/
theorem State.PassOk.of_overflow {s : State} (hmode : s.mode = .enc) (hovf : s.ovf = true) (hfull : s.pos = s.limit)
    (hordered : s.x1 ≤ s.x2) (hneedle : s.x = 0) : s.PassOk where
  cursor _ := hfull ▸ BitVec.le_refl _
  ordered _ := hordered
  apart h := by simp [State.Coding, hmode, hovf] at h
  full _ := ⟨hmode, hfull⟩
  needle _ := hneedle

/-- Emitting all the bytes there is room for takes the cursor to the limit. -/
theorem State.pos_add_room {s : State} (h : s.pos ≤ s.limit) : s.pos + BitVec.ofNat 32 s.room = s.limit := by
  apply BitVec.eq_of_toNat_eq
  rw [s.pos_add_toNat le_rfl, State.room]
  exact Nat.add_sub_cancel' h

theorem State.PassOk.encodeBit {s : State} (hs : s.PassOk) (b : Bool) : (execState (.encodeBit b) s).PassOk := by
  rcases execState_encodeBit_cases b s with ⟨c, _, he⟩ | ⟨hm, ho, _⟩
  · rw [he]
    exact hs.congr rfl rfl rfl rfl rfl rfl rfl
  have hx := hs.needle (.inl hm)
  have hcursor := hs.cursor (by rw [hm]; nofun)
  have hapart := hs.apart (.inl ⟨hm, ho⟩)
  by_cases hfits : sharedBytes (s.codeBit b).x1 (s.codeBit b).x2 ≤ s.room
  · obtain ⟨_, _, hle⟩ := (keptByPhases_cursorFrom s.pos s.limit).encodeBit b ⟨rfl, le_rfl, hcursor⟩
    refine .of_apart hle (execState_encodeBit_apart hapart ?_) ?_ fun _ => ?_ <;>
      rw [execState_encodeBit_fits hm ho hfits, State.emitRound_iterate]
    · rfl
    · exact (s.codeBit_ovf b).trans ho
    · exact (s.codeBit_x b).trans hx
  · obtain ⟨_, hordered, _⟩ := State.codeBit_bounds (lt_of_topByte_lt hapart) b
    rw [execState_encodeBit_overflows hm ho (by omega), State.emitRound_iterate]
    refine .of_overflow ((s.codeBit_mode b).trans hm) rfl ?_ ?_ ((s.codeBit_x b).trans hx)
    · simpa using State.pos_add_room hcursor
    · exact lowShifted_le_highShifted (by omega) hordered

theorem State.PassOk.decodeBit {s : State} (hs : s.PassOk) : (execState .decodeBit s).PassOk := by
  by_cases hm : s.mode = .dec
  · have hcursor := hs.cursor (by rw [hm]; nofun)
    obtain ⟨_, _, hle⟩ := (keptByPhases_cursorFrom s.pos s.limit).decodeBit ⟨rfl, le_rfl, hcursor⟩
    obtain ⟨hmode, hovf⟩ := execState_decodeBit_flags s
    refine .of_apart hle (execState_decodeBit_apart hm (hs.apart (.inr (.inl hm)))) ?_ (by simp [hmode, hm])
    rw [hovf, ← Bool.not_eq_true]
    intro ho
    obtain ⟨henc, _⟩ := hs.full ho
    rw [hm] at henc
    cases henc
  · rw [execState_decodeBit_of_mode_ne hm]
    exact hs.congr rfl rfl rfl rfl rfl rfl rfl

theorem State.PassOk.flush {s : State} (hs : s.PassOk) : (execState .flush s).PassOk := by
  rcases execState_flush_cases s with ⟨c, _, he⟩ | ⟨hm, ho, _⟩
  · rw [he]
    exact hs.congr rfl rfl rfl rfl rfl rfl rfl
  have hx := hs.needle (.inl hm)
  have hcursor := hs.cursor (by rw [hm]; nofun)
  have hapart := hs.apart (.inl ⟨hm, ho⟩)
  have hshared := sharedBytes_eq_zero (BitVec.ne_of_lt hapart)
  by_cases hfits : sharedBytes s.x1 s.x2 + 1 ≤ s.room
  · obtain ⟨_, _, hle⟩ := (keptByPhases_cursorFrom s.pos s.limit).flush ⟨rfl, le_rfl, hcursor⟩
    rw [execState_flush_fits hm ho hfits] at hle ⊢
    refine .of_apart hle ?_ ho fun _ => hx
    rw [hshared]
    simpa using hapart
  · rw [hshared] at hfits
    have hroom : s.room = 0 := by omega
    rw [execState_flush_overflows hm ho (by omega), hroom]
    refine .of_overflow hm rfl ?_ (BitVec.le_of_lt (lt_of_topByte_lt hapart)) hx
    simpa [hroom] using State.pos_add_room hcursor

theorem State.PassOk.initEnc (s : State) : (execState .initEnc s).PassOk :=
  .of_apart (Nat.zero_le _) (s.startPass_apart .enc) rfl fun _ => rfl

theorem State.PassOk.initDec (s : State) : (execState .initDec s).PassOk := by
  obtain ⟨hx1, hx2, hle⟩ := execState_initDec_bounds s
  refine .of_apart hle ?_ ?_ fun h => ?_
  · rw [hx1, hx2]
    decide
  · simp [execState_initDec]
  · simp [execState_initDec] at h

/-- Every command keeps the invariants of a pass. -/
theorem State.PassOk.command {s : State} (hs : s.PassOk) (i : Instr) : (execState i s).PassOk := by
  cases i with
  | initEnc => exact .initEnc s
  | initDec => exact .initDec s
  | encodeBit b => exact hs.encodeBit b
  | decodeBit => exact hs.decodeBit
  | flush => exact hs.flush

/-- Every access keeps the invariants of a pass; power-on reset leaves the pass. -/
theorem State.PassOk.access {s : State} (hs : s.PassOk) (a : HostAccess) : (afterAccess a s).PassOk := by
  rcases afterAccess_cases a s with ⟨i, _, _, he⟩ | ⟨_, he⟩ | ⟨_, _, _, _, _, _, _, he⟩ <;> rw [he]
  · exact hs.command i
  · constructor <;> simp [State.Coding]
  · exact hs.congr rfl rfl rfl rfl rfl rfl rfl

/-- Settles O51: a step waits or makes one access, and every access keeps the invariants. -/
theorem stepKeepsThePassInvariant : Obligations.StepKeepsThePassInvariant := by
  intro s t hs hstep
  rcases step_cases hstep with ⟨_, rfl⟩ | ⟨a, rest, _, _, rfl⟩
  · exact hs
  · exact State.PassOk.access (s := s.setPending rest) (hs.congr rfl rfl rfl rfl rfl rfl rfl) a

/-- Settles O53: every command that opens or continues a pass leaves the top bytes apart and the cursor inside. -/
theorem intervalIsOpenBetweenCommands : Obligations.IntervalIsOpenBetweenCommands := by
  refine ⟨fun i s t hexec hi => ?_, fun s b h => ?_⟩
  · have hopen : topByte t.x1 < topByte t.x2 ∧ t.pos ≤ t.limit := by
      rw [execState_of_exec hexec] at hi ⊢
      rcases hi with rfl | rfl | ⟨rfl | ⟨b, rfl⟩, hok, hapart, hcursor⟩
      · exact ⟨s.startPass_apart .enc, Nat.zero_le _⟩
      · obtain ⟨hx1, hx2, hle⟩ := execState_initDec_bounds s
        rw [hx1, hx2]
        exact ⟨by decide, hle⟩
      · obtain ⟨_, _, hle⟩ := (keptByPhases_cursorFrom s.pos s.limit).decodeBit ⟨rfl, le_rfl, hcursor⟩
        refine ⟨?_, hle⟩
        by_cases hm : s.mode = .dec
        · exact execState_decodeBit_apart hm hapart
        · rwa [execState_decodeBit_of_mode_ne hm]
      · obtain ⟨_, _, hle⟩ := (keptByPhases_cursorFrom s.pos s.limit).encodeBit b ⟨rfl, le_rfl, hcursor⟩
        exact ⟨execState_encodeBit_apart hapart hok, hle⟩
    obtain ⟨hapart, hle⟩ := hopen
    have hlt := lt_of_topByte_lt hapart
    exact ⟨hapart, hlt, Nat.sub_pos_of_lt hlt, hle, Nat.le_of_lt_succ t.pfx.isLt⟩
  · obtain ⟨hlow, hle, hhigh⟩ := State.codeBit_bounds h b
    exact ⟨hlow, hle, hhigh, State.codeBit_width_lt h b⟩

end Sys2Proof.Machine

namespace Sys2Proof.Machine

/-! ## The byte `FLUSH` stores (42_coder.md R137) -/

/-- A needle taken at the last byte of the input is that byte and then zeros. -/
theorem State.needleAfter_of_last_byte {s : State} {n : Nat} (hend : ∀ j, 0 < j → j < 4 → s.inputByte (n + j) = 0) :
    (s.needleAfter (n + 4)).toNat = (s.inputByte n).toNat * 2 ^ 24 := by
  rw [word_toNat_eq_bytes]
  simp [State.wordByte_needleAfter, hend]

theorem State.needleFrom_toNat (s : State) {start len : Word} (hlen : len.toNat = start.toNat + 1) :
    (s.needleFrom start len).toNat = (s.bufGet start).toNat * 2 ^ 24 := by
  have hroom : ({ s with pos := start, limit := len } : State).room = 1 := by
    simp only [State.room]
    omega
  rw [State.needleFrom, State.preload_eq_fed]
  refine (State.needleAfter_of_last_byte (n := 0) fun j hj _ => State.inputByte_of_le (by omega)).trans ?_
  rw [State.inputByte_of_lt (by omega)]
  rfl

/-- A needle of a byte and then zeros lies above a bound with a smaller top byte. -/
theorem lt_of_topByte_lt_byte {v w : Word} {b : Byte} (hw : w.toNat = b.toNat * 2 ^ 24) (h : topByte v < b) :
    v < w := by
  have hv := toNat_eq_topByte_add v
  rw [BitVec.lt_def] at h ⊢
  omega

/-- And not above a bound with a top byte no smaller. -/
theorem le_of_byte_le_topByte {v w : Word} {b : Byte} (hw : w.toNat = b.toNat * 2 ^ 24) (h : b ≤ topByte v) :
    w ≤ v := by
  have hv := toNat_eq_topByte_add v
  rw [BitVec.le_def] at h ⊢
  omega

/-- A `FLUSH` that answers `OK` was admitted and had room for its bytes. -/
theorem flush_ok_admitted {s : State} (hok : (execState .flush s).resp.code = .ok) :
    s.mode = .enc ∧ s.ovf = false ∧ sharedBytes s.x1 s.x2 + 1 ≤ s.room := by
  rcases execState_flush_cases s with ⟨c, hc, he⟩ | ⟨hm, ho, _⟩
  · rw [he] at hok
    exact absurd hok (State.encodeRefusal_ne_ok hc)
  · refine ⟨hm, ho, Nat.le_of_not_lt fun hfull => ?_⟩
    rw [execState_flush_overflows hm ho (by omega)] at hok
    cases hok

/-- Between bounds whose top bytes differ `FLUSH` stores one byte, the top byte of `X2`. -/
theorem execState_flush_apart {s : State} (hm : s.mode = .enc) (ho : s.ovf = false)
    (hapart : topByte s.x1 < topByte s.x2) (hroom : 1 ≤ s.room) :
    (execState .flush s).pos.toNat = s.pos.toNat + 1 ∧
      (execState .flush s).buf = cellsSet bufDefault s.buf s.pos.toNat (topByte s.x2) := by
  have hshared := sharedBytes_eq_zero (BitVec.ne_of_lt hapart)
  rw [execState_flush_fits hm ho (by omega), hshared]
  exact ⟨s.pos_add_toNat hroom, rfl⟩

/-- Settles O54: the needle is the byte times `2^24`, so its place between the bounds is that of the byte between
their top bytes. -/
theorem flushByteLiesInTheInterval : Obligations.FlushByteLiesInTheInterval := by
  intro s t hs hm ho hapart hroom hexec
  obtain ⟨hpos, hbuf⟩ := execState_flush_apart hm ho hapart (s.room_pos_iff.mpr hroom)
  have hforms : (execState .flush s).FormsOk := hs.command .flush
  rw [← execState_of_exec hexec] at hpos hbuf hforms
  have hbyte : t.bufGet s.pos = topByte s.x2 := by
    rw [State.bufGet, hbuf]
    exact cellsGet_set_same _ _ _ hs.1
  have hneedle := t.needleFrom_toNat hpos
  have hlow := toNat_eq_topByte_add s.x1
  have hapart' := hapart
  rw [BitVec.lt_def] at hapart'
  rw [hbyte] at hneedle
  refine ⟨hbyte, hpos, hbyte ▸ hneedle, by omega, by omega, lt_of_topByte_lt_byte hneedle hapart,
    le_of_byte_le_topByte hneedle (BitVec.le_refl _), fun b => ⟨_, rfl, ?_⟩⟩
  have hneedle' := (t.bufSet s.pos b).needleFrom_toNat hpos
  rw [t.bufGet_bufSet_same s.pos b hforms] at hneedle'
  refine ⟨fun hgt hle => ⟨lt_of_topByte_lt_byte hneedle' hgt, le_of_byte_le_topByte hneedle' hle⟩, ?_⟩
  rintro rfl
  refine ⟨le_of_byte_le_topByte hneedle' (BitVec.le_refl _), ?_⟩
  rw [← BitVec.toNat_inj, hneedle']
  omega

/-! ## Encoder and decoder with equal models (42_coder.md R139) -/

theorem SameModel.context_eq {s t : State} (h : SameModel s t) : s.context = t.context := by
  rw [State.context, State.context, h.pfx, h.hist]

/-- Models that read alike still do after the same bit. -/
theorem SameModel.codeBit {s t : State} (h : SameModel s t) (hs : s.FormsOk) (ht : t.FormsOk) (b : Bool) :
    SameModel (s.codeBit b) (t.codeBit b) where
  cfg := by simpa using h.cfg
  pt a := by
    by_cases ha : a = s.context
    · rw [ha, s.ptGet_codeBit_same b hs, h.context_eq, t.ptGet_codeBit_same b ht, h.cfg, h.pt]
    · rw [s.ptGet_codeBit_other b ha, t.ptGet_codeBit_other b (h.context_eq ▸ ha), h.pt]
  hist k := by
    by_cases hk : k = s.pfx
    · rw [hk, s.histGet_codeBit_same b hs, h.pfx, t.histGet_codeBit_same b ht, h.hist]
    · rw [s.histGet_codeBit_other b hk, t.histGet_codeBit_other b (h.pfx ▸ hk), h.hist]
  pfx := by simpa using congrArg (prefixNext · b) h.pfx

/-- Settles O55: the rounds after the phases of the bit do not touch the model. -/
theorem lockstepNeedsOnlyTheModel : Obligations.LockstepNeedsOnlyTheModel := by
  intro s s' d d' b hs hd h hm ho hmd hexec hexecd hbit
  have hd' := execState_of_exec hexecd
  rw [execState_decodeBit_consumed hmd] at hd'
  obtain ⟨resp, ovf, _, hs'⟩ := execState_encodeBit_admitted b hm ho
  rw [← execState_of_exec hexec, State.emitRound_iterate] at hs'
  have hbit' : d.decodedBit = b := by rw [← hbit, hd']
  rw [hbit'] at hd'
  obtain ⟨hcfg, hpt, hhist, hpfx⟩ := h.codeBit hs hd b
  have hlastctx : (s.codeBit b).lastctx = (d.codeBit b).lastctx := by simp [h.context_eq]
  have hlastp : (s.codeBit b).lastp = (d.codeBit b).lastp := by simp [h.context_eq, h.pt]
  subst hs' hd'
  exact ⟨hlastp, hlastctx, hcfg, hpt, hhist, hpfx⟩

end Sys2Proof.Machine

namespace Sys2Proof.Machine

/-! ## Runs of coded bits -/

theorem encodeBits_cons (b : Bool) (bs : List Bool) (s : State) :
    encodeBits (b :: bs) s =
      if (execState (.encodeBit b) s).resp.code = .ok then encodeBits bs (execState (.encodeBit b) s) else none := by
  rw [encodeBits, exec_eq_execState]

theorem decodeBits_succ {n : Nat} {s u : State} {b : Bool} {bs : List Bool}
    (hresp : (execState .decodeBit s).resp = ⟨.ok, b⟩) (hrest : decodeBits n (execState .decodeBit s) = some (bs, u)) :
    decodeBits (n + 1) s = some (b :: bs, u) := by
  simp [decodeBits, exec_eq_execState, hresp, hrest]

/-- A run that succeeds took its first bit with `OK` and went on from there. -/
theorem encodeBits_cons_eq_some {b : Bool} {bs : List Bool} {s e : State} (h : encodeBits (b :: bs) s = some e) :
    (execState (.encodeBit b) s).resp.code = .ok ∧ encodeBits bs (execState (.encodeBit b) s) = some e := by
  rw [encodeBits_cons] at h
  split at h
  · exact ⟨by assumption, h⟩
  · cases h

/-- What holds of an encoder all along a run that answers `OK`. -/
structure State.Encoding (s : State) : Prop where
  forms : s.FormsOk
  apart : topByte s.x1 < topByte s.x2

theorem State.Encoding.encodeBit {s : State} (hs : s.Encoding) {b : Bool}
    (hok : (execState (.encodeBit b) s).resp.code = .ok) : (execState (.encodeBit b) s).Encoding :=
  ⟨hs.forms.command _, execState_encodeBit_apart hs.apart hok⟩

theorem State.Encoding.encodeBits {bits : List Bool} {s e : State} (hs : s.Encoding)
    (h : encodeBits bits s = some e) : e.Encoding := by
  induction bits generalizing s with
  | nil =>
    cases h
    exact hs
  | cons b bs ih =>
    obtain ⟨hok, h⟩ := encodeBits_cons_eq_some h
    exact ih (hs.encodeBit hok) h

/-! ## The stream leads into every interval (42_coder.md R138)

`i` is a decoder that has consumed nothing: `i.inputByte` is the whole stream, and `i.needleAfter (n + 4)` is the needle
over its bytes `n` to `n + 3`. -/

/-- The bytes the encoder has written begin the stream of `i`, and the needle over the next four lies in the encoder's
interval. -/
structure State.LeadsInto (i s : State) : Prop where
  bytes : ∀ a, a < s.pos.toNat → cellsGet bufDefault s.buf a = i.inputByte a
  low : s.x1 ≤ i.needleAfter (s.pos.toNat + 4)
  high : i.needleAfter (s.pos.toNat + 4) ≤ s.x2

/-- A stream that leads into the interval after a round led into it before: its next byte is the one emitted. -/
theorem State.LeadsInto.of_emitRound {i s : State} (hs : s.FormsOk) (htop : topByte s.x1 = topByte s.x2)
    (hroom : s.pos < s.limit) (h : i.LeadsInto s.emitRound) : i.LeadsInto s := by
  obtain ⟨hbytes, hlow, hhigh⟩ := h
  have hpos : s.emitRound.pos.toNat = s.pos.toNat + 1 := State.advance_pos_toNat hroom
  have hneedle : i.needleAfter (s.pos.toNat + 1 + 4) =
      shiftByte (i.needleAfter (s.pos.toNat + 4)) (i.inputByte (s.pos.toNat + 4)) := by
    rw [Nat.add_right_comm]
    rfl
  have hnext : topByte (i.needleAfter (s.pos.toNat + 4)) = topByte s.x2 := by
    rw [← wordByte_zero, State.wordByte_needleAfter _ _ (by omega), Nat.add_zero, ← hbytes _ (by omega),
      s.emitRound_buf]
    exact cellsGet_set_same _ _ _ hs.1
  rw [hpos, hneedle] at hlow hhigh
  refine ⟨fun a ha => ?_, ?_, ?_⟩
  · rw [← hbytes a (by omega), s.emitRound_buf, cellsGet_set_other _ _ (by omega)]
  · rw [s.emitRound_x1, shiftZero_eq_shiftByte] at hlow
    exact le_of_shiftByte_le (htop.trans hnext.symm) hlow
  · exact le_of_shiftByte_le hnext hhigh

theorem State.LeadsInto.of_emitRounds {i s : State} {k : Nat} (hs : s.FormsOk) (hk : k ≤ sharedBytes s.x1 s.x2)
    (hroom : k ≤ s.room) (h : i.LeadsInto (State.emitRound^[k] s)) : i.LeadsInto s := by
  induction k generalizing s with
  | zero => exact h
  | succ k ih =>
    have htop : topByte s.x1 = topByte s.x2 := topByte_eq_of_sharedBytes_pos (by omega)
    have hlt : s.pos < s.limit := s.room_pos_iff.mp (by omega)
    have hroom' := s.emitRound_room hlt
    rw [sharedBytes_succ htop] at hk
    rw [Function.iterate_succ_apply] at h
    exact .of_emitRound hs htop hlt (ih hs.emitRound (Nat.le_of_succ_le_succ hk) (by omega) h)

/-- Backwards over one command: the stream leads into the part of the interval that the bit took. -/
theorem State.LeadsInto.of_encodeBit {i s : State} {b : Bool} (hs : s.FormsOk)
    (hok : (execState (.encodeBit b) s).resp.code = .ok) (h : i.LeadsInto (execState (.encodeBit b) s)) :
    i.LeadsInto (s.codeBit b) := by
  obtain ⟨hm, ho, hfits⟩ := encodeBit_ok_admitted hok
  rw [execState_encodeBit_fits hm ho hfits] at h
  obtain ⟨hbytes, hlow, hhigh⟩ := h
  exact .of_emitRounds (hs.codeBit b) le_rfl (by rwa [s.codeBit_room]) ⟨hbytes, hlow, hhigh⟩

/-- And that part lies in the interval. -/
theorem State.LeadsInto.of_codeBit {i s : State} {b : Bool} (hs : s.Encoding) (h : i.LeadsInto (s.codeBit b)) :
    i.LeadsInto s := by
  obtain ⟨hbytes, hlow, hhigh⟩ := h
  obtain ⟨hge, _, hle⟩ := State.codeBit_bounds (lt_of_topByte_lt hs.apart) b
  rw [s.codeBit_pos] at hbytes hlow hhigh
  rw [s.codeBit_buf] at hbytes
  exact ⟨hbytes, BitVec.le_trans hge hlow, BitVec.le_trans hhigh hle⟩

theorem State.LeadsInto.of_encodeBits {i s e : State} {bits : List Bool} (hs : s.Encoding)
    (hrun : encodeBits bits s = some e) (h : i.LeadsInto e) : i.LeadsInto s := by
  induction bits generalizing s with
  | nil =>
    cases hrun
    exact h
  | cons b bs ih =>
    obtain ⟨hok, hrun⟩ := encodeBits_cons_eq_some hrun
    exact .of_codeBit hs (.of_encodeBit hs.forms hok (ih (hs.encodeBit hok) hrun))

/-- The stream that a successful `FLUSH` ends leads into the last interval. -/
theorem State.LeadsInto.of_flush {d e : State} (he : e.Encoding) (hok : (execState .flush e).resp.code = .ok)
    (hlen : d.len = (execState .flush e).pos)
    (hbuf : SameBytes d (execState .flush e) (execState .flush e).pos.toNat) : (d.startPass .dec).LeadsInto e := by
  obtain ⟨hm, ho, hfits⟩ := flush_ok_admitted hok
  obtain ⟨hpos, hstored⟩ := execState_flush_apart hm ho he.apart (by omega)
  have hinput (a : Nat) : (d.startPass .dec).inputByte a = if a < e.pos.toNat + 1 then
      cellsGet bufDefault (execState .flush e).buf a else 0 := by
    rw [d.startPass_inputByte, hlen, hpos]
    split
    · exact hbuf a (by omega)
    · rfl
  have hlast : (d.startPass .dec).inputByte e.pos.toNat = topByte e.x2 := by
    rw [hinput, if_pos (by omega), hstored]
    exact cellsGet_set_same _ _ _ he.forms.1
  have hneedle : ((d.startPass .dec).needleAfter (e.pos.toNat + 4)).toNat = (topByte e.x2).toNat * 2 ^ 24 := by
    rw [← hlast]
    refine State.needleAfter_of_last_byte fun j hj _ => ?_
    rw [hinput, if_neg (by omega)]
  refine ⟨fun a ha => ?_, BitVec.le_of_lt (lt_of_topByte_lt_byte hneedle he.apart),
    le_of_byte_le_topByte hneedle (BitVec.le_refl _)⟩
  rw [hinput, if_pos (by omega), hstored, cellsGet_set_other _ _ (by omega)]

/-! ## The decoder follows the encoder -/

/-- The decoder `d` of the stream of `i` stands where the encoder `s` stood: same model, same bounds, and four bytes
ahead in the stream. -/
structure State.Follows (i s d : State) : Prop where
  cfg : d.cfg = s.cfg
  pt : d.pt = s.pt
  hist : d.hist = s.hist
  pfx : d.pfx = s.pfx
  x1 : d.x1 = s.x1
  x2 : d.x2 = s.x2
  mode : d.mode = .dec
  needle : d.x = i.needleAfter (s.pos.toNat + 4)
  input : ∀ j, d.inputByte j = i.inputByte (s.pos.toNat + 4 + j)

theorem State.Follows.ptGet {i s d : State} (h : i.Follows s d) (ctx : Half) : d.ptGet ctx = s.ptGet ctx := by
  rw [State.ptGet, State.ptGet, h.cfg, h.pt]

theorem State.Follows.histGet {i s d : State} (h : i.Follows s d) (k : Byte) : d.histGet k = s.histGet k := by
  rw [State.histGet, State.histGet, h.cfg, h.hist]

theorem State.Follows.sameModel {i s d : State} (h : i.Follows s d) : SameModel s d :=
  ⟨h.cfg.symm, fun ctx => (h.ptGet ctx).symm, fun k => (h.histGet k).symm, h.pfx.symm⟩

theorem State.Follows.split {i s d : State} (h : i.Follows s d) : d.split = s.split := by
  have hp (u : State) : u.predPredict.1 = cellProb (u.ptGet u.context) := rfl
  rw [State.split, State.split, hp, hp, h.x1, h.x2, h.ptGet, h.sameModel.context_eq]

theorem State.Follows.codeBit {i s d : State} (h : i.Follows s d) (b : Bool) :
    i.Follows (s.codeBit b) (d.codeBit b) where
  cfg := by simpa using h.cfg
  pt := by simp [h.pt, h.cfg, h.ptGet, h.sameModel.context_eq]
  hist := by simp [h.hist, h.cfg, h.histGet, h.pfx]
  pfx := by simp [h.pfx]
  x1 := by simp [h.x1, h.split]
  x2 := by simp [h.x2, h.split]
  mode := by simp [h.mode]
  needle := by simp [h.needle]
  input := by simpa [State.inputByte] using h.input

/-- The needle lies in the part of the interval that the bit took, so the comparison gives that bit. -/
theorem State.Follows.decodedBit {i s d : State} {b : Bool} (h : i.Follows s d) (hs : s.Encoding)
    (hleads : i.LeadsInto (s.codeBit b)) : d.decodedBit = b := by
  obtain ⟨_, hlow, hhigh⟩ := hleads
  rw [State.decodedBit, h.split, h.needle]
  cases b with
  | true => simpa using hhigh
  | false =>
    have hsucc : (s.split + 1).toNat = s.split.toNat + 1 := (midpoint_succ _ (lt_of_topByte_lt hs.apart)).1
    rw [s.codeBit_x1, if_neg Bool.false_ne_true, s.codeBit_pos, BitVec.le_def, hsucc] at hlow
    simpa [BitVec.lt_def] using hlow

/-- The needle of the follower stays over the stream. -/
theorem State.Follows.needleAfter {i s d : State} (h : i.Follows s d) (k : Nat) :
    d.needleAfter k = i.needleAfter (s.pos.toNat + 4 + k) := by
  induction k with
  | zero => exact h.needle
  | succ k ih => rw [State.needleAfter, ih, h.input]; rfl

/-- The rounds of both loops go together: one byte emitted, one byte consumed. -/
theorem State.Follows.rounds {i s d : State} (h : i.Follows s d) {k : Nat} (hk : k ≤ s.room) :
    i.Follows (State.emitRound^[k] s) (d.consumed k) := by
  have hpos : (s.emitted k (State.emitRound^[k] s).buf).pos.toNat + 4 = s.pos.toNat + 4 + k := by
    rw [s.emitted_pos, s.pos_add_toNat hk, Nat.add_right_comm]
  rw [State.emitRound_iterate]
  refine ⟨h.cfg, h.pt, h.hist, h.pfx, ?_, ?_, h.mode, ?_, fun j => ?_⟩
  · simp [h.x1]
  · simp [h.x2]
  · rw [d.consumed_x, h.needleAfter, hpos]
  · have hconsumed : (d.consumed k).inputByte j = (d.fed k).inputByte j := rfl
    rw [hconsumed, d.fed_inputByte, h.input, hpos, ← add_assoc]

/-- One command of each: the decoder answers the bit coded, and follows on. -/
theorem State.Follows.step {i s d : State} {b : Bool} (h : i.Follows s d) (hs : s.Encoding)
    (hok : (execState (.encodeBit b) s).resp.code = .ok) (hleads : i.LeadsInto (s.codeBit b)) :
    (execState .decodeBit d).resp = ⟨.ok, b⟩ ∧ i.Follows (execState (.encodeBit b) s) (execState .decodeBit d) := by
  obtain ⟨hm, ho, hfits⟩ := encodeBit_ok_admitted hok
  have hcoded := h.codeBit b
  rw [execState_decodeBit_consumed h.mode, h.decodedBit hs hleads, hcoded.x1, hcoded.x2,
    execState_encodeBit_fits hm ho hfits]
  obtain ⟨hcfg, hpt, hhist, hpfx, hx1, hx2, hmode, hneedle, hinput⟩ :=
    hcoded.rounds (hfits.trans_eq (s.codeBit_room b).symm)
  exact ⟨rfl, hcfg, hpt, hhist, hpfx, hx1, hx2, hmode, hneedle, hinput⟩

/-- A decoder that follows from the start of a run reproduces its bits and follows all along it. -/
theorem State.Follows.decodeBits {i e : State} {bits : List Bool} {s d : State} (h : i.Follows s d) (hs : s.Encoding)
    (hrun : encodeBits bits s = some e) (hleads : i.LeadsInto e) {k : Nat} (hk : k ≤ bits.length) :
    ∃ ek dk, encodeBits (bits.take k) s = some ek ∧ decodeBits k d = some (bits.take k, dk) ∧
      i.Follows ek dk ∧ i.LeadsInto ek := by
  induction bits generalizing s d k with
  | nil =>
    cases hrun
    obtain rfl := Nat.le_zero.mp hk
    exact ⟨e, d, rfl, rfl, h, hleads⟩
  | cons b bs ih =>
    cases k with
    | zero => exact ⟨s, d, rfl, rfl, h, .of_encodeBits hs hrun hleads⟩
    | succ k =>
      obtain ⟨hok, hrest⟩ := encodeBits_cons_eq_some hrun
      have hcoded := State.LeadsInto.of_encodeBit hs.forms hok (.of_encodeBits (hs.encodeBit hok) hrest hleads)
      obtain ⟨hresp, hfollows⟩ := h.step hs hok hcoded
      obtain ⟨ek, dk, hek, hdk, hboth⟩ := ih hfollows (hs.encodeBit hok) hrest (Nat.le_of_succ_le_succ hk)
      refine ⟨ek, dk, ?_, decodeBits_succ hresp hdk, hboth⟩
      rw [List.take_succ_cons, encodeBits_cons, if_pos hok, hek]

/-- `INIT_DEC` starts a decoder that follows a fresh encoder with the same parameters. -/
theorem State.follows_init {s d : State} (hcfg : d.cfg = s.cfg) :
    (d.startPass .dec).Follows (execState .initEnc s) (execState .initDec d) := by
  rw [execState_initEnc, execState_initDec, State.preload_eq_fed]
  exact ⟨hcfg, rfl, rfl, rfl, rfl, rfl, rfl, rfl, (d.startPass .dec).fed_inputByte 4⟩

/-- Settles O56: the stream leads into the last interval, hence into all before it, so the decoder follows. -/
theorem decoderReproducesTheCodedBits : Obligations.DecoderReproducesTheCodedBits := by
  intro s s0 e f d d0 bits hs h0 hrun hflush hok hcfg hlen hbuf hd0 k hk
  have hf := execState_of_exec hflush
  have hs0 : s0.Encoding := by
    rw [execState_of_exec h0]
    exact ⟨hs.command .initEnc, s.startPass_apart .enc⟩
  subst hf
  have hleads := State.LeadsInto.of_flush (hs0.encodeBits hrun) hok hlen hbuf
  have hfollows : (d.startPass .dec).Follows s0 d0 := by
    rw [execState_of_exec h0, execState_of_exec hd0]
    exact State.follows_init hcfg
  obtain ⟨ek, dk, hek, hdk, hfollow, hlead⟩ := hfollows.decodeBits hs0 hrun hleads hk
  refine ⟨ek, dk, hek, hdk, ?_, ?_, hfollow.x1, hfollow.x2, hfollow.sameModel⟩
  · rw [hfollow.x1, hfollow.needle]
    exact hlead.low
  · rw [hfollow.x2, hfollow.needle]
    exact hlead.high

end Sys2Proof.Machine

namespace Sys2Proof.Machine

/-! ## `COMPRESS` as a run of coded bits (43_host_sequences.md R160, R161, R163) -/

/-- The bits of an encoded byte sequence: each byte behind its continuation bit, then the end bit. -/
def messageBits (data : List Byte) : List Bool := data.flatMap symbolBits ++ [false]

/-- The commands of a compress pass that codes `bits`, after `INIT_ENC`. -/
def passCommands (bits : List Bool) : List Instr := bits.map .encodeBit ++ [.flush]

theorem compressCommands_eq (data : List Byte) :
    compressCommands data = .initEnc :: passCommands (messageBits data) := by
  rw [passCommands, messageBits, List.map_append, List.map_flatMap, List.append_assoc]
  rfl

theorem issueAll_singleton (i : Instr) (s : State) : issueAll [i] s = issue i s := ite_self _

theorem issueAll_passCommands_cons (b : Bool) (bs : List Bool) (s : State) :
    issueAll (passCommands (b :: bs)) s =
      if (issue (.encodeBit b) s).gotCode .ok then issueAll (passCommands bs) (issue (.encodeBit b) s)
      else issue (.encodeBit b) s := rfl

theorem passCommands_not_init {bits : List Bool} {i : Instr} (hi : i ∈ passCommands bits) :
    i ≠ .initEnc ∧ i ≠ .initDec := by
  simp only [passCommands, List.mem_append, List.mem_map, List.mem_singleton] at hi
  rcases hi with ⟨b, _, rfl⟩ | rfl <;> exact ⟨nofun, nofun⟩

/-- What every phase keeps, and the read of a response, holds after a sequence of commands that starts no pass. -/
theorem KeptByPhases.of_issueAll {P : State → Prop} (k : KeptByPhases P)
    (answer : ∀ s v, P s → P (s.answer v false)) {is : List Instr} (hno : ∀ i ∈ is, i ≠ .initEnc ∧ i ≠ .initDec)
    {s : State} (hs : P s) : P (issueAll is s) := by
  induction is generalizing s with
  | nil => exact hs
  | cons i is ih =>
    obtain ⟨hne, hnd⟩ := hno i List.mem_cons_self
    have hi : P (issue i s) := by
      rw [issue_eq]
      exact answer _ _ (k.of_not_init hne hnd hs)
    rw [issueAll]
    split
    · exact ih (fun j hj => hno j (List.mem_cons_of_mem i hj)) hi
    · exact hi

theorem keptByPhases_mode_ne_idle : KeptByPhases fun s => s.mode ≠ .idle := by
  constructor <;> simp

/-- `COMPRESS` up to the response of its last command. -/
def compressRun (data : List Byte) (cap : Word) (s : State) : State :=
  issueAll (passCommands (messageBits data)) (issue .initEnc (s.setLen cap))

theorem compressRun_mode (data : List Byte) (cap : Word) (s : State) : (compressRun data cap s).mode ≠ .idle :=
  keptByPhases_mode_ne_idle.of_issueAll (fun _ _ hs => hs) (fun _ => passCommands_not_init)
    (by simp [issue_eq, execState_initEnc])

/-- The cursor ends inside the buffer of `cap` bytes. -/
theorem compressRun_cursor (data : List Byte) (cap : Word) (s : State) :
    (compressRun data cap s).CursorFrom 0 cap :=
  (keptByPhases_cursorFrom 0 cap).of_issueAll (fun _ _ hs => hs) (fun _ => passCommands_not_init)
    (issue_eq .initEnc _ ▸ (s.setLen cap).startPass_cursorFrom .enc)

/-- Outside `IDLE` a read of `POS` answers the cursor. -/
theorem runAccess_read_pos {s : State} (hm : s.mode ≠ .idle) : runAccess (.read 0x10) s = s.answer s.pos false := by
  have hread : runAccess (.read 0x10) s = s.hostRead (regOffset .pos) := rfl
  have hdraws : s.drawsOn .pos = false := by simp [State.drawsOn, hm]
  rw [hread, State.hostRead_regOffset, hdraws, State.regWord, State.viewOf_word hm]

/-- The three ends of `COMPRESS` (R163). -/
theorem compress_eq (data : List Byte) (cap : Word) (s : State) :
    compress data cap s =
      if (compressRun data cap s).gotCode .ok then
        (.count (compressRun data cap s).pos.toNat,
          (compressRun data cap s).answer (compressRun data cap s).pos false)
      else if (compressRun data cap s).gotCode .eOverflow then (.sentinel (cap.toNat + 1), compressRun data cap s)
      else (.stopped (compressRun data cap s).rdata, compressRun data cap s) := by
  have hrun : issueAll (compressCommands data) (issueSetLen cap s) = compressRun data cap s := by
    have hopened : (issue .initEnc (s.setLen cap)).gotCode .ok = true := gotCode_issue _ _ _
    rw [compressCommands_eq, issueSetLen_eq, issueAll, if_pos hopened]
    rfl
  simp only [compress, hrun, runAccess_read_pos (compressRun_mode data cap s)]
  rfl

theorem compress_pos_buf (data : List Byte) (cap : Word) (s : State) :
    (compress data cap s).2.pos = (compressRun data cap s).pos ∧
      (compress data cap s).2.buf = (compressRun data cap s).buf := by
  rw [compress_eq]
  split
  · exact ⟨rfl, rfl⟩
  · split <;> exact ⟨rfl, rfl⟩

/-- A `COMPRESS` that gives a count met `OK` to the end, and the count is `POS`. -/
theorem compressRun_of_count {data : List Byte} {cap : Word} {s f : State} {n : Nat}
    (h : compress data cap s = (.count n, f)) :
    (compressRun data cap s).gotCode .ok = true ∧ n = (compressRun data cap s).pos.toNat ∧
      f.buf = (compressRun data cap s).buf := by
  rw [compress_eq] at h
  split at h
  · cases h
    exact ⟨by assumption, rfl, rfl⟩
  · split at h <;> cases h

end Sys2Proof.Machine

namespace Sys2Proof.Machine

/-! ## Two encoders of the same bits, with buffers of different sizes -/

theorem SameModel.split {s t : State} (h : SameModel s t) (hx1 : s.x1 = t.x1) (hx2 : s.x2 = t.x2) :
    s.split = t.split := by
  have hp (u : State) : u.predPredict.1 = cellProb (u.ptGet u.context) := rfl
  rw [State.split, State.split, hp, hp, hx1, hx2, h.context_eq, h.pt]

/-- An encoder whose next bit is admitted. -/
structure State.Open (s : State) : Prop where
  forms : s.FormsOk
  mode : s.mode = .enc
  ovf : s.ovf = false

/-- Two encoders that have coded the same bits: they differ in the size of the buffer, where `t` has no less room, and
in the bytes at and past the cursor. -/
structure State.Mirrors (s t : State) : Prop where
  left : s.Open
  right : t.Open
  model : SameModel s t
  x1 : s.x1 = t.x1
  x2 : s.x2 = t.x2
  pos : s.pos = t.pos
  limit : s.limit ≤ t.limit
  bytes : SameBytes s t s.pos.toNat

theorem State.Mirrors.room {s t : State} (h : s.Mirrors t) : s.room ≤ t.room := by
  have hlimit := BitVec.le_def.mp h.limit
  rw [State.room, State.room, h.pos]
  omega

theorem State.Open.codeBit {s : State} (hs : s.Open) (b : Bool) : (s.codeBit b).Open :=
  ⟨hs.forms.codeBit b, by simp [hs.mode], by simp [hs.ovf]⟩

theorem State.Mirrors.codeBit {s t : State} (h : s.Mirrors t) (b : Bool) : (s.codeBit b).Mirrors (t.codeBit b) where
  left := h.left.codeBit b
  right := h.right.codeBit b
  model := h.model.codeBit h.left.forms h.right.forms b
  x1 := by simp [h.x1, h.model.split h.x1 h.x2]
  x2 := by simp [h.x2, h.model.split h.x1 h.x2]
  pos := by simp [h.pos]
  limit := by simpa using h.limit
  bytes := by simpa [SameBytes] using h.bytes

theorem State.Mirrors.emitRound {s t : State} (h : s.Mirrors t) (hroom : s.pos < s.limit) :
    s.emitRound.Mirrors t.emitRound where
  left := ⟨h.left.forms.emitRound, h.left.mode, h.left.ovf⟩
  right := ⟨h.right.forms.emitRound, h.right.mode, h.right.ovf⟩
  model := ⟨h.model.cfg, h.model.pt, h.model.hist, h.model.pfx⟩
  x1 := congrArg shiftZero h.x1
  x2 := congrArg (shiftByte · 0xFF) h.x2
  pos := congrArg (· + 1) h.pos
  limit := h.limit
  bytes a ha := by
    have hpos : s.emitRound.pos.toNat = s.pos.toNat + 1 := State.advance_pos_toNat hroom
    rw [s.emitRound_buf, t.emitRound_buf, ← h.pos, ← h.x2, cellsGet_set _ _ _ _ h.left.forms.1,
      cellsGet_set _ _ _ _ h.right.forms.1]
    split
    · rfl
    · exact h.bytes a (by omega)

theorem State.Mirrors.emitRounds {s t : State} (h : s.Mirrors t) {k : Nat} (hk : k ≤ s.room) :
    (State.emitRound^[k] s).Mirrors (State.emitRound^[k] t) := by
  induction k with
  | zero => exact h
  | succ k ih =>
    rw [Function.iterate_succ_apply', Function.iterate_succ_apply']
    refine (ih (by omega)).emitRound ((State.room_pos_iff _).mp ?_)
    rw [s.emitRound_iterate_room (by omega)]
    omega

/-- Responses, and what the host has read, do not matter. -/
theorem State.Mirrors.answer {s t : State} (h : s.Mirrors t) (c c' : Code) (v w : Word) :
    ((s.respond c false).answer v false).Mirrors ((t.respond c' false).answer w false) := by
  obtain ⟨left, right, model, x1, x2, pos, limit, bytes⟩ := h
  exact ⟨⟨left.forms, left.mode, left.ovf⟩, ⟨right.forms, right.mode, right.ovf⟩,
    ⟨model.cfg, model.pt, model.hist, model.pfx⟩, x1, x2, pos, limit, bytes⟩

/-! ## How an encode command ends -/

@[simp] theorem State.emitRound_iterate_limit (s : State) (k : Nat) : (State.emitRound^[k] s).limit = s.limit := by
  rw [State.emitRound_iterate, State.emitted_limit]

theorem State.emitRound_iterate_pos (s : State) {k : Nat} (hk : k ≤ s.room) :
    (State.emitRound^[k] s).pos.toNat = s.pos.toNat + k := by
  rw [State.emitRound_iterate, State.emitted_pos, s.pos_add_toNat hk]

/-- More rounds keep the bytes that the first `k` emitted. -/
theorem State.emitRound_iterate_buf_mono (s : State) {k m : Nat} (hkm : k ≤ m) (hm : m ≤ s.room) {a : Nat}
    (ha : a < s.pos.toNat + k) :
    cellsGet bufDefault (State.emitRound^[m] s).buf a = cellsGet bufDefault (State.emitRound^[k] s).buf a := by
  obtain ⟨j, rfl⟩ := Nat.exists_eq_add_of_le' hkm
  rw [Function.iterate_add_apply]
  refine State.emitRound_iterate_buf_other _ ?_ (.inl ?_)
  · rw [s.emitRound_iterate_room (by omega)]
    omega
  · rwa [s.emitRound_iterate_pos (by omega)]

/-- `t` is how a command ends that has `n` bytes to emit from `c`, once the host has read the response: all are emitted,
or as many as fit. -/
structure State.Emits (c : State) (n : Nat) (t : State) : Prop where
  rdata : t.rdata = respWord ⟨if n ≤ c.room then .ok else .eOverflow, false⟩
  limit : t.limit = c.limit
  pos : t.pos = (State.emitRound^[min n c.room] c).pos
  buf : t.buf = (State.emitRound^[min n c.room] c).buf

theorem State.Emits.of_fits {c t : State} {n : Nat} (hfits : n ≤ c.room) (rdata : t.rdata = respWord ⟨.ok, false⟩)
    (limit : t.limit = c.limit) (pos : t.pos = (State.emitRound^[n] c).pos)
    (buf : t.buf = (State.emitRound^[n] c).buf) : c.Emits n t := by
  refine ⟨?_, limit, ?_, ?_⟩
  · rw [if_pos hfits, rdata]
  · rw [min_eq_left hfits, pos]
  · rw [min_eq_left hfits, buf]

theorem State.Emits.of_overflows {c : State} {n : Nat} (hfull : c.room < n) :
    c.Emits n ((State.emitRound^[c.room] c).raiseOverflow.answer (respWord ⟨.eOverflow, false⟩) false) := by
  refine ⟨?_, c.emitRound_iterate_limit _, ?_, ?_⟩
  · rw [if_neg (Nat.not_le.mpr hfull)]
    rfl
  · rw [min_eq_right hfull.le]
    rfl
  · rw [min_eq_right hfull.le]
    rfl

theorem State.Open.emits_encodeBit {s : State} (hs : s.Open) (b : Bool) :
    (s.codeBit b).Emits (sharedBytes (s.codeBit b).x1 (s.codeBit b).x2) (issue (.encodeBit b) s) := by
  rw [issue_eq]
  rcases Nat.lt_or_ge s.room (sharedBytes (s.codeBit b).x1 (s.codeBit b).x2) with hfull | hfits
  · rw [execState_encodeBit_overflows hs.mode hs.ovf hfull, ← s.codeBit_room b]
    exact .of_overflows (by rwa [s.codeBit_room])
  · rw [execState_encodeBit_fits hs.mode hs.ovf hfits]
    exact .of_fits (by rwa [s.codeBit_room]) rfl (State.emitRound_iterate_limit _ _) rfl rfl

theorem State.Open.emits_flush {s : State} (hs : s.Open) :
    s.Emits (sharedBytes s.x1 s.x2 + 1) (issue .flush s) := by
  rw [issue_eq]
  rcases Nat.lt_or_ge s.room (sharedBytes s.x1 s.x2 + 1) with hfull | hfits
  · rw [execState_flush_overflows hs.mode hs.ovf (Nat.le_of_lt_succ hfull)]
    exact .of_overflows hfull
  · rw [execState_flush_fits hs.mode hs.ovf hfits]
    refine .of_fits hfits rfl rfl ?_ rfl
    rw [State.emitRound_iterate]
    rfl

/-! ## The shorter buffer holds the beginning of what the longer one holds -/

/-- What the run that ended in `u` wrote begins what the run that ended in `v` wrote: both ended alike, or the
buffer of `u` was full and `v` went on past it. -/
structure State.WritesPrefixOf (u v : State) : Prop where
  bytes : SameBytes u v u.pos.toNat
  ends : (u.rdata = v.rdata ∧ u.pos = v.pos) ∨
    (u.rdata = respWord ⟨.eOverflow, false⟩ ∧ u.limit ≤ u.pos ∧ u.pos < v.pos)

theorem State.gotCode_of_rdata {s : State} {r : Resp} (h : s.rdata = respWord r) (c : Code) :
    s.gotCode c = decide (r.code = c) := by
  rw [State.gotCode, h]
  exact codeRead_respWord r c

theorem State.gotCode_congr {u v : State} (h : u.rdata = v.rdata) (c : Code) : u.gotCode c = v.gotCode c := by
  rw [State.gotCode, State.gotCode, h]

theorem State.WritesPrefixOf.alike_of_ok {u v : State} (h : u.WritesPrefixOf v) (hu : u.gotCode .ok = true) :
    u.rdata = v.rdata ∧ u.pos = v.pos := by
  obtain ⟨_, hsame | ⟨hfull, _⟩⟩ := h
  · exact hsame
  · rw [State.gotCode_of_rdata hfull] at hu
    cases hu

/-- One command of each: both emit the same bytes as far as the shorter buffer goes. -/
theorem State.Mirrors.writesPrefixOf {c d u v : State} {n : Nat} (h : c.Mirrors d) (hu : c.Emits n u)
    (hv : d.Emits n v) : u.WritesPrefixOf v := by
  have hroom := h.room
  have hupos := c.emitRound_iterate_pos (min_le_right n c.room)
  have hvpos := d.emitRound_iterate_pos (min_le_right n d.room)
  have hpos := congrArg BitVec.toNat h.pos
  rw [← hu.pos] at hupos
  rw [← hv.pos] at hvpos
  constructor
  · intro a ha
    have hcommon := (h.emitRounds (min_le_right n c.room)).bytes a (by rwa [← hu.pos])
    have hmore := d.emitRound_iterate_buf_mono (a := a) (min_le_min_left n hroom) (min_le_right _ _) (by omega)
    rw [hu.buf, hcommon, hv.buf, hmore]
  · by_cases hsame : n ≤ c.room ∨ c.room = d.room
    · refine .inl ⟨?_, BitVec.eq_of_toNat_eq (by omega)⟩
      rw [hu.rdata, hv.rdata]
      rcases hsame with hfits | heq
      · rw [if_pos hfits, if_pos (hfits.trans hroom)]
      · rw [heq]
    · rw [not_or] at hsame
      refine .inr ⟨by rw [hu.rdata, if_neg hsame.1], ?_, ?_⟩
      · rw [hu.limit, BitVec.le_def, hupos, min_eq_right (by omega), State.room]
        omega
      · rw [BitVec.lt_def]
        omega

/-- What follows in the longer buffer changes nothing before its cursor. -/
theorem State.WritesPrefixOf.issueAll {u v : State} {is : List Instr} (h : u.WritesPrefixOf v)
    (hcut : u.rdata ≠ v.rdata) (hno : ∀ i ∈ is, i ≠ .initEnc ∧ i ≠ .initDec) : u.WritesPrefixOf (issueAll is v) := by
  obtain ⟨hbytes, ⟨hsame, _⟩ | ⟨hfull, hlimit, hpast⟩⟩ := h
  · exact absurd hsame hcut
  have hkept (j : Word) (hj : j ≤ u.pos) : (Machine.issueAll is v).WroteByte j (v.bufGet j) :=
    (keptByPhases_wroteByte j _).of_issueAll (fun _ _ hs => hs) hno ⟨Nat.lt_of_le_of_lt hj hpast, rfl⟩
  refine ⟨fun a ha => ?_, .inr ⟨hfull, hlimit, (hkept u.pos (BitVec.le_refl _)).1⟩⟩
  have hword : (BitVec.ofNat 32 a).toNat = a := by
    rw [BitVec.toNat_ofNat]
    omega
  have hbyte := (hkept (BitVec.ofNat 32 a) (by rw [BitVec.le_def, hword]; omega)).2
  rw [State.bufGet, State.bufGet, hword] at hbyte
  rw [hbyte, hbytes a ha]

/-- A bit that both encoders took leaves them alike. -/
theorem State.Mirrors.encodeBit {s t : State} (h : s.Mirrors t) {b : Bool}
    (hs : (issue (.encodeBit b) s).gotCode .ok = true) :
    (issue (.encodeBit b) s).Mirrors (issue (.encodeBit b) t) := by
  rw [gotCode_issue, decide_eq_true_iff] at hs
  obtain ⟨_, _, hfits⟩ := encodeBit_ok_admitted hs
  have hcoded := h.codeBit b
  have hrounds := hcoded.emitRounds (hfits.trans_eq (s.codeBit_room b).symm)
  rw [issue_eq, issue_eq, execState_encodeBit_fits h.left.mode h.left.ovf hfits,
    execState_encodeBit_fits h.right.mode h.right.ovf (by rw [← hcoded.x1, ← hcoded.x2]; exact hfits.trans h.room),
    ← hcoded.x1, ← hcoded.x2]
  exact hrounds.answer _ _ _ _

/-- A whole pass of each. -/
theorem State.Mirrors.pass {s t : State} (h : s.Mirrors t) (bits : List Bool) :
    (issueAll (passCommands bits) s).WritesPrefixOf (issueAll (passCommands bits) t) := by
  induction bits generalizing s t with
  | nil =>
    have hflush := h.left.emits_flush
    rw [h.x1, h.x2] at hflush
    simpa only [passCommands, List.map_nil, List.nil_append, issueAll_singleton] using h.writesPrefixOf hflush h.right.emits_flush
  | cons b bs ih =>
    have hcoded := h.codeBit b
    have hbit := h.left.emits_encodeBit b
    rw [hcoded.x1, hcoded.x2] at hbit
    have hstep := hcoded.writesPrefixOf hbit (h.right.emits_encodeBit b)
    rw [issueAll_passCommands_cons, issueAll_passCommands_cons]
    by_cases hs : (issue (.encodeBit b) s).gotCode .ok = true
    · have ht := (State.gotCode_congr (hstep.alike_of_ok hs).1 .ok).symm.trans hs
      rw [if_pos hs, if_pos ht]
      exact ih (h.encodeBit hs)
    · rw [if_neg hs]
      by_cases ht : (issue (.encodeBit b) t).gotCode .ok = true
      · rw [if_pos ht]
        exact hstep.issueAll (fun e => hs ((State.gotCode_congr e .ok).trans ht)) fun _ => passCommands_not_init
      · rw [if_neg ht]
        exact hstep

/-! ## Two `COMPRESS` runs -/

theorem State.Open.initEnc {s : State} (hs : s.FormsOk) (len : Word) : (issue .initEnc (s.setLen len)).Open := by
  rw [issue_eq]
  exact ⟨hs.startPass .enc, rfl, rfl⟩

/-- Fresh encoders with equal parameters have coded the same, nothing. -/
theorem State.mirrors_initEnc {s t : State} (hs : s.FormsOk) (ht : t.FormsOk) (hcfg : s.cfg = t.cfg) {a b : Word}
    (hab : a ≤ b) : (issue .initEnc (s.setLen a)).Mirrors (issue .initEnc (t.setLen b)) := by
  have left := State.Open.initEnc hs a
  have right := State.Open.initEnc ht b
  rw [issue_eq, execState_initEnc] at left right ⊢
  refine ⟨left, right, ⟨hcfg, fun _ => ?_, fun _ => ?_, rfl⟩, rfl, rfl, rfl, hab,
    fun _ ha => absurd ha (Nat.not_lt_zero _)⟩
  · exact congrArg (seedCell · _) hcfg
  · exact congrArg Config.histInit hcfg

theorem compressRun_writesPrefixOf {s t : State} (hs : s.FormsOk) (ht : t.FormsOk) (hcfg : s.cfg = t.cfg)
    (data : List Byte) {a b : Word} (hab : a ≤ b) :
    (compressRun data a s).WritesPrefixOf (compressRun data b t) :=
  (State.mirrors_initEnc hs ht hcfg hab).pass _

/-- With equal capacities no run goes on past the other. -/
theorem compress_deterministic {s t : State} (hs : s.FormsOk) (ht : t.FormsOk) (hcfg : s.cfg = t.cfg)
    (data : List Byte) (cap : Word) :
    (compress data cap s).1 = (compress data cap t).1 ∧ (compress data cap s).2.pos = (compress data cap t).2.pos ∧
      SameBytes (compress data cap s).2 (compress data cap t).2 (compress data cap s).2.pos.toNat := by
  obtain ⟨hbytes, hends⟩ := compressRun_writesPrefixOf hs ht hcfg data (BitVec.le_refl cap)
  obtain ⟨hlimit, _⟩ := compressRun_cursor data cap s
  obtain ⟨hlimit', _, hcursor'⟩ := compressRun_cursor data cap t
  obtain ⟨hspos, hsbuf⟩ := compress_pos_buf data cap s
  obtain ⟨htpos, htbuf⟩ := compress_pos_buf data cap t
  obtain ⟨hrdata, hpos⟩ | ⟨_, hfull, hpast⟩ := hends
  · rw [hspos, htpos, SameBytes, hsbuf, htbuf]
    refine ⟨?_, hpos, hbytes⟩
    rw [compress_eq, compress_eq, State.gotCode_congr hrdata, State.gotCode_congr hrdata, hrdata, hpos]
    split
    · rfl
    · split <;> rfl
  · rw [BitVec.le_def, hlimit] at hfull
    rw [BitVec.lt_def] at hpast
    rw [hlimit'] at hcursor'
    omega

/-- Settles O58: the run in the smaller buffer cannot end like the other, whose cursor went further. -/
theorem compressIntoSmallBufferGivesAPrefix : Obligations.CompressIntoSmallBufferGivesAPrefix := by
  intro s f data cap small n hs hc hsmall
  obtain ⟨_, rfl, hbuf⟩ := compressRun_of_count hc
  obtain ⟨hlimit, _, hcursor⟩ := compressRun_cursor data small s
  obtain ⟨hlimit', _, hcursor'⟩ := compressRun_cursor data cap s
  rw [hlimit] at hcursor
  rw [hlimit'] at hcursor'
  obtain ⟨hbytes, ⟨_, hpos⟩ | ⟨hrdata, hfull, _⟩⟩ :=
    compressRun_writesPrefixOf hs hs rfl data (show small ≤ cap by rw [BitVec.le_def]; omega)
  · rw [← hpos] at hsmall
    omega
  · rw [hlimit] at hfull
    have hpos : (compressRun data small s).pos = small := BitVec.le_antisymm hcursor hfull
    refine ⟨compressRun data small s, ?_, hpos, ?_⟩
    · rw [compress_eq, State.gotCode_of_rdata hrdata, State.gotCode_of_rdata hrdata]
      rfl
    · rw [hpos] at hbytes
      rwa [SameBytes, hbuf]

end Sys2Proof.Machine

namespace Sys2Proof.Machine

/-! ## A decoder before a coded pass (43_host_sequences.md R162, R164) -/

/-- The input of `i` is the stream that coding `bits` from `s` and `FLUSH` leave, every response being `OK`. -/
structure State.Holds (i s : State) (bits : List Bool) : Prop where
  encoding : s.Encoding
  ok : (issueAll (passCommands bits) s).gotCode .ok = true
  len : i.len = (issueAll (passCommands bits) s).pos
  bytes : SameBytes i (issueAll (passCommands bits) s) i.len.toNat

/-- Coding the first bit leaves an encoder for the rest of the same stream. -/
theorem State.Holds.tail {i s : State} {b : Bool} {bs : List Bool} (h : i.Holds s (b :: bs)) :
    (execState (.encodeBit b) s).resp.code = .ok ∧ i.Holds (issue (.encodeBit b) s) bs := by
  obtain ⟨encoding, ok, len, bytes⟩ := h
  rw [issueAll_passCommands_cons] at ok len bytes
  by_cases hb : (issue (.encodeBit b) s).gotCode .ok = true
  · rw [if_pos hb] at ok len bytes
    rw [gotCode_issue, decide_eq_true_iff] at hb
    obtain ⟨forms, apart⟩ := encoding.encodeBit hb
    refine ⟨hb, ?_, ok, len, bytes⟩
    rw [issue_eq]
    exact ⟨forms, apart⟩
  · rw [if_neg hb] at ok
    exact absurd ok hb

/-- What the host has read does not matter to the stream, -/
theorem State.LeadsInto.of_issue {i s : State} {c : Instr} (h : i.LeadsInto (issue c s)) :
    i.LeadsInto (execState c s) := by
  rw [issue_eq] at h
  exact ⟨h.bytes, h.low, h.high⟩

/-- nor to who follows whom. -/
theorem State.Follows.issue {i s d : State} {c e : Instr} (h : i.Follows (execState c s) (execState e d)) :
    i.Follows (issue c s) (issue e d) := by
  rw [issue_eq, issue_eq]
  exact ⟨h.cfg, h.pt, h.hist, h.pfx, h.x1, h.x2, h.mode, h.needle, h.input⟩

/-- Such a stream leads into the interval of the encoder. -/
theorem State.Holds.leadsInto {i s : State} {bits : List Bool} (h : i.Holds s bits) :
    (i.startPass .dec).LeadsInto s := by
  induction bits generalizing s with
  | nil =>
    obtain ⟨encoding, ok, len, bytes⟩ := h
    have hlast : issueAll (passCommands []) s = issue .flush s := issueAll_singleton _ _
    rw [hlast] at ok len bytes
    rw [gotCode_issue, decide_eq_true_iff] at ok
    rw [issue_eq] at len bytes
    rw [len] at bytes
    exact .of_flush encoding ok len bytes
  | cons b bs ih =>
    obtain ⟨hok, hrest⟩ := h.tail
    exact .of_codeBit h.encoding (.of_encodeBit h.encoding.forms hok (ih hrest).of_issue)

/-- The decoder `d` of the input of `i` has `bits` before it: it stands where an encoder stood that coded them. -/
def State.Reads (i d : State) (bits : List Bool) : Prop := ∃ s, i.Holds s bits ∧ (i.startPass .dec).Follows s d

/-- `DECODE_BIT` takes the first of the bits. -/
theorem State.Reads.takeBit {i d : State} {b : Bool} {bs : List Bool} (h : i.Reads d (b :: bs)) :
    ∃ d', takeBit d = (b, d') ∧ i.Reads d' bs := by
  obtain ⟨s, hs, hfollows⟩ := h
  obtain ⟨hok, hrest⟩ := hs.tail
  obtain ⟨hresp, hnext⟩ := hfollows.step hs.encoding hok (.of_encodeBit hs.encoding.forms hok hrest.leadsInto.of_issue)
  refine ⟨Machine.issue .decodeBit d, ?_, _, hrest, hnext.issue⟩
  rw [Machine.takeBit, gotBit_issue, hresp]

/-- The accumulator takes in bit by bit what is read (R162). -/
theorem State.Reads.takeBits {i d : State} {bs rest : List Bool} (h : i.Reads d (bs ++ rest)) (acc : Nat) :
    ∃ d', takeBits bs.length acc d = (pushBits acc bs, d') ∧ i.Reads d' rest := by
  induction bs generalizing d acc with
  | nil => exact ⟨d, rfl, h⟩
  | cons b bs ih =>
    obtain ⟨d', hbit, hrest⟩ := h.takeBit
    obtain ⟨d'', hbits, hend⟩ := ih hrest (2 * acc + b.toNat)
    refine ⟨d'', ?_, hend⟩
    rw [List.length_cons, Machine.takeBits, hbit]
    exact hbits

/-- The accumulator holds a leading 1 and the byte. -/
theorem pushBits_byteBits (v : Byte) : BitVec.ofNat 8 (pushBits 1 (byteBits v)) = v := by
  have hacc : pushBits 1 (byteBits v) = 1 * 256 + v.toNat / 1 := pushBits_take_byteBits 1 v le_rfl
  apply BitVec.eq_of_toNat_eq
  rw [hacc, BitVec.toNat_ofNat]
  omega

/-- `DECODE_SYMBOL` takes an encoded byte. -/
theorem State.Reads.decodeSymbol {i d : State} {v : Byte} {rest : List Bool} (h : i.Reads d (symbolBits v ++ rest)) :
    ∃ d', decodeSymbol d = (some v, d') ∧ i.Reads d' rest := by
  obtain ⟨d', hbit, hrest⟩ := State.Reads.takeBit (b := true) h
  obtain ⟨d'', hbits, hend⟩ := hrest.takeBits 1
  have hlength : (byteBits v).length = 8 := rfl
  rw [hlength] at hbits
  refine ⟨d'', ?_, hend⟩
  simp only [Machine.decodeSymbol, hbit, hbits, pushBits_byteBits, if_true]

/-- And meets the end of the stream at the end bit. -/
theorem State.Reads.decodeSymbol_end {i d : State} {rest : List Bool} (h : i.Reads d (false :: rest)) :
    ∃ d', Machine.decodeSymbol d = (none, d') := by
  obtain ⟨d', hbit, _⟩ := h.takeBit
  exact ⟨d', by simp [Machine.decodeSymbol, hbit]⟩

/-- The loop of `DECOMPRESS` writes the bytes of the message and meets its end. -/
theorem State.Reads.decodeLoop {i d : State} {data : List Byte} (h : i.Reads d (messageBits data)) {room : Nat}
    (hroom : data.length ≤ room) : (decodeLoop room d).1 = true ∧ (decodeLoop room d).2.1 = data := by
  induction data generalizing d room with
  | nil =>
    obtain ⟨d', hend⟩ := State.Reads.decodeSymbol_end (rest := []) h
    cases room <;> simp [Machine.decodeLoop, hend]
  | cons v data ih =>
    obtain ⟨room, rfl⟩ := Nat.exists_eq_add_of_le' (Nat.le_trans (Nat.le_add_left 1 _) hroom)
    rw [messageBits, List.flatMap_cons, List.append_assoc] at h
    obtain ⟨d', hsymbol, hrest⟩ := h.decodeSymbol
    obtain ⟨hmet, hdata⟩ := ih hrest (Nat.le_of_succ_le_succ hroom)
    simp only [Machine.decodeLoop, hsymbol, hmet, hdata, and_self]

/-! ## `DECOMPRESS` of what `COMPRESS` wrote (43_host_sequences.md R167) -/

/-- With the output of a `COMPRESS` as its input, `INIT_DEC` starts a decoder that has the message before it. -/
theorem State.reads_initDec {s f d : State} {data : List Byte} {cap : Word} {n : Nat} (hs : s.FormsOk)
    (hc : compress data cap s = (.count n, f)) (hcfg : d.cfg = s.cfg) (hbytes : SameBytes d f n) :
    (d.setLen (BitVec.ofNat 32 n)).Reads (issue .initDec (d.setLen (BitVec.ofNat 32 n))) (messageBits data) := by
  obtain ⟨hok, rfl, hbuf⟩ := compressRun_of_count hc
  rw [SameBytes, hbuf] at hbytes
  have hlen : BitVec.ofNat 32 (compressRun data cap s).pos.toNat = (compressRun data cap s).pos := by
    rw [BitVec.ofNat_toNat, BitVec.setWidth_eq]
  rw [hlen]
  have hencoding : (issue .initEnc (s.setLen cap)).Encoding :=
    ⟨(State.Open.initEnc hs cap).forms, (s.setLen cap).startPass_apart .enc⟩
  exact ⟨_, ⟨hencoding, hok, rfl, hbytes⟩, .issue (State.follows_init hcfg)⟩

/-- Settles O57: the decoder reads back the bits that the encoder coded, symbol by symbol. -/
theorem decompressInvertsCompress : Obligations.DecompressInvertsCompress := by
  refine ⟨fun s t data cap hs ht hcfg => compress_deterministic hs ht hcfg data cap, ?_⟩
  intro s f d data cap n outCap hs hc hcfg hbytes hroom
  obtain ⟨hmet, hdata⟩ := (State.reads_initDec hs hc hcfg hbytes).decodeLoop hroom
  simp only [decompress, issueSetLen_eq, hmet, hdata, if_true, and_self]

end Sys2Proof.Machine

namespace Sys2Proof.Machine

/-! ## The outcomes of a command word (60_exceptions.md R181, R182, R186) -/

theorem step_write_cmd {s : State} {v : Word} {rest : List HostAccess} (hp : s.pending = .write 0x00 v :: rest) :
    step s = .next (afterCommand v (s.setPending rest)) :=
  step_cons hp (State.keepsDuty_of_no_store nofun)

theorem afterCommand_of_ok {v : Word} {i : Instr} (h : decode (v.setWidth 8) = .ok i) (s : State) :
    afterCommand v s = execState i s := by
  rw [afterCommand, commandOf, h]

theorem afterCommand_of_error {v : Word} {e : DecodeError} (h : decode (v.setWidth 8) = .error e) (s : State) :
    afterCommand v s = s.respond .eIllegal false := by
  rw [afterCommand, commandOf, h]
  rfl

/-- Every command has its word among the six legal ones. -/
theorem encode_mem_legalWords (i : Instr) : encode i ∈ [(0x10 : Byte), 0x20, 0x30, 0x31, 0x40, 0x50] := by
  cases i with
  | encodeBit b => cases b <;> decide
  | _ => decide

/-- Settles O7: a word that decodes is the word of its command, so one outside the list is illegal. -/
theorem illegalWordsChangeOnlyResp : Obligations.IllegalWordsChangeOnlyResp := by
  intro s v rest hp hv
  rw [step_write_cmd hp]
  cases hd : decode (v.setWidth 8) with
  | ok i =>
    rw [(decode_eq_ok_iff _ i).mp hd] at hv
    exact absurd (encode_mem_legalWords i) hv
  | error e =>
    rw [afterCommand_of_error hd]
    rfl

/-- The responses of an encode command, in the order of its checks: a refusal is the command's answer, and an admitted
command ends as `State.EncodeEnds` says. -/
theorem State.encode_response {s t : State} {m : Mode}
    (refused : ∀ c, s.encodeRefusal = some c → t = s.respond c false)
    (ends : (∃ c, s.encodeRefusal = some c ∧ t = s.respond c false) ∨ (s.mode = .enc ∧ s.EncodeEnds m t)) :
    if s.mode ≠ .enc then t.resp = ⟨.eMode, false⟩
    else if s.ovf = true then t.resp = ⟨.eOverflow, false⟩
    else (t.resp = ⟨.ok, false⟩ ∧ t.ovf = false) ∨ (t.resp = ⟨.eOverflow, false⟩ ∧ t.ovf = true) := by
  rcases s.encodeRefusal_cases with ⟨hm, hc⟩ | ⟨hm, ho, hc⟩ | ⟨hm, ho, hc⟩
  · rw [if_pos hm, refused _ hc]
    rfl
  · rw [if_neg (not_not.mpr hm), if_pos ho, refused _ hc]
    rfl
  · rw [if_neg (not_not.mpr hm), if_neg (ne_true_of_eq_false ho)]
    rcases ends with ⟨c, hc', _⟩ | ⟨_, ⟨hresp, hovf, _⟩ | ⟨hresp, hovf, _⟩⟩
    · rw [hc] at hc'
      cases hc'
    · exact .inl ⟨hresp, hovf.trans ho⟩
    · exact .inr ⟨hresp, hovf⟩

theorem execState_decodeBit_response (s : State) :
    if s.mode ≠ .dec then (execState .decodeBit s).resp = ⟨.eMode, false⟩
    else (execState .decodeBit s).resp.code = .ok := by
  split
  case isTrue hm =>
    rw [execState_decodeBit_of_mode_ne hm]
    rfl
  case isFalse hm =>
    rw [execState_decodeBit (not_not.mp hm)]
    rfl

/-- Settles O13: what the word decodes to is tested first, then the command's own checks. -/
theorem checksDecideTheResponseInOrder : Obligations.ChecksDecideTheResponseInOrder := by
  intro s t v rest hp hstep
  rw [step_write_cmd hp] at hstep
  cases hstep
  cases hd : decode (v.setWidth 8) with
  | error e =>
    rw [afterCommand_of_error hd]
    rfl
  | ok i =>
    rw [afterCommand_of_ok hd]
    cases i with
    | initEnc => rfl
    | initDec => rfl
    | encodeBit b =>
      exact State.encode_response (s := s.setPending rest) (fun c hc => (execState_encode_refused b hc).1)
        (execState_encodeBit_ends b _)
    | decodeBit => exact execState_decodeBit_response (s.setPending rest)
    | flush =>
      exact State.encode_response (s := s.setPending rest) (fun c hc => (execState_encode_refused false hc).2)
        (execState_flush_ends _)

theorem exec_encode_refused {s : State} {c : Code} (h : s.encodeRefusal = some c) :
    (∀ b, exec (.encodeBit b) s = .next { s with resp := ⟨c, false⟩ }) ∧
      exec .flush s = .next { s with resp := ⟨c, false⟩ } := by
  refine ⟨fun b => ?_, ?_⟩ <;> rw [exec_eq_execState]
  · rw [(execState_encode_refused b h).1]
    rfl
  · rw [(execState_encode_refused false h).2]
    rfl

/-- Settles O14: each refusal is the answer of an admission check; `INIT_*` have none. -/
theorem refusedCommandsChangeOnlyResp : Obligations.RefusedCommandsChangeOnlyResp := by
  intro s
  refine ⟨fun hm => exec_encode_refused (if_pos hm), decodeBitCompletes.1 s, fun hm ho => ?_,
    _, _, exec_eq_execState .initEnc s, exec_eq_execState .initDec s, rfl, rfl⟩
  exact exec_encode_refused ((if_neg (not_not.mpr hm)).trans (if_pos ho))

/-! ## What has no move (70_reset_and_hazards.md R215) -/

/-- The bytes that belong to a pass, by its `MODE`. -/
theorem State.owns_iff (s : State) (index : Word) :
    s.owns index = true ↔
      (s.mode = .dec ∧ index < s.limit) ∨ ((s.mode = .enc ∨ s.mode = .done) ∧ index < s.pos) := by
  unfold State.owns
  cases s.mode <;> simp

/-- Settles O12: the one access without a move is a store into bytes that belong to the pass in progress. -/
theorem everyCommandAndStepAnswers : Obligations.EveryCommandAndStepAnswers := by
  refine ⟨fun i s => ⟨_, exec_eq_execState i s⟩, fun s => step_nil, ?_, ?_⟩
  · intro s a rest hp hstore
    refine ⟨_, step_cons hp fun index v ha howns => ?_⟩
    rcases hstore index v ha with hover | ⟨hdec, henc⟩
    · exact hover
    · rcases (s.owns_iff index).mp howns with ⟨hm, hlt⟩ | ⟨hm, hlt⟩
      · exact absurd (hdec hm) (BitVec.not_le.mpr hlt)
      · exact absurd (henc hm) (BitVec.not_le.mpr hlt)
  · intro s index v rest hp hover howns
    refine step_refused hp fun hduty => ?_
    rw [hduty index v rfl ((s.owns_iff index).mpr howns)] at hover
    cases hover

/-! ## An `ENCODE_BIT` that overflows (60_exceptions.md R183) -/

/-- Settles O37: the loop emits as many bytes as there is room for, then overflows. -/
theorem encodeBitOverflowKeepsPartialEffects : Obligations.EncodeBitOverflowKeepsPartialEffects := by
  intro s b hs hm ho hfull
  have hle4 := sharedBytes_le (s.codeBit b).x1 (s.codeBit b).x2
  have hstores := State.emitRound_iterate_storesBytes (k := s.room) (hs.codeBit b) (s.codeBit_room b).ge (by omega)
  rw [s.codeBit_buf, s.codeBit_pos] at hstores
  refine ⟨_, ?_, hstores⟩
  rw [exec_eq_execState, execState_encodeBit_overflows hm ho hfull, State.raiseOverflow, ← State.emitRound_iterate]

end Sys2Proof.Machine

namespace Sys2Proof.Machine

/-! ## What a pass takes over (70_reset_and_hazards.md R211) -/

/-- `INIT_*` do not see the response of the command before them: they overwrite it and read it nowhere. -/
theorem execState_init_respond {i : Instr} (hi : i = .initEnc ∨ i = .initDec) (s : State) (c : Code) (b : Bool) :
    execState i (s.respond c b) = execState i s := by
  rcases hi with rfl | rfl
  · rfl
  · simp only [execState_initDec, State.preload_eq_fed]
    rfl

/-- What `INIT_*` read of a state is the pass it opens. -/
theorem execState_init_congr {i : Instr} (hi : i = .initEnc ∨ i = .initDec) {s t : State}
    (h : ∀ m, s.startPass m = t.startPass m) : execState i s = execState i t := by
  rcases hi with rfl | rfl
  · rw [execState_initEnc, execState_initEnc, h]
  · rw [execState_initDec, execState_initDec, h]

/-- Settles O17: once `s` is given the response of `t`, which `INIT_*` do not see, the two open the same pass. -/
theorem passInheritsNothing : Obligations.PassInheritsNothing := by
  intro s t hlen hbuf hcfg hpending hrdata hdraws
  have start (m : Mode) : (s.respond t.resp.code t.resp.bit).startPass m = t.startPass m :=
    State.startPass_congr m rfl hlen hbuf hcfg hpending hrdata hdraws
  have same {i : Instr} (hi : i = .initEnc ∨ i = .initDec) : exec i s = exec i t := by
    rw [exec_eq_execState, exec_eq_execState, ← execState_init_respond hi s, execState_init_congr hi start]
  exact ⟨same (.inl rfl), same (.inr rfl)⟩

end Sys2Proof.Machine
